-- ==== Sys2Proof/Word.lean ====
section
/-! DEFINITION. The word types: the block's unit of data is the byte (20_memory.md R42), and nothing in it is wider. -/

namespace Sys2Proof

/-- A byte: 8 bits, unsigned, 0 to 255 (00_scope.md section 5). -/
abbrev Byte := BitVec 8

/-- A ring cursor index: `IDX_W` = 15 bits, unsigned (10_state.md R17). -/
abbrev Index := BitVec 15

/-- The accumulation cursor's register: 10 bits, unsigned (10_state.md R27). -/
abbrev Acc := BitVec 10

end Sys2Proof
end

