-- ==== Sys2Proof/Config.lean ====
section
/-! DEFINITION. What an implementation fixes: the constants of 00_scope.md R6, the parameters of R7 with their defaults, and the one uninterpreted function of the model (the checksum nobody has specified, R100). -/

namespace Sys2Proof

/-- Policy of a ring instance (10_state.md R15). -/
inductive Mode
  | blocking
  | polling
deriving DecidableEq, Repr

/-- Frame format: command (outbound) or ack (inbound) (10_state.md R25, 30_encoding.md R57 and R58). -/
inductive Fmt
  | cmd
  | ack
deriving DecidableEq, Repr

/-- The fourteen names of the closed enumeration of wire opcodes, in the order of 30_encoding.md R68. -/
inductive OpName
  | init
  | setNonceDiff
  | setSeed
  | setMessage
  | returnNonce
  | setNonceRegion
  | firmwareUpdate
  | firmwareUpdateEnd
  | test
  | getBoardTemp
  | getChipTemp
  | readMem
  | writeMem
  | setChipAddress
deriving DecidableEq, Repr

/-- The names in the listed order (R68). -/
def OpName.all : List OpName :=
  [.init, .setNonceDiff, .setSeed, .setMessage, .returnNonce, .setNonceRegion, .firmwareUpdate,
   .firmwareUpdateEnd, .test, .getBoardTemp, .getChipTemp, .readMem, .writeMem, .setChipAddress]

/-- The parameter `OPMAP` (R7, R68): the byte of each name. -/
structure OpMap where
  init : Byte
  setNonceDiff : Byte
  setSeed : Byte
  setMessage : Byte
  returnNonce : Byte
  setNonceRegion : Byte
  firmwareUpdate : Byte
  firmwareUpdateEnd : Byte
  test : Byte
  getBoardTemp : Byte
  getChipTemp : Byte
  readMem : Byte
  writeMem : Byte
  setChipAddress : Byte
deriving DecidableEq, Repr

/-- The byte `OPMAP` gives a name. -/
def OpMap.byteOf (m : OpMap) : OpName → Byte
  | .init => m.init
  | .setNonceDiff => m.setNonceDiff
  | .setSeed => m.setSeed
  | .setMessage => m.setMessage
  | .returnNonce => m.returnNonce
  | .setNonceRegion => m.setNonceRegion
  | .firmwareUpdate => m.firmwareUpdate
  | .firmwareUpdateEnd => m.firmwareUpdateEnd
  | .test => m.test
  | .getBoardTemp => m.getBoardTemp
  | .getChipTemp => m.getChipTemp
  | .readMem => m.readMem
  | .writeMem => m.writeMem
  | .setChipAddress => m.setChipAddress

/-- The set `OP_RECOGNIZED` (R68), as a list. -/
def OpMap.recognized (m : OpMap) : List Byte := OpName.all.map m.byteOf

/-- The name a byte stands for, if any (the first in the listed order; `OPMAP` is injective, so there is at most one). -/
def OpMap.nameOf (m : OpMap) (b : Byte) : Option OpName :=
  OpName.all.find? fun n => m.byteOf n == b

/-- `OPMAP` is injective (R68). -/
abbrev OpMap.Injective (m : OpMap) : Prop := m.recognized.Nodup

/-- Which function `CK` is (41_framecodec_pack.md R100, R102): one of the two candidates the source's wording points at, or
a function of which nothing is known, told apart by a number. The machine takes it as a parameter; it is never built in. -/
inductive CkSel
  | sum8
  | xor8
  | original (n : Nat)
deriving DecidableEq, Repr

/-- Constants the source fixes (R6), held as fields of a configuration record so that a claim can name them
(93_implementation_defined.md part 3). -/
structure Caps where
  p1Cmd : Byte
  p2Cmd : Byte
  p1Ack : Byte
  p2Ack : Byte
  headerLenCmd : Nat
  headerLenAck : Nat
  payloadMax : Nat
  lenFieldMax : Nat
  addrBroadcast : Byte
  idxW : Nat
  sizeMax : Nat
deriving DecidableEq, Repr

/-- The values of R6. -/
def Config.caps : Caps where
  p1Cmd := 0x55#8
  p2Cmd := 0xAA#8
  p1Ack := 0xAA#8
  p2Ack := 0x55#8
  headerLenCmd := 6
  headerLenAck := 7
  payloadMax := 512
  lenFieldMax := 255
  addrBroadcast := 0xFF#8
  idxW := 15
  sizeMax := 32767

/-- The number of bytes of a scratch frame buffer: `HEADER_LEN_ACK + PAYLOAD_MAX` = 519 (10_state.md R28). -/
def Config.scrLen : Nat := Config.caps.headerLenAck + Config.caps.payloadMax

/-- What every byte of `SCR` holds at reset. 10_state.md R36 gives it no value (D30); the register file holds one all the same:
DESIGN CHOICE, assumption log 29, unsafe where a claim leans on it. -/
def Config.scrReset : Byte := 0x00#8

/-- Parameters the source leaves open (R7). Every operation reads them and none writes them (10_state.md R32, 20_memory.md
R54); a claim about every state is a claim about every value of them. Assumption log 1. -/
structure Params where
  /-- which function `CK` is -/
  ck : CkSel
  opmap : OpMap
  /-- `RB_ALIGN` -/
  rbAlign : Nat
  /-- `RB_MULT`, the source's `fixed_multiplier` -/
  rbMult : Nat
  workFrameLen : Nat
  dlFrameLen : Nat
  /-- `NONCE_RESP_LEN`: no rule reads it; what it counts is open (91_not_in_source.md N8) -/
  nonceRespLen : Nat
  /-- `REG_RESP_LEN`: no rule reads it; what it counts is open (N8) -/
  regRespLen : Nat
  /-- the nonce record length by which `NONCE_RING` is sized (70_reset_and_hazards.md R180 step 2) -/
  nonceRecLen : Nat
  /-- the register record length by which `REG_RING` is sized (R180 step 2) -/
  regRecLen : Nat
  /-- `CNT_W`, width of `PROTO_ERR_CNT` in hardware (10_state.md R31) -/
  cntW : Nat
  /-- `POLL_INTERVAL`: no rule reads it (60_exceptions.md R172) -/
  pollInterval : Nat
deriving DecidableEq, Repr

/-- The parameters are of the types R7 gives them: an injective `OPMAP`, under which the byte 0x01 is a name's but not
`return-nonce`'s (92_eei_decisions.md D8), and positive integers where R7 says so. Of the frame lengths
41_framecodec_pack.md R107 says more. -/
abbrev Params.WellTyped (p : Params) : Prop :=
  (p.opmap.Injective ∧ 0x01#8 ∈ p.opmap.recognized ∧ p.opmap.returnNonce ≠ 0x01#8) ∧
  1 ≤ p.rbAlign ∧ 1 ≤ p.rbMult ∧ (1 ≤ p.nonceRespLen ∧ 1 ≤ p.regRespLen) ∧
  (1 ≤ p.nonceRecLen ∧ 1 ≤ p.regRecLen) ∧ 1 ≤ p.cntW

/-- What the initialisation is given for one chain (R7, 70_reset_and_hazards.md R180): the identity byte, the policy of each
inbound ring (the outbound rings are blocking instances, D24), `SIZE_REQ` of each ring (`none`: the default of R7,
`per_frame_len x RB_MULT`), and whether the chain's transport opens (R180 step 4), which is the environment's answer. -/
structure ChainConfig where
  chainId : Byte
  nonceMode : Mode
  regMode : Mode
  nonceReq : Option Nat
  regReq : Option Nat
  workReq : Option Nat
  dlReq : Option Nat
  opens : Bool
deriving DecidableEq, Repr

/-- What the initialisation is given (R7, R180): the parameters, the chains `0 .. N_CHAINS - 1`, and `SIZE_REQ` and policy of
`PMON_RING`. Assumption log 6. -/
structure BootConfig where
  params : Params
  chains : List ChainConfig
  pmonReq : Nat
  pmonMode : Mode
deriving DecidableEq, Repr

/-- The default `OPMAP`: the listed order from 0x00 (R68). DESIGN CHOICE of the spec (D8), assumption log 3; unsafe where a
claim leans on a particular byte. -/
def Config.defaultOpMap : OpMap where
  init := 0x00#8
  setNonceDiff := 0x01#8
  setSeed := 0x02#8
  setMessage := 0x03#8
  returnNonce := 0x04#8
  setNonceRegion := 0x05#8
  firmwareUpdate := 0x06#8
  firmwareUpdateEnd := 0x07#8
  test := 0x08#8
  getBoardTemp := 0x09#8
  getChipTemp := 0x0A#8
  readMem := 0x0B#8
  writeMem := 0x0C#8
  setChipAddress := 0x0D#8

/-- The parameters at reset: the defaults of R7 where it gives one (logs 2, 3 and 4), DESIGN CHOICE where it gives none
(log 5). Unsafe where a claim leans on one of these values; no statement does. -/
def Config.params : Params where
  ck := .sum8
  opmap := Config.defaultOpMap
  rbAlign := 4
  rbMult := 2
  workFrameLen := 9
  dlFrameLen := 9
  nonceRespLen := 262
  regRespLen := 262
  nonceRecLen := 263
  regRecLen := 263
  cntW := 32
  pollInterval := 1

/-- `N_CHAINS` at reset. DESIGN CHOICE, assumption log 5, unsafe. -/
def Config.nChains : Nat := 3

/-- The identity byte of chain `c` at reset. DESIGN CHOICE, assumption log 5, unsafe (N19). -/
def Config.chainId (c : Nat) : Byte := BitVec.ofNat 8 c

/-- The policy of the inbound rings at reset: open in the spec (D24). DESIGN CHOICE, assumption log 5, unsafe. -/
def Config.inboundMode : Mode := .blocking

/-- The policy of `PMON_RING` at reset: open in the spec (D24). DESIGN CHOICE, assumption log 5, unsafe. -/
def Config.pmonMode : Mode := .polling

/-- `SIZE_REQ` of `PMON_RING` at reset: open in the spec (D25), which gives that ring no frame length. DESIGN CHOICE, assumption
log 5, unsafe. -/
def Config.pmonReq : Nat := 526

/-- Chain `c` at reset: every ring of its default size, and a transport that opens. DESIGN CHOICE, assumption log 5, unsafe. -/
def Config.chain (c : Nat) : ChainConfig where
  chainId := Config.chainId c
  nonceMode := Config.inboundMode
  regMode := Config.inboundMode
  nonceReq := none
  regReq := none
  workReq := none
  dlReq := none
  opens := true

/-- The configuration the block is in at reset. -/
def Config.boot : BootConfig where
  params := Config.params
  chains := (List.range Config.nChains).map Config.chain
  pmonReq := Config.pmonReq
  pmonMode := Config.pmonMode

/-- A checksum function of which nothing is known but that it is a function (`CK_DET`, R100, R101). The number tells one
such function from another. Assumption log 2. -/
opaque Config.ck : Nat → List Byte → Byte

end Sys2Proof
end

