-- ==== Sys2Proof/Syntax.lean ====
section
/-! DEFINITION. The instructions: one constructor per row of spec/opcode_table.json (30_encoding.md R72, R74), their operand types, and the lines that carry them. -/

namespace Sys2Proof

/-- The name of a ring instance (00_scope.md R9): four rings of each chain, and `PMON_RING`. -/
inductive RingId
  | nonce (chain : Nat)
  | reg (chain : Nat)
  | work (chain : Nat)
  | dl (chain : Nat)
  | pmon
deriving DecidableEq, Repr

/-- Which TX agent: the work sender or the data downloader (43_pipeline.md R131). -/
inductive Which
  | work
  | dl
deriving DecidableEq, Repr

/-- The block's instructions. A wire row's operands are the chain whose inbound link the frame arrives on and the fields of
the frame (30_encoding.md R57, R58); its opcode byte is the name's byte in `OPMAP`. An operation row's operands are those
of 30_encoding.md R72. -/
inductive Instr
  | initCmd (chain : Nat) (addr cksum : Byte) (payload : List Byte)
  | initAck (chain : Nat) (addr ack cksum : Byte) (payload : List Byte)
  | setNonceDiffCmd (chain : Nat) (addr cksum : Byte) (payload : List Byte)
  | setNonceDiffAck (chain : Nat) (addr ack cksum : Byte) (payload : List Byte)
  | setSeedCmd (chain : Nat) (addr cksum : Byte) (payload : List Byte)
  | setSeedAck (chain : Nat) (addr ack cksum : Byte) (payload : List Byte)
  | setMessageCmd (chain : Nat) (addr cksum : Byte) (payload : List Byte)
  | setMessageAck (chain : Nat) (addr ack cksum : Byte) (payload : List Byte)
  | returnNonceCmd (chain : Nat) (addr cksum : Byte) (payload : List Byte)
  | returnNonceAck (chain : Nat) (addr ack cksum : Byte) (payload : List Byte)
  | setNonceRegionCmd (chain : Nat) (addr cksum : Byte) (payload : List Byte)
  | setNonceRegionAck (chain : Nat) (addr ack cksum : Byte) (payload : List Byte)
  | firmwareUpdateCmd (chain : Nat) (addr cksum : Byte) (payload : List Byte)
  | firmwareUpdateAck (chain : Nat) (addr ack cksum : Byte) (payload : List Byte)
  | firmwareUpdateEndCmd (chain : Nat) (addr cksum : Byte) (payload : List Byte)
  | firmwareUpdateEndAck (chain : Nat) (addr ack cksum : Byte) (payload : List Byte)
  | testCmd (chain : Nat) (addr cksum : Byte) (payload : List Byte)
  | testAck (chain : Nat) (addr ack cksum : Byte) (payload : List Byte)
  | getBoardTempCmd (chain : Nat) (addr cksum : Byte) (payload : List Byte)
  | getBoardTempAck (chain : Nat) (addr ack cksum : Byte) (payload : List Byte)
  | getChipTempCmd (chain : Nat) (addr cksum : Byte) (payload : List Byte)
  | getChipTempAck (chain : Nat) (addr ack cksum : Byte) (payload : List Byte)
  | readMemCmd (chain : Nat) (addr cksum : Byte) (payload : List Byte)
  | readMemAck (chain : Nat) (addr ack cksum : Byte) (payload : List Byte)
  | writeMemCmd (chain : Nat) (addr cksum : Byte) (payload : List Byte)
  | writeMemAck (chain : Nat) (addr ack cksum : Byte) (payload : List Byte)
  | setChipAddressCmd (chain : Nat) (addr cksum : Byte) (payload : List Byte)
  | setChipAddressAck (chain : Nat) (addr ack cksum : Byte) (payload : List Byte)
  | unknownOpcodeCmd (chain : Nat) (opcode addr cksum : Byte) (payload : List Byte)
  | unknownOpcodeAck (chain : Nat) (opcode addr ack cksum : Byte) (payload : List Byte)
  | rbInit (rb : RingId) (sizeReq : Nat) (mode : Mode)
  | rbPutPolling (rb : RingId) (data : List Byte)
  | rbPutBlocking (rb : RingId) (data : List Byte)
  | rbGetPolling (rb : RingId) (n : Nat)
  | rbGetBlocking (rb : RingId) (n : Nat)
  | rbPutForce (rb : RingId) (data : List Byte)
  | rbDataLen (rb : RingId)
  | rbSpaceLen (rb : RingId)
  | rbStatus (rb : RingId)
  | rbShutdown (rb : RingId)
  | fcPack (opcode addr : Byte) (payload : List Byte)
  | fcStamp (image : List Byte)
  | psRx (chain : Nat) (bytes : List Byte)
  | psReset (chain : Nat)
  | psWant (chain : Nat)
  | fcParse (fmt : Fmt) (bytes : List Byte)
  | dspStep (chain : Nat)
  | txStep (chain : Nat) (which : Which)
deriving DecidableEq, Repr

/-- The `CMD` row of an opcode name. -/
def Instr.cmd : OpName → Nat → Byte → Byte → List Byte → Instr
  | .init => .initCmd
  | .setNonceDiff => .setNonceDiffCmd
  | .setSeed => .setSeedCmd
  | .setMessage => .setMessageCmd
  | .returnNonce => .returnNonceCmd
  | .setNonceRegion => .setNonceRegionCmd
  | .firmwareUpdate => .firmwareUpdateCmd
  | .firmwareUpdateEnd => .firmwareUpdateEndCmd
  | .test => .testCmd
  | .getBoardTemp => .getBoardTempCmd
  | .getChipTemp => .getChipTempCmd
  | .readMem => .readMemCmd
  | .writeMem => .writeMemCmd
  | .setChipAddress => .setChipAddressCmd

/-- The `ACK` row of an opcode name. -/
def Instr.ack : OpName → Nat → Byte → Byte → Byte → List Byte → Instr
  | .init => .initAck
  | .setNonceDiff => .setNonceDiffAck
  | .setSeed => .setSeedAck
  | .setMessage => .setMessageAck
  | .returnNonce => .returnNonceAck
  | .setNonceRegion => .setNonceRegionAck
  | .firmwareUpdate => .firmwareUpdateAck
  | .firmwareUpdateEnd => .firmwareUpdateEndAck
  | .test => .testAck
  | .getBoardTemp => .getBoardTempAck
  | .getChipTemp => .getChipTempAck
  | .readMem => .readMemAck
  | .writeMem => .writeMemAck
  | .setChipAddress => .setChipAddressAck

/-- An operand of a request, passed as a value (30_encoding.md R73). -/
inductive Operand
  | ring (rb : RingId)
  | chain (c : Nat)
  | nat (n : Nat)
  | byte (b : Byte)
  | bytes (l : List Byte)
  | mode (m : Mode)
  | fmt (f : Fmt)
  | which (w : Which)
deriving DecidableEq, Repr

/-- A line: what the machine fetches. Either a request at a port, a 4-bit selector followed by its operands as values
(30_encoding.md R72, R78), or a byte list arriving on the inbound link of a chain. Assumption log 12. -/
inductive Line
  | op (selector : BitVec 4) (operands : List Operand)
  | wire (chain : Nat) (bytes : List Byte)
deriving DecidableEq, Repr

end Sys2Proof
end

