-- ==== Sys2Proof/WellFormed.lean ====
section
/-! DEFINITION. Which instructions an encoding exists for: the payload length fits the one-byte field (30_encoding.md R63), a catch-all row holds a byte no name has (44_wire_opcodes.md R155), and the row of a put or get is the one its instance's MODE selects (30_encoding.md R72, 40_ringbuffer.md R89). -/

namespace Sys2Proof

/-- What decoding a line depends on besides its bits: `OPMAP`, and the policy of each ring instance, since `RB.PUT` and
`RB.GET` have one selector each and the instance's `MODE` decides the row (R72). -/
structure Ctx where
  opmap : OpMap
  modeOf : RingId → Option Mode

/-- The payload fits the one-byte length field (R63). -/
abbrev PayloadFits (payload : List Byte) : Prop := payload.length ≤ Config.caps.lenFieldMax

/-- The byte is in the catch-all class (R155). -/
abbrev Ctx.Unknown (ctx : Ctx) (opcode : Byte) : Prop := opcode ∉ ctx.opmap.recognized

/-- Well-formedness of an instruction in a context. -/
abbrev WellFormed (ctx : Ctx) : Instr → Prop
  | .initCmd _ _ _ p | .setNonceDiffCmd _ _ _ p | .setSeedCmd _ _ _ p | .setMessageCmd _ _ _ p
  | .returnNonceCmd _ _ _ p | .setNonceRegionCmd _ _ _ p | .firmwareUpdateCmd _ _ _ p
  | .firmwareUpdateEndCmd _ _ _ p | .testCmd _ _ _ p | .getBoardTempCmd _ _ _ p
  | .getChipTempCmd _ _ _ p | .readMemCmd _ _ _ p | .writeMemCmd _ _ _ p
  | .setChipAddressCmd _ _ _ p => PayloadFits p
  | .initAck _ _ _ _ p | .setNonceDiffAck _ _ _ _ p | .setSeedAck _ _ _ _ p | .setMessageAck _ _ _ _ p
  | .returnNonceAck _ _ _ _ p | .setNonceRegionAck _ _ _ _ p | .firmwareUpdateAck _ _ _ _ p
  | .firmwareUpdateEndAck _ _ _ _ p | .testAck _ _ _ _ p | .getBoardTempAck _ _ _ _ p
  | .getChipTempAck _ _ _ _ p | .readMemAck _ _ _ _ p | .writeMemAck _ _ _ _ p
  | .setChipAddressAck _ _ _ _ p => PayloadFits p
  | .unknownOpcodeCmd _ op _ _ p => PayloadFits p ∧ ctx.Unknown op
  | .unknownOpcodeAck _ op _ _ _ p => PayloadFits p ∧ ctx.Unknown op
  | .rbPutPolling rb _ => ctx.modeOf rb ≠ some .blocking
  | .rbPutBlocking rb _ => ctx.modeOf rb = some .blocking
  | .rbGetPolling rb _ => ctx.modeOf rb ≠ some .blocking
  | .rbGetBlocking rb _ => ctx.modeOf rb = some .blocking
  | .rbInit _ _ _ | .rbPutForce _ _ | .rbDataLen _ | .rbSpaceLen _ | .rbStatus _ | .rbShutdown _
  | .fcPack _ _ _ | .fcStamp _ | .psRx _ _ | .psReset _ | .psWant _ | .fcParse _ _ | .dspStep _
  | .txStep _ _ => True

end Sys2Proof
end

