-- ==== Sys2Proof/Decode.lean ====
section
/-! DEFINITION. The layout of the two frame formats (30_encoding.md R57, R58; 10_state.md R25), the decoder of lines, total and rejecting by name, and after it the encoder, both from the encoding tables of 30_encoding.md. -/

namespace Sys2Proof

/-! ## Layout: the derived constants of 10_state.md R25 -/

/-- First preamble byte (R25). -/
def Fmt.p1 : Fmt → Byte
  | .cmd => Config.caps.p1Cmd
  | .ack => Config.caps.p1Ack

/-- Second preamble byte (R25). -/
def Fmt.p2 : Fmt → Byte
  | .cmd => Config.caps.p2Cmd
  | .ack => Config.caps.p2Ack

/-- `HEADER_LEN` (R25). -/
def Fmt.headerLen : Fmt → Nat
  | .cmd => Config.caps.headerLenCmd
  | .ack => Config.caps.headerLenAck

/-- `OP_OFF` (R25). -/
def Fmt.opOff : Fmt → Nat
  | .cmd => 2
  | .ack => 2

/-- `ADDR_OFF` (R25). -/
def Fmt.addrOff : Fmt → Nat
  | .cmd => 3
  | .ack => 3

/-- `ACK_OFF` (R25): the ACK format only. -/
def Fmt.ackOff : Fmt → Option Nat
  | .cmd => none
  | .ack => some 4

/-- `LEN_OFF` (R25). -/
def Fmt.lenOff : Fmt → Nat
  | .cmd => 4
  | .ack => 5

/-- `CK_OFF` (R25). -/
def Fmt.ckOff : Fmt → Nat
  | .cmd => 5
  | .ack => 6

/-- `PAYLOAD_OFF` (R25). -/
def Fmt.payloadOff : Fmt → Nat
  | .cmd => 6
  | .ack => 7

/-- The bytes of a command frame from its fields (R57). -/
def cmdBytes (op addr cksum : Byte) (payload : List Byte) : List Byte :=
  [Fmt.cmd.p1, Fmt.cmd.p2, op, addr, BitVec.ofNat 8 payload.length, cksum] ++ payload

/-- The bytes of an ack frame from its fields (R58). -/
def ackBytes (op addr ack cksum : Byte) (payload : List Byte) : List Byte :=
  [Fmt.ack.p1, Fmt.ack.p2, op, addr, ack, BitVec.ofNat 8 payload.length, cksum] ++ payload

/-! ## The decoder -/

/-- Why a line is no instruction. -/
inductive DecodeError
  /-- the bytes do not begin with either format's preamble (30_encoding.md R59, R70) -/
  | badPreamble
  /-- fewer bytes than the format's header (R57, R58) -/
  | truncatedHeader
  /-- the byte count is not the header's length plus the length byte (R65) -/
  | lengthMismatch
  /-- the operands are not those of the selector's row (R72) -/
  | wrongOperands (selector : BitVec 4)
deriving DecidableEq, Repr

/-- The CMD row of an opcode byte: its name's, or the catch-all (44_wire_opcodes.md R155). -/
def cmdInstr (m : OpMap) (chain : Nat) (op addr cksum : Byte) (payload : List Byte) : Instr :=
  match m.nameOf op with
  | some n => Instr.cmd n chain addr cksum payload
  | none => .unknownOpcodeCmd chain op addr cksum payload

/-- The ACK row of an opcode byte: its name's, or the catch-all (R155). -/
def ackInstr (m : OpMap) (chain : Nat) (op addr ack cksum : Byte) (payload : List Byte) : Instr :=
  match m.nameOf op with
  | some n => Instr.ack n chain addr ack cksum payload
  | none => .unknownOpcodeAck chain op addr ack cksum payload

/-- The instruction one whole frame is (R57, R58, R65, R74). -/
def decodeFrame (m : OpMap) (chain : Nat) : List Byte → Except DecodeError Instr
  | p1 :: p2 :: rest =>
    if p1 = Fmt.cmd.p1 ∧ p2 = Fmt.cmd.p2 then
      match rest with
      | op :: addr :: len :: cksum :: payload =>
        if payload.length = len.toNat then .ok (cmdInstr m chain op addr cksum payload)
        else .error .lengthMismatch
      | _ => .error .truncatedHeader
    else if p1 = Fmt.ack.p1 ∧ p2 = Fmt.ack.p2 then
      match rest with
      | op :: addr :: ack :: len :: cksum :: payload =>
        if payload.length = len.toNat then .ok (ackInstr m chain op addr ack cksum payload)
        else .error .lengthMismatch
      | _ => .error .truncatedHeader
    else .error .badPreamble
  | _ => .error .truncatedHeader

/-- The operation a selector and its operand values are (R72). For selectors 0x1 and 0x2 the instance's MODE decides the
row (R72, 40_ringbuffer.md R89); an instance that does not exist takes the polling row, which is then refused. -/
def decodeOp (ctx : Ctx) (sel : BitVec 4) (args : List Operand) : Except DecodeError Instr :=
  match sel.toNat, args with
  | 0x0, [.ring rb, .nat sizeReq, .mode m] => .ok (.rbInit rb sizeReq m)
  | 0x1, [.ring rb, .bytes d] =>
    .ok (if ctx.modeOf rb = some .blocking then .rbPutBlocking rb d else .rbPutPolling rb d)
  | 0x2, [.ring rb, .nat n] =>
    .ok (if ctx.modeOf rb = some .blocking then .rbGetBlocking rb n else .rbGetPolling rb n)
  | 0x3, [.ring rb, .bytes d] => .ok (.rbPutForce rb d)
  | 0x4, [.ring rb] => .ok (.rbDataLen rb)
  | 0x5, [.ring rb] => .ok (.rbSpaceLen rb)
  | 0x6, [.ring rb] => .ok (.rbStatus rb)
  | 0x7, [.ring rb] => .ok (.rbShutdown rb)
  | 0x8, [.byte op, .byte addr, .bytes p] => .ok (.fcPack op addr p)
  | 0x9, [.bytes image] => .ok (.fcStamp image)
  | 0xA, [.chain c, .bytes b] => .ok (.psRx c b)
  | 0xB, [.chain c] => .ok (.psReset c)
  | 0xC, [.chain c] => .ok (.psWant c)
  | 0xD, [.fmt f, .bytes b] => .ok (.fcParse f b)
  | 0xE, [.chain c] => .ok (.dspStep c)
  | 0xF, [.chain c, .which w] => .ok (.txStep c w)
  | _, _ => .error (.wrongOperands sel)

/-- The instruction a line is. -/
def decode (ctx : Ctx) : Line → Except DecodeError Instr
  | .op sel args => decodeOp ctx sel args
  | .wire chain bytes => decodeFrame ctx.opmap chain bytes

/-! ## The encoder -/

/-- A wire line of a command frame. -/
def encodeCmd (chain : Nat) (op addr cksum : Byte) (payload : List Byte) : Line :=
  .wire chain (cmdBytes op addr cksum payload)

/-- A wire line of an ack frame. -/
def encodeAck (chain : Nat) (op addr ack cksum : Byte) (payload : List Byte) : Line :=
  .wire chain (ackBytes op addr ack cksum payload)

/-- The line of an instruction (R57, R58, R68, R72). -/
def encode (m : OpMap) : Instr → Line
  | .initCmd c a k p => encodeCmd c m.init a k p
  | .initAck c a s k p => encodeAck c m.init a s k p
  | .setNonceDiffCmd c a k p => encodeCmd c m.setNonceDiff a k p
  | .setNonceDiffAck c a s k p => encodeAck c m.setNonceDiff a s k p
  | .setSeedCmd c a k p => encodeCmd c m.setSeed a k p
  | .setSeedAck c a s k p => encodeAck c m.setSeed a s k p
  | .setMessageCmd c a k p => encodeCmd c m.setMessage a k p
  | .setMessageAck c a s k p => encodeAck c m.setMessage a s k p
  | .returnNonceCmd c a k p => encodeCmd c m.returnNonce a k p
  | .returnNonceAck c a s k p => encodeAck c m.returnNonce a s k p
  | .setNonceRegionCmd c a k p => encodeCmd c m.setNonceRegion a k p
  | .setNonceRegionAck c a s k p => encodeAck c m.setNonceRegion a s k p
  | .firmwareUpdateCmd c a k p => encodeCmd c m.firmwareUpdate a k p
  | .firmwareUpdateAck c a s k p => encodeAck c m.firmwareUpdate a s k p
  | .firmwareUpdateEndCmd c a k p => encodeCmd c m.firmwareUpdateEnd a k p
  | .firmwareUpdateEndAck c a s k p => encodeAck c m.firmwareUpdateEnd a s k p
  | .testCmd c a k p => encodeCmd c m.test a k p
  | .testAck c a s k p => encodeAck c m.test a s k p
  | .getBoardTempCmd c a k p => encodeCmd c m.getBoardTemp a k p
  | .getBoardTempAck c a s k p => encodeAck c m.getBoardTemp a s k p
  | .getChipTempCmd c a k p => encodeCmd c m.getChipTemp a k p
  | .getChipTempAck c a s k p => encodeAck c m.getChipTemp a s k p
  | .readMemCmd c a k p => encodeCmd c m.readMem a k p
  | .readMemAck c a s k p => encodeAck c m.readMem a s k p
  | .writeMemCmd c a k p => encodeCmd c m.writeMem a k p
  | .writeMemAck c a s k p => encodeAck c m.writeMem a s k p
  | .setChipAddressCmd c a k p => encodeCmd c m.setChipAddress a k p
  | .setChipAddressAck c a s k p => encodeAck c m.setChipAddress a s k p
  | .unknownOpcodeCmd c op a k p => encodeCmd c op a k p
  | .unknownOpcodeAck c op a s k p => encodeAck c op a s k p
  | .rbInit rb n m => .op 0x0#4 [.ring rb, .nat n, .mode m]
  | .rbPutPolling rb d => .op 0x1#4 [.ring rb, .bytes d]
  | .rbPutBlocking rb d => .op 0x1#4 [.ring rb, .bytes d]
  | .rbGetPolling rb n => .op 0x2#4 [.ring rb, .nat n]
  | .rbGetBlocking rb n => .op 0x2#4 [.ring rb, .nat n]
  | .rbPutForce rb d => .op 0x3#4 [.ring rb, .bytes d]
  | .rbDataLen rb => .op 0x4#4 [.ring rb]
  | .rbSpaceLen rb => .op 0x5#4 [.ring rb]
  | .rbStatus rb => .op 0x6#4 [.ring rb]
  | .rbShutdown rb => .op 0x7#4 [.ring rb]
  | .fcPack op a p => .op 0x8#4 [.byte op, .byte a, .bytes p]
  | .fcStamp image => .op 0x9#4 [.bytes image]
  | .psRx c b => .op 0xA#4 [.chain c, .bytes b]
  | .psReset c => .op 0xB#4 [.chain c]
  | .psWant c => .op 0xC#4 [.chain c]
  | .fcParse f b => .op 0xD#4 [.fmt f, .bytes b]
  | .dspStep c => .op 0xE#4 [.chain c]
  | .txStep c w => .op 0xF#4 [.chain c, .which w]

/-! ## Words of the opcode table -/

/-- The `n` low bytes of a number, the most significant first (R74: byte 0 of the frame is the most significant). -/
def beBytes : Nat → Nat → List Byte
  | 0, _ => []
  | n + 1, w => BitVec.ofNat 8 (w / 256 ^ n) :: beBytes n w

/-- A byte list lengthened with zero bytes to a given length. -/
def padTo (n : Nat) (l : List Byte) : List Byte := l ++ List.replicate (n - l.length) 0#8

/-- The operands of a selector when the bits that hold them are all zero: the first ring, chain 0, 0, no bytes (an
image, which has at least six bytes, 41_framecodec_pack.md R106: six zero bytes). -/
def zeroOperands (sel : Nat) : List Operand :=
  match sel with
  | 0x0 => [.ring (.nonce 0), .nat 0, .mode .blocking]
  | 0x1 | 0x3 => [.ring (.nonce 0), .bytes []]
  | 0x2 => [.ring (.nonce 0), .nat 0]
  | 0x4 | 0x5 | 0x6 | 0x7 => [.ring (.nonce 0)]
  | 0x8 => [.byte 0#8, .byte 0#8, .bytes []]
  | 0x9 => [.bytes (List.replicate 6 0#8)]
  | 0xA => [.chain 0, .bytes []]
  | 0xB | 0xC | 0xE => [.chain 0]
  | 0xD => [.fmt .cmd, .bytes []]
  | 0xF => [.chain 0, .which .work]
  | _ => []

/-- The line whose first `nbits` bits are `w`, numbered as the opcode table numbers them, every later bit zero: a selector
(R72) when there is no more than one byte, otherwise a frame whose byte 0 is the most significant byte of `w` (R74), on
chain 0. Assumption log 23. -/
def tableLine (nbits w : Nat) : Line :=
  if nbits ≤ 8 ∧ w < 16 then .op (BitVec.ofNat 4 w) (zeroOperands w)
  else
    let raw := beBytes (nbits / 8) w
    let fmt := if raw.head? = some Fmt.cmd.p1 then Fmt.cmd else Fmt.ack
    let header := padTo fmt.headerLen raw
    .wire 0 (padTo (fmt.headerLen + (header.getD fmt.lenOff 0#8).toNat) header)

/-- The decoding context of the configuration at reset: the default `OPMAP`, and the policies of the rings that exist. -/
def Ctx.atReset : Ctx where
  opmap := Config.params.opmap
  modeOf
    | .nonce c | .reg c => if c < Config.nChains then some Config.inboundMode else none
    | .work c | .dl c => if c < Config.nChains then some .blocking else none
    | .pmon => some Config.pmonMode

/-- The instruction the decoder reads from an instruction whose bits are `w`. -/
def decodeTableWord (nbits w : Nat) : Option Instr :=
  match decode Ctx.atReset (tableLine nbits w) with
  | .ok i => some i
  | .error _ => none

end Sys2Proof
end

