-- ==== Sys2Proof/Machine/Size.lean ====
section
/-! DEFINITION. The capacity `RB.INIT` gives a request: "rounded down to an alignment" (10_state.md R14, 20_memory.md R41). -/

namespace Sys2Proof.Machine

/-- `(size_req div RB_ALIGN) x RB_ALIGN` (R14). -/
def roundSize (p : Params) (sizeReq : Nat) : Nat := sizeReq / p.rbAlign * p.rbAlign

/-- A rounded size no instance may have: 0, or more than `SIZE_MAX` (40_ringbuffer.md R83 a, b). -/
abbrev BadSize (size : Nat) : Prop := size = 0 ∨ size > Config.caps.sizeMax

/-- `SIZE_REQ` of an instance: what the configuration asks for, or the default `per_frame_len x RB_MULT` (00_scope.md R7,
70_reset_and_hazards.md R180 step 2). -/
def ringRequest (req : Option Nat) (p : Params) (perFrameLen : Nat) : Nat := req.getD (perFrameLen * p.rbMult)

end Sys2Proof.Machine
end

