-- ==== Sys2Proof/Machine/State.lean ====
section
/-! DEFINITION. The state of the block (10_state.md R13 to R36) as plain data, what a step can stop with, and the state after reset. -/

namespace Sys2Proof.Machine

/-- Byte storage: the bytes written so far, by index, in one canonical form (indices strictly rising). An unlisted index has
no value (10_state.md R16: unspecified content). Assumption log 13. -/
abbrev Mem := List Host.Cell

/-- The canonical form of a byte storage: indices strictly rising. -/
abbrev Mem.wf (m : Mem) : Prop := (m.map Prod.fst).Pairwise (· < ·)

/-- `SCR` (R28): the 519 bytes of a parser's register file, held as the cells that differ from the value at reset. An index
without a cell holds `Config.scrReset`, so every register holds a value from reset on. Assumption log 29. -/
abbrev Scr := List Host.Cell

/-- The canonical form of a register file: indices strictly rising and inside the 519, and no cell with the value that an index
without a cell holds, so that equal register files are equal data. -/
abbrev Scr.wf (r : Scr) : Prop := Mem.wf r ∧ ∀ e ∈ r, e.1 < Config.scrLen ∧ e.2 ≠ Config.scrReset

/-- Who requests an operation (00_scope.md R3): a host agent, the RX agent of a chain, one of its TX agents. -/
inductive Agent
  | host (n : Nat)
  | rx (chain : Nat)
  | tx (chain : Nat) (which : Which)
deriving DecidableEq, Repr

/-- A held request (10_state.md R23): a blocking put or get with its arguments, or the blocking get of a `TX.STEP`
(43_pipeline.md R131). -/
inductive Held
  | put (who : Agent) (data : List Byte)
  | get (who : Agent) (n : Nat)
  | txGet (chain : Nat) (which : Which)
deriving DecidableEq, Repr

/-- The requester of a held request. -/
def Held.who : Held → Agent
  | .put who _ => who
  | .get who _ => who
  | .txGet c w => .tx c w

/-- One ring instance (10_state.md section 2). -/
structure Ring where
  /-- `SIZE` (R14) -/
  size : Nat
  /-- `MODE` (R15) -/
  mode : Mode
  /-- `BUF` (R16) -/
  buf : Mem
  /-- `RI` (R17) -/
  ri : Index
  /-- `WI` (R17) -/
  wi : Index
  /-- `RM` (R18), `true` for 1 -/
  rm : Bool
  /-- `WM` (R18), `true` for 1 -/
  wm : Bool
  /-- `SHUT` (R22) -/
  shut : Bool
  /-- `PENDING` (R23): a set, held as a list whose order means nothing -/
  pending : List Held
deriving DecidableEq, Repr

/-- Parser state (10_state.md R26). -/
inductive PState
  | p1
  | p2
  | hdr
  | body
deriving DecidableEq, Repr

/-- The numeric codes of R26. -/
def PState.code : PState → BitVec 2
  | .p1 => 0#2
  | .p2 => 1#2
  | .hdr => 2#2
  | .body => 3#2

/-- One chain's parser (10_state.md section 3). -/
structure Parser where
  /-- `FMT` (R25) -/
  fmt : Fmt
  /-- `CHAIN_ID` (R25) -/
  chainId : Byte
  /-- the parser's `PS.RESET` of the initialisation has been done (70_reset_and_hazards.md R180) -/
  ready : Bool
  /-- `PS` (R26) -/
  ps : PState
  /-- `ACC` (R27) -/
  acc : Acc
  /-- `SCR` (R28) -/
  scr : Scr
  /-- `PROTO_ERR_CNT` (R31), a natural number in the model -/
  protoErr : Nat
deriving DecidableEq, Repr

/-- Classification of a validated frame (30_encoding.md R67). -/
inductive Kind
  | nonce
  | regack
  | unknown
deriving DecidableEq, Repr

/-- The numeric codes of R67. -/
def Kind.code : Kind → Nat
  | .nonce => 0
  | .regack => 1
  | .unknown => 2

/-- The events an operation reports (60_exceptions.md R157). -/
inductive Event
  /-- `EV_NONE`: nothing to report -/
  | none
  /-- `EV_FRAME`: a validated frame of a recognised opcode, with its kind and record (R160) -/
  | frame (kind : Kind) (record : List Byte)
  /-- `EV_CKSUM` (R158) -/
  | cksum
  /-- `EV_UNKNOWN_OPCODE`, with the frame (R159) -/
  | unknownOpcode (frame : List Byte)
  /-- `EV_CANCELLED` (R161) -/
  | cancelled
  /-- `EV_TX_FAIL`, with the count of bytes accepted (R162) -/
  | txFail (count : Nat)
deriving DecidableEq, Repr

/-- The codes of R157. -/
def Event.code : Event → Nat
  | .none => 0
  | .frame _ _ => 1
  | .cksum => 2
  | .unknownOpcode _ => 3
  | .cancelled => 4
  | .txFail _ => 5

/-- The read-out of `RB.STATUS` (40_ringbuffer.md R95). -/
inductive Status
  | empty
  | full
  | partly
deriving DecidableEq, Repr

/-- The result of an operation (30_encoding.md R72, column "results out"). -/
inductive Result
  | none
  | count (n : Nat)
  | data (bytes : List Byte)
  | frame (bytes : List Byte)
  | status (s : Status)
  | frames (l : List (Kind × List Byte))
deriving DecidableEq, Repr

/-- MODEL'S OWN: which bytes a completed operation moved into or out of which instance, so that the replies also hold the one
total order of the completed operations of each instance (20_memory.md R47). No requester sees it. Assumption log 15. -/
inductive Moved
  | nothing
  /-- a put stored these bytes -/
  | put (rb : RingId) (bytes : List Byte)
  /-- a get, or the get of a `TX.STEP`, returned these bytes -/
  | got (rb : RingId) (bytes : List Byte)
  /-- a forced put stored these bytes and discarded that many of the oldest -/
  | forced (rb : RingId) (bytes : List Byte) (discarded : Nat)
deriving DecidableEq, Repr

/-- What a requester is told when its operation completes (60_exceptions.md R168), and what the operation moved. Assumption
log 15. -/
structure Reply where
  who : Agent
  result : Result
  event : Event
  moved : Moved
deriving DecidableEq, Repr

/-- One chain (00_scope.md R9): its parser, its four rings (`none`: not created by `RB.INIT`), its streams, its agents'
run flags, and whether it was started at all. -/
structure Chain where
  parser : Parser
  nonce : Option Ring
  reg : Option Ring
  work : Option Ring
  dl : Option Ring
  /-- `RXS[c]` (10_state.md R34): received bytes the parser has not taken, the environment's -/
  rxs : List Byte
  /-- `TXS[c]` (R34) -/
  txs : List Byte
  /-- how the transport answers the sends to come: `none` accepts the whole frame, `some k` at most `k` bytes of it; when the
  list is empty every send is accepted (43_pipeline.md R132). The environment's choice. Assumption log 10. -/
  sendAnswers : List (Option Nat)
  /-- the RX agent has stopped (70_reset_and_hazards.md R183). Assumption log 17. -/
  rxStopped : Bool
  /-- the work sender has stopped (43_pipeline.md R131) -/
  workStopped : Bool
  /-- the data downloader has stopped (R131) -/
  dlStopped : Bool
  /-- the chain's transport failed to open and its startup was aborted: it has no instances and its agents never step
  (60_exceptions.md R177, 70_reset_and_hazards.md R180 step 4). Assumption log 19. -/
  aborted : Bool
deriving DecidableEq, Repr

/-- What happens next: the free choices of agents and environment (00_scope.md R3, 10_state.md R13, R34), as plain data.
Assumption log 7. -/
inductive Turn
  /-- an agent requests an operation, or a frame arrives on a chain's link -/
  | request (who : Agent) (line : Line)
  /-- the held request number `k` of a ring is re-examined (20_memory.md R52) -/
  | resume (rb : RingId) (k : Nat)
  /-- the transport has received bytes (10_state.md R34) -/
  | arrive (chain : Nat) (bytes : List Byte)
  /-- a host agent calls `ioctl`, which is no row of the opcode table (43_pipeline.md R137) -/
  | ioctl (who : Agent) (chain : Nat) (opcode addr : Byte) (payload : List Byte)
deriving DecidableEq, Repr

/-- The state of the block and of what surrounds it as far as the rules name it. -/
structure State where
  /-- the frozen parameters of R7 (10_state.md R32). Assumption log 1. -/
  params : Params
  /-- the chains; `N_CHAINS` is the length -/
  chains : List Chain
  /-- `PMON_RING` (00_scope.md R9) -/
  pmon : Option Ring
  /-- MODEL'S OWN: the agent whose request is being run. Assumption log 15. -/
  who : Agent
  /-- MODEL'S OWN: what happens next, oldest first. Assumption log 7. -/
  turns : List Turn
  /-- MODEL'S OWN: which held request goes next while a shutdown releases them. Assumption log 9. -/
  releaseOrder : List Nat
  /-- MODEL'S OWN: the replies given, newest first. Assumption log 15. -/
  replies : List Reply
deriving DecidableEq, Repr

/-- What stops the machine without a meaning from the spec: the spec has no fault (00_scope.md R11), this one is the model's
own and no rule reaches it (10_state.md R24 e). -/
inductive Fault
  /-- a get reads a byte of `BUF` that nothing has written. Raised by `RB.GET`, `TX.STEP`. Safe: the machine stops where the
  spec leaves the value unspecified (D29). -/
  | ringByteUnwritten
deriving DecidableEq, Repr

/-- Requests the spec gives no meaning (00_scope.md R11, "refused"). -/
inductive Refusal
  /-- raised by `exec` for an instruction without a meaning yet; safe -/
  | notModelled (mnemonic : String)
  /-- raised by the fetch: the line is no instruction; safe -/
  | undecodable (why : DecodeError)
  /-- raised by every operation that names a chain outside `0 .. N_CHAINS - 1` (30_encoding.md R73); safe -/
  | noSuchChain
  /-- raised by every operation that names a chain whose startup was aborted, `PS.RESET` among them, and by `RB.INIT` of one
  of its rings (60_exceptions.md R177). Assumption log 19; safe -/
  | chainAborted
  /-- raised by the initialisation for a parameter that is not of the type 00_scope.md R7 gives it; safe -/
  | badParameter
  /-- raised by ring operations on an instance `RB.INIT` has not made (40_ringbuffer.md R84); safe -/
  | noSuchInstance
  /-- raised by `RB.INIT` on an instance that exists (R83 c); safe -/
  | reInit
  /-- `BAD_SIZE`: raised by `RB.INIT` (R83 a, b); safe -/
  | badSize
  /-- `FORCE_TOO_LONG`: raised by `RB.PUT_FORCE` (R92); safe -/
  | forceTooLong
  /-- `PAYLOAD_TOO_LONG`: raised by `FC.PACK`, `FC.STAMP`, `TX.STEP`, `ioctl` (41_framecodec_pack.md R104); safe -/
  | payloadTooLong
  /-- `IMAGE_TOO_SHORT`: raised by `FC.STAMP`, `TX.STEP` (R106); safe -/
  | imageTooShort
  /-- raised by the initialisation for a frame length outside 6 to 261 (R107); safe -/
  | badFrameLength
  /-- raised by `PS.RX`, `PS.WANT`, `DSP.STEP` and wire frames on a parser before its `PS.RESET` (93 U10); safe -/
  | parserNotReset
  /-- raised by `PS.RX` with more than `WANT` bytes (42_parser.md R121); safe -/
  | overread
  /-- raised by `PS.RX` with `WANT` bytes that are not the front of a stream that has as many (20_memory.md R56). Assumption
  log 14; safe -/
  | notOnStream
deriving DecidableEq, Repr

/-- The answer of a step. -/
abbrev Answer := Host.Outcome State Fault Refusal

/-- A ring instance right after `RB.INIT` made it with a rounded size and a policy (40_ringbuffer.md R82). -/
def Ring.fresh (size : Nat) (mode : Mode) : Ring where
  size := size
  mode := mode
  buf := []
  ri := 0#15
  wi := 0#15
  rm := false
  wm := false
  shut := false
  pending := []

/-- A parser in its reset condition (10_state.md R36): no cell of `SCR` listed, so every byte of it holds `Config.scrReset`. -/
def Parser.fresh (fmt : Fmt) (chainId : Byte) : Parser where
  fmt := fmt
  chainId := chainId
  ready := true
  ps := .p1
  acc := 0#10
  scr := []
  protoErr := 0

/-- A chain after initialisation, its transport open (R36; 70_reset_and_hazards.md R180 steps 2 and 3). That the environment has
announced no answers to its sends, so that they are accepted, is a DESIGN CHOICE (assumption log 30). -/
def Chain.reset (p : Params) (k : ChainConfig) : Chain where
  parser := Parser.fresh .ack k.chainId
  nonce := some (Ring.fresh (roundSize p (ringRequest k.nonceReq p p.nonceRecLen)) k.nonceMode)
  reg := some (Ring.fresh (roundSize p (ringRequest k.regReq p p.regRecLen)) k.regMode)
  work := some (Ring.fresh (roundSize p (ringRequest k.workReq p p.workFrameLen)) .blocking)
  dl := some (Ring.fresh (roundSize p (ringRequest k.dlReq p p.dlFrameLen)) .blocking)
  rxs := []
  txs := []
  sendAnswers := []
  rxStopped := false
  workStopped := false
  dlStopped := false
  aborted := false

/-- The machine right after reset: reset and initialisation are the same thing (R179), so this is the state after the
sequence of R180 with the configuration `Config.boot`, every piece at the value of the table of 10_state.md R36; `PMON_RING`
is made with the rings of the chains (00_scope.md R9). Assumption logs 5 and 6. The lists that stand for choices not yet
made, `turns`, `releaseOrder` and each chain's `sendAnswers`, `rxs` and `txs`, are empty: DESIGN CHOICE (assumption log 30);
and so are `replies`, of requester `host 0` (log 15). -/
def State.reset : State where
  params := Config.boot.params
  chains := Config.boot.chains.map (Chain.reset Config.boot.params)
  pmon := some (Ring.fresh (roundSize Config.boot.params Config.boot.pmonReq) Config.boot.pmonMode)
  who := .host 0
  turns := []
  releaseOrder := []
  replies := []

end Sys2Proof.Machine
end

