-- ==== Sys2Proof/Machine/Flags.lean ====
section
/-! DEFINITION. The flags of a ring and the quantities derived from its cursors (10_state.md R18 to R21, R24; 40_ringbuffer.md R95), one byte of its store, and the contents as a list; one byte of `SCR`. -/

namespace Sys2Proof.Machine

/-- The byte an index of a storage holds; none where nothing has been written. -/
def Mem.read : Mem → Nat → Option Byte
  | [], _ => none
  | (a, b) :: m, i => if a = i then some b else Mem.read m i

/-- The byte an index of `SCR` holds (10_state.md R28): the value at reset until something else is written. -/
def Scr.read (r : Scr) (i : Nat) : Byte := (Mem.read r i).getD Config.scrReset

/-- The extended read cursor `ER = RM x SIZE + RI` (R19). -/
def Ring.er (r : Ring) : Nat := r.rm.toNat * r.size + r.ri.toNat

/-- The extended write cursor `EW = WM x SIZE + WI` (R19). -/
def Ring.ew (r : Ring) : Nat := r.wm.toNat * r.size + r.wi.toNat

/-- `DATA_LEN = (EW - ER) mod (2 x SIZE)` (R19). -/
def Ring.dataLen (r : Ring) : Nat := (r.ew + 2 * r.size - r.er) % (2 * r.size)

/-- `SPACE_LEN = SIZE - DATA_LEN` (R20). -/
def Ring.spaceLen (r : Ring) : Nat := r.size - r.dataLen

/-- The status read-out (R95): `EMPTY` and `FULL` by cursors and mirrors, `PARTIAL` otherwise. -/
def Ring.status (r : Ring) : Status :=
  if r.ri = r.wi then (if r.rm = r.wm then .empty else .full) else .partly

/-- The index of the `i`-th oldest byte (R21). -/
def Ring.slot (r : Ring) (i : Nat) : Nat := (r.ri.toNat + i) % r.size

/-- `CONTENT`, oldest first (R21); `none` marks a byte nothing has written. -/
def Ring.content (r : Ring) : List (Option Byte) :=
  (List.range r.dataLen).map fun i => Mem.read r.buf (r.slot i)

/-- The condition of a held request (20_memory.md R52): room for all the bytes of a put, as many bytes as a get asks for. The
length a `TX.STEP` waits for is given. -/
def Held.met (frameLen : Which → Nat) (r : Ring) : Held → Bool
  | .put _ d => decide (d.length ≤ r.spaceLen)
  | .get _ n => decide (n ≤ r.dataLen)
  | .txGet _ w => decide (frameLen w ≤ r.dataLen)

/-- A held request is enabled: its condition holds, or the instance is shut down (R52, 40_ringbuffer.md R96). -/
def Held.enabled (frameLen : Which → Nat) (r : Ring) (h : Held) : Bool := h.met frameLen r || r.shut

end Sys2Proof.Machine
end

