-- ==== Sys2Proof/Machine/Operands.lean ====
section
/-! DEFINITION. The operand forms of 30_encoding.md R73: naming a ring instance, naming a chain, and what a name that does not resolve is refused with. -/

namespace Sys2Proof.Machine

/-- The frame length parameter of a TX agent (43_pipeline.md R131). -/
def frameLen (p : Params) : Which → Nat
  | .work => p.workFrameLen
  | .dl => p.dlFrameLen

/-- The outbound ring of a TX agent (R131). -/
def outRing (w : Which) (chain : Nat) : RingId :=
  match w with
  | .work => .work chain
  | .dl => .dl chain

/-- A ring of a chain, by its kind; `PMON_RING` belongs to no chain. -/
def Chain.ring? (ch : Chain) : RingId → Option Ring
  | .nonce _ => ch.nonce
  | .reg _ => ch.reg
  | .work _ => ch.work
  | .dl _ => ch.dl
  | .pmon => none

/-- A chain with one of its rings replaced. -/
def Chain.setRing (ch : Chain) (rb : RingId) (r : Ring) : Chain :=
  match rb with
  | .nonce _ => { ch with nonce := some r }
  | .reg _ => { ch with reg := some r }
  | .work _ => { ch with work := some r }
  | .dl _ => { ch with dl := some r }
  | .pmon => ch

/-- The chain an instance name belongs to. -/
def chainOf : RingId → Option Nat
  | .nonce c => some c
  | .reg c => some c
  | .work c => some c
  | .dl c => some c
  | .pmon => none

/-- The chain an agent belongs to; a host agent belongs to none. -/
def Agent.chain? : Agent → Option Nat
  | .host _ => none
  | .rx c => some c
  | .tx c _ => some c

/-- A chain with one agent's run flag set: the agent has stopped. -/
def Chain.stopped (ch : Chain) : Agent → Chain
  | .host _ => ch
  | .rx _ => { ch with rxStopped := true }
  | .tx _ .work => { ch with workStopped := true }
  | .tx _ .dl => { ch with dlStopped := true }

/-- The state with chain `c` replaced. -/
def State.setChain (s : State) (c : Nat) (ch : Chain) : State :=
  { s with chains := s.chains.set c ch }

/-- The ring instance a name denotes, if it exists (40_ringbuffer.md R84). -/
def State.ring? (s : State) (rb : RingId) : Option Ring :=
  match chainOf rb with
  | none => s.pmon
  | some c => s.chains[c]?.bind fun ch => ch.ring? rb

/-- The state with the instance of a name replaced (or made). -/
def State.setRing (s : State) (rb : RingId) (r : Ring) : State :=
  match chainOf rb with
  | none => { s with pmon := some r }
  | some c =>
    match s.chains[c]? with
    | none => s
    | some ch => s.setChain c (ch.setRing rb r)

/-- The name denotes a possible instance: `PMON_RING`, or a ring of one of the chains `0 .. N_CHAINS - 1`. -/
def State.named (s : State) (rb : RingId) : Bool :=
  match chainOf rb with
  | none => true
  | some c => decide (c < s.chains.length)

/-- The name denotes a ring of a chain whose startup was aborted (60_exceptions.md R177). -/
def State.abortedAt (s : State) (rb : RingId) : Bool :=
  match chainOf rb with
  | none => false
  | some c => (s.chains[c]?.map Chain.aborted).getD false

/-- Run on an existing instance, or refuse (40_ringbuffer.md R84). -/
def State.onRing (s : State) (rb : RingId) (f : Ring → Answer) : Answer :=
  match s.ring? rb with
  | some r => f r
  | none => if s.named rb then .refused .noSuchInstance else .refused .noSuchChain

/-- Run on an existing chain, or refuse (30_encoding.md R73); a chain whose startup was aborted takes no operation
(60_exceptions.md R177). -/
def State.onChain (s : State) (c : Nat) (f : Chain → Answer) : Answer :=
  match s.chains[c]? with
  | some ch => if ch.aborted then .refused .chainAborted else f ch
  | none => .refused .noSuchChain

/-- Run on an existing chain whose parser has had its start-up `PS.RESET`, or refuse (93_implementation_defined.md U10). -/
def State.onParser (s : State) (c : Nat) (f : Chain → Answer) : Answer :=
  s.onChain c fun ch => if ch.parser.ready then f ch else .refused .parserNotReset

/-- The policies of the instances that exist: what decoding selectors 0x1 and 0x2 depends on (30_encoding.md R72). -/
def State.ctx (s : State) : Ctx where
  opmap := s.params.opmap
  modeOf rb := (s.ring? rb).map Ring.mode

end Sys2Proof.Machine
end

