-- ==== Sys2Proof/Machine/Ops.lean ====
section
/-! DEFINITION. The named operations the meanings share: byte storage (`MemRead`, `MemWrite`), copy-in and copy-out (20_memory.md R45, R46), reporting results and events (60_exceptions.md R168), holding and cancelling requests, and the transport's send. -/

namespace Sys2Proof.Machine

/-- Go on with the next state, or stop where the first part stopped. -/
def Answer.andThen (x : Answer) (f : State → Answer) : Answer :=
  match x with
  | .next s => f s
  | .fault e => .fault e
  | .refused e => .refused e

/-! ## Byte storage -/

/-- Store one byte, keeping the canonical form. -/
def Mem.write : Mem → Nat → Byte → Mem
  | [], i, v => [(i, v)]
  | (a, b) :: m, i, v =>
    if i < a then (i, v) :: (a, b) :: m
    else if i = a then (i, v) :: m
    else (a, b) :: Mem.write m i v

/-- `MemWrite`: store a byte list from an index on (00_scope.md section 5). -/
def Mem.writeList (m : Mem) (i : Nat) : List Byte → Mem
  | [] => m
  | b :: bs => Mem.writeList (Mem.write m i b) (i + 1) bs

/-- `MemRead`: the `n` bytes from an index on (00_scope.md section 5); none if one of them has not been written. -/
def Mem.readList (m : Mem) (i : Nat) : Nat → Option (List Byte)
  | 0 => some []
  | n + 1 =>
    match Mem.read m i, Mem.readList m (i + 1) n with
    | some b, some bs => some (b :: bs)
    | _, _ => none

/-! ## The register file `SCR` -/

/-- `SCR[i] <- v` (00_scope.md section 5), keeping the canonical form: the value an index without a cell holds needs no cell. -/
def Scr.write (r : Scr) (i : Nat) (v : Byte) : Scr :=
  if v = Config.scrReset then r.filter fun e => decide (e.1 ≠ i) else Mem.write r i v

/-- `SCR[i ..] <- bytes`. No operation writes past index 261: a header has at most 7 bytes and a payload at most 255 (10_state.md
R27). -/
def Scr.writeList (r : Scr) (i : Nat) : List Byte → Scr
  | [] => r
  | b :: bs => Scr.writeList (Scr.write r i b) (i + 1) bs

/-- The `n` bytes of `SCR` from an index on. -/
def Scr.readList (r : Scr) (i : Nat) : Nat → List Byte
  | 0 => []
  | n + 1 => Scr.read r i :: Scr.readList r (i + 1) n

/-! ## Copy-in and copy-out -/

/-- Copy-in `RbStore` (20_memory.md R45), for at most `SIZE` bytes; it does not check space. -/
def rbStore (r : Ring) (d : List Byte) : Ring :=
  let k := d.length
  let wi := r.wi.toNat
  if k = 0 then r
  else if r.size - wi > k then
    { r with buf := Mem.writeList r.buf wi d, wi := BitVec.ofNat 15 (wi + k) }
  else
    let a := r.size - wi
    { r with
      buf := Mem.writeList (Mem.writeList r.buf wi (d.take a)) 0 (d.drop a)
      wm := !r.wm
      wi := BitVec.ofNat 15 (k - a) }

/-- Copy-out `RbLoad` (20_memory.md R46), for at most `DATA_LEN` bytes: the bytes and the ring after; none where a byte has
not been written. -/
def rbLoad (r : Ring) (k : Nat) : Option (List Byte × Ring) :=
  let ri := r.ri.toNat
  if k = 0 then some ([], r)
  else if r.size - ri > k then
    match Mem.readList r.buf ri k with
    | some out => some (out, { r with ri := BitVec.ofNat 15 (ri + k) })
    | none => none
  else
    let a := r.size - ri
    match Mem.readList r.buf ri a, Mem.readList r.buf 0 (k - a) with
    | some x, some y => some (x ++ y, { r with rm := !r.rm, ri := BitVec.ofNat 15 (k - a) })
    | _, _ => none

/-! ## Results and events -/

/-- Taking an event, and giving a result: an event is a value returned by the operation that raised it; there is no vector,
no saved context and no mode change (60_exceptions.md R168), and so nothing to return from (R169). What the operation moved
is noted beside it (assumption log 15). -/
def State.reply (s : State) (who : Agent) (result : Result) (event : Event) (moved : Moved := .nothing) : State :=
  { s with replies := ⟨who, result, event, moved⟩ :: s.replies }

/-- The agent issues no further step (43_pipeline.md R131, 70_reset_and_hazards.md R183); a host agent is outside the
block. Assumption log 17. -/
def State.stopAgent (s : State) (who : Agent) : State :=
  match who.chain? with
  | none => s
  | some c =>
    match s.chains[c]? with
    | some ch => s.setChain c (ch.stopped who)
    | none => s

/-- `EV_CANCELLED` (60_exceptions.md R161): the request completes with the given empty result, nothing moved, and an agent
of the block that receives it stops. -/
def State.cancel (s : State) (who : Agent) (result : Result) : State :=
  (s.stopAgent who).reply who result .cancelled

/-- A blocking request that cannot complete yet goes into `PENDING` with its arguments (10_state.md R23); nothing else
changes (20_memory.md R52). -/
def State.hold (s : State) (rb : RingId) (r : Ring) (h : Held) : State :=
  s.setRing rb { r with pending := r.pending ++ [h] }

/-- The chain has been shut down: `RB.SHUTDOWN` has been done on each of its rings (70_reset_and_hazards.md R183). Assumption
log 17. -/
def Chain.shutDown (ch : Chain) : Bool :=
  [ch.nonce, ch.reg, ch.work, ch.dl].all fun
    | some r => r.shut
    | none => false

/-- The RX agent issues no further step: it has received `EV_CANCELLED`, or its chain has been shut down
(70_reset_and_hazards.md R183). -/
def Chain.rxHalted (ch : Chain) : Bool := ch.rxStopped || ch.shutDown

/-- A TX agent issues no further step: it has received `EV_CANCELLED` (43_pipeline.md R131), or its chain has been shut down
(70_reset_and_hazards.md R183). -/
def Chain.txHalted (ch : Chain) : Which → Bool
  | .work => ch.workStopped || ch.shutDown
  | .dl => ch.dlStopped || ch.shutDown

/-- One of a chain's rings holds a request of the agent: the agent waits and takes no step (00_scope.md R11). -/
def Chain.holds (ch : Chain) (who : Agent) : Bool :=
  [ch.nonce, ch.reg, ch.work, ch.dl].any fun
    | some r => r.pending.any fun h => decide (h.who = who)
    | none => false

/-- The RX agent's in-flight record (10_state.md R33): the argument of its held put. -/
def Chain.rxInFlight (ch : Chain) (c : Nat) : Option (List Byte) :=
  [ch.nonce, ch.reg].findSome? fun
    | some r => r.pending.findSome? fun
      | .put who d => if who = .rx c then some d else none
      | _ => none
    | none => none

/-! ## Put and get on an instance -/

/-- Store accepted bytes and tell the requester how many. -/
def State.stored (s : State) (rb : RingId) (r : Ring) (who : Agent) (d : List Byte) : State :=
  (s.setRing rb (rbStore r d)).reply who (.count d.length) .none (.put rb d)

/-- Take the `k` oldest bytes out and go on with them; a byte that nothing has written stops the machine. -/
def State.taken (s : State) (rb : RingId) (r : Ring) (k : Nat) (f : List Byte → State → Answer) :
    Answer :=
  match rbLoad r k with
  | some (out, r') => f out (s.setRing rb r')
  | none => .fault .ringByteUnwritten

/-- A put under the polling policy (40_ringbuffer.md R85). -/
def pollingPut (who : Agent) (rb : RingId) (data : List Byte) (s : State) : Answer :=
  s.onRing rb fun r => .next (s.stored rb r who (data.take (min data.length r.spaceLen)))

/-- A put under the blocking policy (40_ringbuffer.md R86, R97). -/
def blockingPut (who : Agent) (rb : RingId) (data : List Byte) (s : State) : Answer :=
  s.onRing rb fun r =>
    if data.length ≤ r.spaceLen then .next (s.stored rb r who data)
    else if r.shut then .next (s.cancel who (.count 0))
    else .next (s.hold rb r (.put who data))

/-- A put under the policy of the instance (40_ringbuffer.md R89). -/
def put (who : Agent) (rb : RingId) (data : List Byte) (s : State) : Answer :=
  s.onRing rb fun r =>
    match r.mode with
    | .polling => pollingPut who rb data s
    | .blocking => blockingPut who rb data s

/-- A get under the polling policy (40_ringbuffer.md R87). -/
def pollingGet (who : Agent) (rb : RingId) (n : Nat) (s : State) : Answer :=
  s.onRing rb fun r =>
    s.taken rb r (min n r.dataLen) fun out s' => .next (s'.reply who (.data out) .none (.got rb out))

/-- A get under the blocking policy (40_ringbuffer.md R88, R97). -/
def blockingGet (who : Agent) (rb : RingId) (n : Nat) (s : State) : Answer :=
  s.onRing rb fun r =>
    if n ≤ r.dataLen then
      s.taken rb r n fun out s' => .next (s'.reply who (.data out) .none (.got rb out))
    else if r.shut then .next (s.cancel who (.data []))
    else .next (s.hold rb r (.get who n))

/-- A get under the policy of the instance (40_ringbuffer.md R89). -/
def get (who : Agent) (rb : RingId) (n : Nat) (s : State) : Answer :=
  s.onRing rb fun r =>
    match r.mode with
    | .polling => pollingGet who rb n s
    | .blocking => blockingGet who rb n s

/-! ## The transport -/

/-- How many bytes of a frame the transport accepts under an answer (43_pipeline.md R132). -/
def accepted (answer : Option Nat) (frame : List Byte) : Nat :=
  match answer with
  | none => frame.length
  | some k => min k frame.length

/-- The transport's send of one frame on a chain: what it accepts is appended to `TXS`; if that is not the whole frame,
`EV_TX_FAIL` tells the caller the count, and the frame is lost (43_pipeline.md R132, 60_exceptions.md R162). What the caller
took out of a ring for it is noted with the reply. Assumption log 10. -/
def send (who : Agent) (c : Nat) (frame : List Byte) (moved : Moved) (s : State) : Answer :=
  s.onChain c fun ch =>
    let n := accepted (ch.sendAnswers.headD none) frame
    let s' := s.setChain c
      { ch with txs := ch.txs ++ frame.take n, sendAnswers := ch.sendAnswers.tail }
    .next (s'.reply who .none (if n < frame.length then .txFail n else .none) moved)

/-- The transport has received bytes (10_state.md R34). -/
def arrive (c : Nat) (bytes : List Byte) (s : State) : Answer :=
  s.onChain c fun ch => .next (s.setChain c { ch with rxs := ch.rxs ++ bytes })

end Sys2Proof.Machine
end

