-- ==== Sys2Proof/Machine/Pack.lean ====
section
/-! DEFINITION. The checksum functions, the pack side of the frame codec (41_framecodec_pack.md R100 to R107), frame validity (R108), and the meanings of `FC.PACK` and `FC.STAMP`. -/

namespace Sys2Proof.Machine

/-! ## Checksums -/

/-- `sum8`: the sum of all bytes modulo 256 (R102). -/
def sum8 : List Byte → Byte
  | [] => 0#8
  | b :: l => b + sum8 l

/-- `xor8`: the exclusive-or of all bytes (R102). -/
def xor8 : List Byte → Byte
  | [] => 0#8
  | b :: l => b ^^^ xor8 l

/-- The parameter `CK` (R100). -/
def CkSel.eval : CkSel → List Byte → Byte
  | .sum8 => sum8
  | .xor8 => xor8
  | .original n => Config.ck n

/-- The property `CK_BITFLIP` of a checksum function (R101): two lists of equal length that differ in exactly one bit have
different checksums. A claim names it as a hypothesis; the machine assumes nothing of `CK`. -/
def CkBitflip (ck : List Byte → Byte) : Prop :=
  ∀ (l : List Byte) (i : Nat) (j : Fin 8), i < l.length →
    ck (l.set i (l.getD i 0#8 ^^^ (1#8 <<< j.val))) ≠ ck l

/-! ## Frames -/

/-- A byte list with the byte at an offset replaced. -/
def withByte (l : List Byte) (off : Nat) (b : Byte) : List Byte := l.set off b

/-- The frame whose checksum field is zeroed: what `CK` is applied to (30_encoding.md R64). -/
def zeroed (fmt : Fmt) (f : List Byte) : List Byte := withByte f fmt.ckOff 0#8

/-- `cmd_frame(op, addr, p)` (R76): the frame `FC.PACK` returns. -/
def cmdFrame (ck : CkSel) (op addr : Byte) (payload : List Byte) : List Byte :=
  let z := cmdBytes op addr 0#8 payload
  withByte z Fmt.cmd.ckOff (CkSel.eval ck z)

/-- `ack_frame(op, addr, ack, p)` (R76): a notation for inbound frames; the block never builds one. -/
def ackFrame (ck : CkSel) (op addr ack : Byte) (payload : List Byte) : List Byte :=
  let z := ackBytes op addr ack 0#8 payload
  withByte z Fmt.ack.ckOff (CkSel.eval ck z)

/-- `FrameValid(fmt, f)` (R108). -/
abbrev FrameValid (ck : CkSel) (fmt : Fmt) (f : List Byte) : Prop :=
  fmt.headerLen ≤ f.length ∧
  f.getD 0 0#8 = fmt.p1 ∧ f.getD 1 0#8 = fmt.p2 ∧
  f.length = fmt.headerLen + (f.getD fmt.lenOff 0#8).toNat ∧
  f.getD fmt.ckOff 0#8 = CkSel.eval ck (zeroed fmt f)

/-- `FC.PACK` as a function of its operands (R103), with its refusal (R104). -/
def pack (ck : CkSel) (op addr : Byte) (payload : List Byte) : Except Refusal (List Byte) :=
  if payload.length > Config.caps.lenFieldMax then .error .payloadTooLong
  else .ok (cmdFrame ck op addr payload)

/-- `FC.STAMP` as a function of its operand (R106), with its refusals. -/
def stamp (ck : CkSel) (image : List Byte) : Except Refusal (List Byte) :=
  match image with
  | _ :: _ :: op :: addr :: _ :: _ :: payload => pack ck op addr payload
  | _ => .error .imageTooShort

/-! ## Meanings -/

/-- `FC.PACK` (R103, R104). -/
def execFcPack (opcode addr : Byte) (payload : List Byte) (s : State) : Answer :=
  match pack s.params.ck opcode addr payload with
  | .ok f => .next (s.reply s.who (.frame f) .none)
  | .error e => .refused e

/-- `FC.STAMP` (R106). -/
def execFcStamp (image : List Byte) (s : State) : Answer :=
  match stamp s.params.ck image with
  | .ok f => .next (s.reply s.who (.frame f) .none)
  | .error e => .refused e

end Sys2Proof.Machine
end

