-- ==== Sys2Proof/Machine/Parse.lean ====
section
/-! DEFINITION. The stream parser (42_parser.md): `WANT`, the four transitions, checksum verification, classification, and the meanings of `PS.RX`, `PS.RESET`, `PS.WANT` and `FC.PARSE`. -/

namespace Sys2Proof.Machine

/-- `PLEN` (10_state.md R29): the length byte of the header, `SCR[LEN_OFF]`, as a number. -/
def Parser.plen (p : Parser) : Nat := (Scr.read p.scr p.fmt.lenOff).toNat

/-- `WANT` (10_state.md R29). -/
def Parser.want (p : Parser) : Nat :=
  match p.ps with
  | .p1 => 1
  | .p2 => 1
  | .hdr => p.fmt.headerLen - 2
  | .body => p.plen

/-- The frame under assembly, `SCR[0 .. ACC - 1]` (10_state.md R28). -/
def Parser.frame (p : Parser) : List Byte := Scr.readList p.scr 0 p.acc.toNat

/-- `PROTO_ERR_CNT` as hardware shows it: `CNT_W` bits, saturating (10_state.md R31). -/
def Parser.protoErrShown (p : Parser) (params : Params) : Nat := min p.protoErr (2 ^ params.cntW - 1)

/-- The reset condition: `PS <- S_P1`, `ACC <- 0` (42_parser.md R118; also the end of every frame and of every mismatch). -/
def Parser.toReset (p : Parser) : Parser := { p with ps := .p1, acc := 0#10 }

/-- Append a read unit at an index of `SCR` and set `ACC` (42_parser.md R110, R111, R113, R116). -/
def Parser.accumulate (p : Parser) (at_ : Nat) (bytes : List Byte) (acc : Nat) : Parser :=
  { p with scr := Scr.writeList p.scr at_ bytes, acc := BitVec.ofNat 10 acc }

/-- `Classify(F)` (42_parser.md R115): by the opcode byte alone. -/
def classify (params : Params) (p : Parser) (f : List Byte) : Parser × Event :=
  let op := f.getD p.fmt.opOff 0#8
  if op = params.opmap.returnNonce then (p.toReset, .frame .nonce (f ++ [p.chainId]))
  else if op ∈ params.opmap.recognized then (p.toReset, .frame .regack (f ++ [p.chainId]))
  else (p.toReset, .unknownOpcode f)

/-- `Finish()` (42_parser.md R114): verify the checksum of the candidate `SCR[0 .. ACC - 1]`. -/
def finish (params : Params) (p : Parser) : Parser × Event :=
  let f := p.frame
  if CkSel.eval params.ck (zeroed p.fmt f) = f.getD p.fmt.ckOff 0#8 then classify params p f
  else ({ p.toReset with protoErr := p.protoErr + 1 }, .cksum)

/-- One transition on a read unit of `WANT` bytes (42_parser.md R109 to R116). -/
def parserStep (params : Params) (p : Parser) (bytes : List Byte) : Parser × Event :=
  match p.ps with
  | .p1 =>
    if bytes.head? = some p.fmt.p1 then ({ p.accumulate 0 bytes 1 with ps := .p2 }, .none)
    else (p, .none)
  | .p2 =>
    if bytes.head? = some p.fmt.p2 then ({ p.accumulate 1 bytes 2 with ps := .hdr }, .none)
    else (p.toReset, .none)
  | .hdr =>
    let q := p.accumulate 2 bytes p.fmt.headerLen
    if q.plen = 0 then finish params q else ({ q with ps := .body }, .none)
  | .body => finish params (p.accumulate p.fmt.headerLen bytes (p.fmt.headerLen + bytes.length))

/-- What `FC.PARSE` keeps of an event (42_parser.md R120). -/
def parsedOf : Event → List (Kind × List Byte)
  | .frame k record => [(k, record.dropLast)]
  | .unknownOpcode f => [(.unknown, f)]
  | _ => []

/-- The loop of `FC.PARSE` (R120): every turn takes one read unit. -/
def parseLoop (params : Params) : Nat → Parser → List Byte → List (Kind × List Byte)
  | 0, _, _ => []
  | fuel + 1, p, bytes =>
    if bytes.length < p.want then []
    else
      let out := parserStep params p (bytes.take p.want)
      parsedOf out.2 ++ parseLoop params fuel out.1 (bytes.drop p.want)

/-- `FC.PARSE` as a function (R120): a fresh parser run over the whole buffer. Every read unit of a parser from its reset
state has at least one byte, so the fuel never runs out. -/
def parseAll (params : Params) (fmt : Fmt) (bytes : List Byte) : List (Kind × List Byte) :=
  parseLoop params (bytes.length + 1) (Parser.fresh fmt 0#8) bytes

/-! ## Meanings -/

/-- `PS.RX` (42_parser.md R109, R117, R121). The read unit is what the transport returned: it stands at the front of
`RXS` (20_memory.md R56), and while the stream has fewer than `WANT` bytes there is no step (R117). Assumption log 14. It is a request like any other on a chain that has been shut
down: assumption log 31. -/
def execPsRx (chain : Nat) (bytes : List Byte) (s : State) : Answer :=
  s.onParser chain fun ch =>
    let w := ch.parser.want
    if w < bytes.length then .refused .overread
    else if bytes.length < w ∨ ch.rxs.length < w then .next (s.reply s.who .none .none)
    else if bytes.isPrefixOf ch.rxs then
      let out := parserStep s.params ch.parser bytes
      .next ((s.setChain chain { ch with parser := out.1, rxs := ch.rxs.drop bytes.length }).reply
        s.who .none out.2)
    else .refused .notOnStream

/-- `PS.RESET` (42_parser.md R118). -/
def execPsReset (chain : Nat) (s : State) : Answer :=
  s.onChain chain fun ch =>
    .next ((s.setChain chain { ch with parser := { ch.parser.toReset with ready := true } }).reply
      s.who .none .none)

/-- `PS.WANT` (42_parser.md R119). -/
def execPsWant (chain : Nat) (s : State) : Answer :=
  s.onParser chain fun ch => .next (s.reply s.who (.count ch.parser.want) .none)

/-- `FC.PARSE` (42_parser.md R120). -/
def execFcParse (fmt : Fmt) (bytes : List Byte) (s : State) : Answer :=
  .next (s.reply s.who (.frames (parseAll s.params fmt bytes)) .none)

end Sys2Proof.Machine
end

