-- ==== Sys2Proof/Machine/Pipeline.lean ====
section
/-! DEFINITION. The pipeline of one chain (43_pipeline.md): the RX agent's step and routing, the TX agents' step, `ioctl`, the expansions of the middleware operations, and the meanings of `DSP.STEP` and `TX.STEP`. -/

namespace Sys2Proof.Machine

/-! ## The RX agent -/

/-- `Route(c, ev)` (R128): only an emitted frame is put, into the ring of its kind, under that ring's policy; the RX agent
ignores the count (R129). -/
def route (c : Nat) (ev : Event) (s : State) : Answer :=
  match ev with
  | .frame .nonce record => put (.rx c) (.nonce c) record s
  | .frame .regack record => put (.rx c) (.reg c) record s
  | _ => .next s

/-- One iteration of the RX agent (R127). An RX agent that is halted, or whose put is still held, takes no step (R128,
70_reset_and_hazards.md R183; assumption logs 17 and 18). -/
def dsp (c : Nat) (s : State) : Answer :=
  s.onParser c fun ch =>
    if ch.rxHalted || ch.holds (.rx c) then .next s
    else
      let n := ch.parser.want
      if ch.rxs.length < n then .next s
      else
        let out := parserStep s.params ch.parser (ch.rxs.take n)
        route c out.2
          ((s.setChain c { ch with parser := out.1, rxs := ch.rxs.drop n }).reply (.rx c) .none out.2)

/-- The RX agent's steps, one after another. -/
def dspTimes (c : Nat) : Nat → State → Answer
  | 0, s => .next s
  | k + 1, s => (dsp c s).andThen (dspTimes c k)

/-- Bytes arrive on a chain's link and the RX agent takes steps until it waits: for bytes, or with a held put. Every step
but one from a parser that meets its invariant takes a byte, so one step more than there are bytes is enough.
Assumption log 11. -/
def receive (c : Nat) (bytes : List Byte) (s : State) : Answer :=
  (arrive c bytes s).andThen fun s' =>
    s'.onChain c fun ch => dspTimes c (ch.rxs.length + 1) s'

/-! ## The TX agents -/

/-- One iteration of a TX agent that is not held (R131): a blocking get of one frame image whatever the ring's policy, the
stamp, the send. -/
def txTake (c : Nat) (w : Which) (s : State) : Answer :=
  let rb := outRing w c
  let n := frameLen s.params w
  s.onRing rb fun r =>
    if n ≤ r.dataLen then
      s.taken rb r n fun image s' =>
        match stamp s.params.ck image with
        | .error e => .refused e
        | .ok frame => send (.tx c w) c frame (.got rb image) s'
    else if r.shut then .next (s.cancel (.tx c w) .none)
    else .next (s.hold rb r (.txGet c w))

/-! ## Middleware -/

/-- `ioctl` (R137): pack and send, with no ring in between. Assumption log 26. -/
def ioctl (who : Agent) (c : Nat) (opcode addr : Byte) (payload : List Byte) (s : State) : Answer :=
  s.onChain c fun _ =>
    match pack s.params.ck opcode addr payload with
    | .error e => .refused e
    | .ok frame => send who c frame .nothing s

/-- `send_work(bytes)` on a chain (R79, R133). -/
def sendWork (c : Nat) (bytes : List Byte) : Line := .op 0x1#4 [.ring (.work c), .bytes bytes]

/-- The matching enqueue on the download ring (R133). -/
def sendDownload (c : Nat) (bytes : List Byte) : Line := .op 0x1#4 [.ring (.dl c), .bytes bytes]

/-- `recv_work(buf, n)` on a chain (R79, R134). -/
def recvWork (c n : Nat) : Line := .op 0x2#4 [.ring (.nonce c), .nat n]

/-- `recv_regdata(buf, n)` on a chain (R79, R135). -/
def recvRegdata (c n : Nat) : Line := .op 0x2#4 [.ring (.reg c), .nat n]

/-- `recv_pmonitor(buf, n)` (R79, R136). -/
def recvPmonitor (n : Nat) : Line := .op 0x2#4 [.ring .pmon, .nat n]

/-- Shutting a chain down (70_reset_and_hazards.md R183): `RB.SHUTDOWN` on each of the chain's four rings. The rule names no
order among them; the one written here is a DESIGN CHOICE (assumption log 28), and a statement says that in any order the
agents end halted. An agent stops where it receives `EV_CANCELLED`, or once all four are shut down (assumption log 17). R183 calls
the bytes still in the rings and a partly assembled frame discarded and promises nothing about them, while 40_ringbuffer.md R96
leaves the bytes of each instance where they are. That nothing is erased, so that a later `RB.GET` still returns those bytes and a
later `PS.RX` can still complete that frame, is a DESIGN CHOICE (assumption log 31). -/
def shutdownChain (c : Nat) : List Line :=
  [.op 0x7#4 [.ring (.work c)], .op 0x7#4 [.ring (.dl c)], .op 0x7#4 [.ring (.nonce c)], .op 0x7#4 [.ring (.reg c)]]

/-- `parse_frame(bytes)` (R77, R79). -/
def parseFrame (fmt : Fmt) (bytes : List Byte) : Line := .op 0xD#4 [.fmt fmt, .bytes bytes]

/-! ## Meanings -/

/-- `DSP.STEP` (R127 to R129). -/
def execDspStep (chain : Nat) (s : State) : Answer := dsp chain s

/-- `TX.STEP` (R131, R132). A TX agent that is halted, or whose get is still held, takes no step (assumption logs 17
and 18). -/
def execTxStep (chain : Nat) (which : Which) (s : State) : Answer :=
  s.onChain chain fun ch =>
    if ch.txHalted which || ch.holds (.tx chain which) then .next s
    else txTake chain which s

end Sys2Proof.Machine
end

