-- ==== Sys2Proof/Machine/Rings.lean ====
section
/-! DEFINITION. The ring buffer operations (40_ringbuffer.md): the release of held requests, and the meanings of the RB family. -/

namespace Sys2Proof.Machine

/-! ## Held requests -/

/-- A held request's own rule, run again (40_ringbuffer.md R86, R88, R96; 43_pipeline.md R131). -/
def rerun (rb : RingId) (h : Held) (s : State) : Answer :=
  match h with
  | .put who d => blockingPut who rb d s
  | .get who n => blockingGet who rb n s
  | .txGet c w => txTake c w s

/-- The held request number `k` of an instance is re-examined against the present state: if it is enabled it leaves
`PENDING` and completes; otherwise, or if there is none, nothing changes (20_memory.md R52, 60_exceptions.md R167). -/
def resume (rb : RingId) (k : Nat) (s : State) : Answer :=
  match s.ring? rb with
  | none => .next s
  | some r =>
    match r.pending[k]? with
    | none => .next s
    | some h =>
      if h.enabled (frameLen s.params) r then
        rerun rb h (s.setRing rb { r with pending := r.pending.eraseIdx k })
      else .next s

/-- Release held requests of an instance that is shut down, one after another, in the order the environment chooses
(40_ringbuffer.md R96; 60_exceptions.md R166). Assumption log 9. -/
def releaseHeld (rb : RingId) : Nat → State → Answer
  | 0, s => .next s
  | n + 1, s =>
    match s.ring? rb with
    | none => .next s
    | some r =>
      (resume rb (s.releaseOrder.headD 0 % r.pending.length)
        { s with releaseOrder := s.releaseOrder.tail }).andThen (releaseHeld rb n)

/-! ## Meanings -/

/-- `RB.INIT` (R82, R83). Which refusal is named where several apply is a DESIGN CHOICE (assumption log 22). -/
def execRbInit (rb : RingId) (sizeReq : Nat) (mode : Mode) (s : State) : Answer :=
  let size := roundSize s.params sizeReq
  if s.named rb = false then .refused .noSuchChain
  else if s.abortedAt rb then .refused .chainAborted
  else if (s.ring? rb).isSome then .refused .reInit
  else if BadSize size then .refused .badSize
  else .next ((s.setRing rb (Ring.fresh size mode)).reply s.who .none .none)

/-- `RB.PUT`, the row of a polling instance (R85). The instance's policy decides, not the request (R89). -/
def execRbPutPolling (rb : RingId) (data : List Byte) (s : State) : Answer := put s.who rb data s

/-- `RB.PUT`, the row of a blocking instance (R86). The instance's policy decides, not the request (R89). -/
def execRbPutBlocking (rb : RingId) (data : List Byte) (s : State) : Answer := put s.who rb data s

/-- `RB.GET`, the row of a polling instance (R87). The instance's policy decides, not the request (R89). -/
def execRbGetPolling (rb : RingId) (n : Nat) (s : State) : Answer := get s.who rb n s

/-- `RB.GET`, the row of a blocking instance (R88). The instance's policy decides, not the request (R89). -/
def execRbGetBlocking (rb : RingId) (n : Nat) (s : State) : Answer := get s.who rb n s

/-- The ring after a forced put (R91): on overflow the read cursor jumps to the write cursor and the ring is full. -/
def forceInto (r : Ring) (data : List Byte) : Ring :=
  let r' := rbStore r data
  if r.spaceLen < data.length then { r' with ri := r'.wi, rm := !r'.wm } else r'

/-- `RB.PUT_FORCE` (R91, R92). -/
def execRbPutForce (rb : RingId) (data : List Byte) (s : State) : Answer :=
  s.onRing rb fun r =>
    if r.size < data.length then .refused .forceTooLong
    else .next ((s.setRing rb (forceInto r data)).reply s.who (.count data.length) .none
      (.forced rb data (data.length - r.spaceLen)))

/-- `RB.DATA_LEN` (R93). -/
def execRbDataLen (rb : RingId) (s : State) : Answer :=
  s.onRing rb fun r => .next (s.reply s.who (.count r.dataLen) .none)

/-- `RB.SPACE_LEN` (R94). -/
def execRbSpaceLen (rb : RingId) (s : State) : Answer :=
  s.onRing rb fun r => .next (s.reply s.who (.count r.spaceLen) .none)

/-- `RB.STATUS` (R95). -/
def execRbStatus (rb : RingId) (s : State) : Answer :=
  s.onRing rb fun r => .next (s.reply s.who (.status r.status) .none)

/-- `RB.SHUTDOWN` (R96, R97): set `SHUT`, then re-examine every held request. Cursors and `BUF` stay as R96 says, also where it is
the last of a chain's four rings: what that means for R183 is assumption log 31. -/
def execRbShutdown (rb : RingId) (s : State) : Answer :=
  s.onRing rb fun r =>
    releaseHeld rb r.pending.length
      ((s.setRing rb { r with shut := true }).reply s.who .none .none)

end Sys2Proof.Machine
end

