-- ==== Sys2Proof/Machine/Wire.lean ====
section
/-! DEFINITION. The wire opcodes (44_wire_opcodes.md R141 to R156): a frame of each opcode, in each format, arriving on the inbound link of a chain. The frame's bytes reach `RXS` and the RX agent takes them in by the parser's rules (assumption log 11): in step, with a good checksum, `return-nonce` goes to the nonce ring, every other name to the register ring, an unknown opcode nowhere. -/

namespace Sys2Proof.Machine

/-- A command frame arrives (30_encoding.md R57). -/
def receiveCmd (chain : Nat) (op addr cksum : Byte) (payload : List Byte) (s : State) : Answer :=
  receive chain (cmdBytes op addr cksum payload) s

/-- An ack frame arrives (30_encoding.md R58). -/
def receiveAck (chain : Nat) (op addr ack cksum : Byte) (payload : List Byte) (s : State) : Answer :=
  receive chain (ackBytes op addr ack cksum payload) s

/-- `init`, CMD row (R141). -/
def execInitCmd (chain : Nat) (addr cksum : Byte) (payload : List Byte) (s : State) : Answer :=
  receiveCmd chain s.params.opmap.init addr cksum payload s

/-- `init`, ACK row (R141). -/
def execInitAck (chain : Nat) (addr ack cksum : Byte) (payload : List Byte) (s : State) : Answer :=
  receiveAck chain s.params.opmap.init addr ack cksum payload s

/-- `set-nonce-diff`, CMD row (R142). -/
def execSetNonceDiffCmd (chain : Nat) (addr cksum : Byte) (payload : List Byte) (s : State) : Answer :=
  receiveCmd chain s.params.opmap.setNonceDiff addr cksum payload s

/-- `set-nonce-diff`, ACK row (R142). -/
def execSetNonceDiffAck (chain : Nat) (addr ack cksum : Byte) (payload : List Byte) (s : State) : Answer :=
  receiveAck chain s.params.opmap.setNonceDiff addr ack cksum payload s

/-- `set-seed`, CMD row (R143). -/
def execSetSeedCmd (chain : Nat) (addr cksum : Byte) (payload : List Byte) (s : State) : Answer :=
  receiveCmd chain s.params.opmap.setSeed addr cksum payload s

/-- `set-seed`, ACK row (R143). -/
def execSetSeedAck (chain : Nat) (addr ack cksum : Byte) (payload : List Byte) (s : State) : Answer :=
  receiveAck chain s.params.opmap.setSeed addr ack cksum payload s

/-- `set-message`, CMD row (R144). -/
def execSetMessageCmd (chain : Nat) (addr cksum : Byte) (payload : List Byte) (s : State) : Answer :=
  receiveCmd chain s.params.opmap.setMessage addr cksum payload s

/-- `set-message`, ACK row (R144). -/
def execSetMessageAck (chain : Nat) (addr ack cksum : Byte) (payload : List Byte) (s : State) : Answer :=
  receiveAck chain s.params.opmap.setMessage addr ack cksum payload s

/-- `return-nonce`, CMD row (R145). -/
def execReturnNonceCmd (chain : Nat) (addr cksum : Byte) (payload : List Byte) (s : State) : Answer :=
  receiveCmd chain s.params.opmap.returnNonce addr cksum payload s

/-- `return-nonce`, ACK row (R145). -/
def execReturnNonceAck (chain : Nat) (addr ack cksum : Byte) (payload : List Byte) (s : State) : Answer :=
  receiveAck chain s.params.opmap.returnNonce addr ack cksum payload s

/-- `set-nonce-region`, CMD row (R146). -/
def execSetNonceRegionCmd (chain : Nat) (addr cksum : Byte) (payload : List Byte) (s : State) : Answer :=
  receiveCmd chain s.params.opmap.setNonceRegion addr cksum payload s

/-- `set-nonce-region`, ACK row (R146). -/
def execSetNonceRegionAck (chain : Nat) (addr ack cksum : Byte) (payload : List Byte) (s : State) : Answer :=
  receiveAck chain s.params.opmap.setNonceRegion addr ack cksum payload s

/-- `firmware-update`, CMD row (R147). -/
def execFirmwareUpdateCmd (chain : Nat) (addr cksum : Byte) (payload : List Byte) (s : State) : Answer :=
  receiveCmd chain s.params.opmap.firmwareUpdate addr cksum payload s

/-- `firmware-update`, ACK row (R147). -/
def execFirmwareUpdateAck (chain : Nat) (addr ack cksum : Byte) (payload : List Byte) (s : State) : Answer :=
  receiveAck chain s.params.opmap.firmwareUpdate addr ack cksum payload s

/-- `firmware-update-end`, CMD row (R148). -/
def execFirmwareUpdateEndCmd (chain : Nat) (addr cksum : Byte) (payload : List Byte) (s : State) : Answer :=
  receiveCmd chain s.params.opmap.firmwareUpdateEnd addr cksum payload s

/-- `firmware-update-end`, ACK row (R148). -/
def execFirmwareUpdateEndAck (chain : Nat) (addr ack cksum : Byte) (payload : List Byte) (s : State) : Answer :=
  receiveAck chain s.params.opmap.firmwareUpdateEnd addr ack cksum payload s

/-- `test`, CMD row (R149). -/
def execTestCmd (chain : Nat) (addr cksum : Byte) (payload : List Byte) (s : State) : Answer :=
  receiveCmd chain s.params.opmap.test addr cksum payload s

/-- `test`, ACK row (R149). -/
def execTestAck (chain : Nat) (addr ack cksum : Byte) (payload : List Byte) (s : State) : Answer :=
  receiveAck chain s.params.opmap.test addr ack cksum payload s

/-- `get-board-temp`, CMD row (R150). -/
def execGetBoardTempCmd (chain : Nat) (addr cksum : Byte) (payload : List Byte) (s : State) : Answer :=
  receiveCmd chain s.params.opmap.getBoardTemp addr cksum payload s

/-- `get-board-temp`, ACK row (R150). -/
def execGetBoardTempAck (chain : Nat) (addr ack cksum : Byte) (payload : List Byte) (s : State) : Answer :=
  receiveAck chain s.params.opmap.getBoardTemp addr ack cksum payload s

/-- `get-chip-temp`, CMD row (R151). -/
def execGetChipTempCmd (chain : Nat) (addr cksum : Byte) (payload : List Byte) (s : State) : Answer :=
  receiveCmd chain s.params.opmap.getChipTemp addr cksum payload s

/-- `get-chip-temp`, ACK row (R151). -/
def execGetChipTempAck (chain : Nat) (addr ack cksum : Byte) (payload : List Byte) (s : State) : Answer :=
  receiveAck chain s.params.opmap.getChipTemp addr ack cksum payload s

/-- `read-mem`, CMD row (R152). -/
def execReadMemCmd (chain : Nat) (addr cksum : Byte) (payload : List Byte) (s : State) : Answer :=
  receiveCmd chain s.params.opmap.readMem addr cksum payload s

/-- `read-mem`, ACK row (R152). -/
def execReadMemAck (chain : Nat) (addr ack cksum : Byte) (payload : List Byte) (s : State) : Answer :=
  receiveAck chain s.params.opmap.readMem addr ack cksum payload s

/-- `write-mem`, CMD row (R153). -/
def execWriteMemCmd (chain : Nat) (addr cksum : Byte) (payload : List Byte) (s : State) : Answer :=
  receiveCmd chain s.params.opmap.writeMem addr cksum payload s

/-- `write-mem`, ACK row (R153). -/
def execWriteMemAck (chain : Nat) (addr ack cksum : Byte) (payload : List Byte) (s : State) : Answer :=
  receiveAck chain s.params.opmap.writeMem addr ack cksum payload s

/-- `set-chip-address`, CMD row (R154). -/
def execSetChipAddressCmd (chain : Nat) (addr cksum : Byte) (payload : List Byte) (s : State) : Answer :=
  receiveCmd chain s.params.opmap.setChipAddress addr cksum payload s

/-- `set-chip-address`, ACK row (R154). -/
def execSetChipAddressAck (chain : Nat) (addr ack cksum : Byte) (payload : List Byte) (s : State) : Answer :=
  receiveAck chain s.params.opmap.setChipAddress addr ack cksum payload s

/-- `unknown-opcode`, CMD row (R155). -/
def execUnknownOpcodeCmd (chain : Nat) (opcode addr cksum : Byte) (payload : List Byte) (s : State) :
    Answer :=
  receiveCmd chain opcode addr cksum payload s

/-- `unknown-opcode`, ACK row (R155). -/
def execUnknownOpcodeAck (chain : Nat) (opcode addr ack cksum : Byte) (payload : List Byte)
    (s : State) : Answer :=
  receiveAck chain opcode addr ack cksum payload s

end Sys2Proof.Machine
end

