-- ==== Sys2Proof/Machine/Dispatch.lean ====
section
/-! DEFINITION. One arm per instruction: the meaning it has. -/

namespace Sys2Proof.Machine

def exec (i : Instr) (s : State) : Host.Outcome State Fault Refusal :=
  match i with
  | .initCmd c a k p => Sys2Proof.Machine.execInitCmd c a k p s
  | .initAck c a r k p => Sys2Proof.Machine.execInitAck c a r k p s
  | .setNonceDiffCmd c a k p => Sys2Proof.Machine.execSetNonceDiffCmd c a k p s
  | .setNonceDiffAck c a r k p => Sys2Proof.Machine.execSetNonceDiffAck c a r k p s
  | .setSeedCmd c a k p => Sys2Proof.Machine.execSetSeedCmd c a k p s
  | .setSeedAck c a r k p => Sys2Proof.Machine.execSetSeedAck c a r k p s
  | .setMessageCmd c a k p => Sys2Proof.Machine.execSetMessageCmd c a k p s
  | .setMessageAck c a r k p => Sys2Proof.Machine.execSetMessageAck c a r k p s
  | .returnNonceCmd c a k p => Sys2Proof.Machine.execReturnNonceCmd c a k p s
  | .returnNonceAck c a r k p => Sys2Proof.Machine.execReturnNonceAck c a r k p s
  | .setNonceRegionCmd c a k p => Sys2Proof.Machine.execSetNonceRegionCmd c a k p s
  | .setNonceRegionAck c a r k p => Sys2Proof.Machine.execSetNonceRegionAck c a r k p s
  | .firmwareUpdateCmd c a k p => Sys2Proof.Machine.execFirmwareUpdateCmd c a k p s
  | .firmwareUpdateAck c a r k p => Sys2Proof.Machine.execFirmwareUpdateAck c a r k p s
  | .firmwareUpdateEndCmd c a k p => Sys2Proof.Machine.execFirmwareUpdateEndCmd c a k p s
  | .firmwareUpdateEndAck c a r k p => Sys2Proof.Machine.execFirmwareUpdateEndAck c a r k p s
  | .testCmd c a k p => Sys2Proof.Machine.execTestCmd c a k p s
  | .testAck c a r k p => Sys2Proof.Machine.execTestAck c a r k p s
  | .getBoardTempCmd c a k p => Sys2Proof.Machine.execGetBoardTempCmd c a k p s
  | .getBoardTempAck c a r k p => Sys2Proof.Machine.execGetBoardTempAck c a r k p s
  | .getChipTempCmd c a k p => Sys2Proof.Machine.execGetChipTempCmd c a k p s
  | .getChipTempAck c a r k p => Sys2Proof.Machine.execGetChipTempAck c a r k p s
  | .readMemCmd c a k p => Sys2Proof.Machine.execReadMemCmd c a k p s
  | .readMemAck c a r k p => Sys2Proof.Machine.execReadMemAck c a r k p s
  | .writeMemCmd c a k p => Sys2Proof.Machine.execWriteMemCmd c a k p s
  | .writeMemAck c a r k p => Sys2Proof.Machine.execWriteMemAck c a r k p s
  | .setChipAddressCmd c a k p => Sys2Proof.Machine.execSetChipAddressCmd c a k p s
  | .setChipAddressAck c a r k p => Sys2Proof.Machine.execSetChipAddressAck c a r k p s
  | .unknownOpcodeCmd c op a k p => Sys2Proof.Machine.execUnknownOpcodeCmd c op a k p s
  | .unknownOpcodeAck c op a r k p => Sys2Proof.Machine.execUnknownOpcodeAck c op a r k p s
  | .rbInit rb n m => Sys2Proof.Machine.execRbInit rb n m s
  | .rbPutPolling rb d => Sys2Proof.Machine.execRbPutPolling rb d s
  | .rbPutBlocking rb d => Sys2Proof.Machine.execRbPutBlocking rb d s
  | .rbGetPolling rb n => Sys2Proof.Machine.execRbGetPolling rb n s
  | .rbGetBlocking rb n => Sys2Proof.Machine.execRbGetBlocking rb n s
  | .rbPutForce rb d => Sys2Proof.Machine.execRbPutForce rb d s
  | .rbDataLen rb => Sys2Proof.Machine.execRbDataLen rb s
  | .rbSpaceLen rb => Sys2Proof.Machine.execRbSpaceLen rb s
  | .rbStatus rb => Sys2Proof.Machine.execRbStatus rb s
  | .rbShutdown rb => Sys2Proof.Machine.execRbShutdown rb s
  | .fcPack op a p => Sys2Proof.Machine.execFcPack op a p s
  | .fcStamp image => Sys2Proof.Machine.execFcStamp image s
  | .psRx c b => Sys2Proof.Machine.execPsRx c b s
  | .psReset c => Sys2Proof.Machine.execPsReset c s
  | .psWant c => Sys2Proof.Machine.execPsWant c s
  | .fcParse f b => Sys2Proof.Machine.execFcParse f b s
  | .dspStep c => Sys2Proof.Machine.execDspStep c s
  | .txStep c w => Sys2Proof.Machine.execTxStep c w s

end Sys2Proof.Machine
end

