-- ==== Sys2Proof/Machine/Fetch.lean ====
section
/-! DEFINITION. What the machine does next: the oldest turn is taken, and a requested line is decoded (assumption logs 7 and 12); and how a word of the opcode table is placed as the next line. -/

namespace Sys2Proof.Machine

/-- What a turn turns out to be: an instruction to run in a state, or something already answered. -/
inductive Fetched
  | instr (i : Instr) (s : State)
  | done (a : Answer)

/-- A line that is no instruction: bytes on a link that are not one whole frame are taken in like any others
(30_encoding.md R70, assumption log 27); a request with the wrong operands is refused by name. -/
def undecoded (line : Line) (why : DecodeError) (s : State) : Answer :=
  match line with
  | .wire c bytes => receive c bytes s
  | .op _ _ => .refused (.undecodable why)

/-- Take the oldest turn. With no turn nobody moves: nothing happens. -/
def fetch (s : State) : Fetched :=
  match s.turns with
  | [] => .done (.next s)
  | .request who line :: rest =>
    let s' := { s with turns := rest, who := who }
    match decode s.ctx line with
    | .ok i => .instr i s'
    | .error e => .done (undecoded line e s')
  | .resume rb k :: rest => .done (resume rb k { s with turns := rest })
  | .arrive c bytes :: rest => .done (arrive c bytes { s with turns := rest })
  | .ioctl who c op addr payload :: rest =>
    .done (ioctl who c op addr payload { s with turns := rest, who := who })

/-- Place a line as what the next step fetches, requested by host agent 0. -/
def placeLine (line : Line) (s : State) : State :=
  { s with turns := .request (.host 0) line :: s.turns }

end Sys2Proof.Machine
end

