-- ==== Sys2Proof/Machine/Step.lean ====
section
/-! DEFINITION. One step of the machine, and the placing of a word of the opcode table where the next step fetches. -/

namespace Sys2Proof.Machine

/-- One step: the oldest turn, one atomic transaction (00_scope.md R8, 20_memory.md R43). -/
def step (s : State) : Host.Outcome State Fault Refusal :=
  match fetch s with
  | .instr i s' => exec i s'
  | .done a => a

/-- The state with the instruction whose first `nbits` bits are `w` (every later bit zero) placed as the next line. -/
def State.withFetchWord (s : State) (nbits w : Nat) : State := placeLine (tableLine nbits w) s

end Sys2Proof.Machine
end

