-- ==== Sys2Proof/Machine/Boot.lean ====
section
/-! DEFINITION. The initialisation sequence (70_reset_and_hazards.md R180): the rings of every chain and `PMON_RING` made by `RB.INIT`, then every parser configured and reset, then every chain's transport opened, with the refusals of 00_scope.md R7, 40_ringbuffer.md R83 and 41_framecodec_pack.md R107. Reset is this sequence (R179); no step runs it. -/

namespace Sys2Proof.Machine

/-- A chain before its initialisation: no instance exists (10_state.md R14) and the parser is not usable (93 U10). -/
def Chain.blank (chainId : Byte) : Chain where
  parser := { Parser.fresh .ack chainId with ready := false }
  nonce := none
  reg := none
  work := none
  dl := none
  rxs := []
  txs := []
  sendAnswers := []
  rxStopped := false
  workStopped := false
  dlStopped := false
  aborted := false

/-- The block with its capability configuration selected and nothing initialised (R180 step 1). -/
def State.blank (params : Params) (ids : List Byte) : State where
  params := params
  chains := ids.map Chain.blank
  pmon := none
  who := .host 0
  turns := []
  releaseOrder := []
  replies := []

/-- A frame length the initialisation accepts (41_framecodec_pack.md R107, R181 c). -/
abbrev FrameLengthOk (n : Nat) : Prop :=
  Config.caps.headerLenCmd ≤ n ∧ n ≤ Config.caps.headerLenCmd + Config.caps.lenFieldMax

/-- The rings of chain `c` with what step 2 asks for each. -/
def chainRings (p : Params) (k : ChainConfig) (c : Nat) : List (RingId × Nat × Mode) :=
  [(.nonce c, ringRequest k.nonceReq p p.nonceRecLen, k.nonceMode),
   (.reg c, ringRequest k.regReq p p.regRecLen, k.regMode),
   (.work c, ringRequest k.workReq p p.workFrameLen, .blocking),
   (.dl c, ringRequest k.dlReq p p.dlFrameLen, .blocking)]

/-- Step 2 on a list of rings. -/
def initRings : List (RingId × Nat × Mode) → State → Answer
  | [], s => .next s
  | (rb, n, m) :: l, s => (execRbInit rb n m s).andThen (initRings l)

/-- Step 2 for one chain. -/
def initChain (c : Nat) (k : ChainConfig) (s : State) : Answer := initRings (chainRings s.params k c) s

/-- Step 3 for one chain: `FMT`, `CHAIN_ID`, `PROTO_ERR_CNT`, then `PS.RESET`. -/
def initParser (c : Nat) (k : ChainConfig) (s : State) : Answer :=
  s.onChain c fun ch => execPsReset c (s.setChain c
    { ch with parser := { ch.parser with fmt := .ack, chainId := k.chainId, protoErr := 0 } })

/-- Step 4 for one chain: where the transport does not open, the chain's startup is aborted and nothing of it is left
(60_exceptions.md R177); the other chains go on. Assumption log 19. -/
def openChain (c : Nat) (k : ChainConfig) (s : State) : Answer :=
  if k.opens then .next s else .next (s.setChain c { Chain.blank k.chainId with aborted := true })

/-- A step of the sequence for every chain, from number `c` on. -/
def forChains (f : Nat → ChainConfig → State → Answer) : Nat → List ChainConfig → State → Answer
  | _, [], s => .next s
  | c, k :: l, s => (f c k s).andThen (forChains f (c + 1) l)

/-- The initialisation sequence (R180); a refusal means the block does not start. Where several refusals apply, the model names
the first of: a parameter outside its type (00_scope.md R7), a frame length (41_framecodec_pack.md R107), a ring size
(40_ringbuffer.md R83), which also a chain whose transport then fails to open can cause, since step 2 comes before step 4.
The spec gives no order among refusals: DESIGN CHOICE, assumption log 22. `PMON_RING` is made after the rings of the chains:
DESIGN CHOICE, assumption log 6. -/
def initialise (b : BootConfig) : Answer :=
  if ¬ (b.params.WellTyped ∧ b.chains ≠ []) then .refused .badParameter
  else if ¬ (FrameLengthOk b.params.workFrameLen ∧ FrameLengthOk b.params.dlFrameLen) then
    .refused .badFrameLength
  else
    (((forChains initChain 0 b.chains
        (State.blank b.params (b.chains.map ChainConfig.chainId))).andThen
      (execRbInit .pmon b.pmonReq b.pmonMode)).andThen
      (forChains initParser 0 b.chains)).andThen
      (forChains openChain 0 b.chains)

end Sys2Proof.Machine
end

