-- ==== Sys2Proof/Safety.lean ====
section
/-! DEFINITION. What counts as a safe run: the invariants of 10_state.md R24 and R30, that a step keeps them and does not fault, and the words the statements share. -/

namespace Sys2Proof.Machine

/-! ## Invariants -/

/-- The invariants of one ring instance (R24): (a) the cursors are inside the array; (d) the mirrors agree with the order of
the cursors; (e) every byte of `CONTENT` has been written; the storage is in its canonical form and inside the array; and
the capacity is legal (R14). (b) and (c) follow. -/
abbrev Ring.Wf (r : Ring) : Prop :=
  (1 ≤ r.size ∧ r.size ≤ Config.caps.sizeMax) ∧
  (r.ri.toNat < r.size ∧ r.wi.toNat < r.size) ∧
  (r.ri.toNat < r.wi.toNat → r.wm = r.rm) ∧
  (r.wi.toNat < r.ri.toNat → r.wm ≠ r.rm) ∧
  (Mem.wf r.buf ∧ ∀ e ∈ r.buf, e.1 < r.size) ∧
  (∀ i < r.dataLen, (Mem.read r.buf (r.slot i)).isSome)

/-- A held `TX.STEP` waits on its own outbound ring. -/
def Held.inPlace (rb : RingId) : Held → Bool
  | .txGet c w => decide (rb = outRing w c)
  | .put _ _ => true
  | .get _ _ => true

/-- Every held request of an instance is where it belongs. -/
abbrev Ring.HeldInPlace (r : Ring) (rb : RingId) : Prop := ∀ h ∈ r.pending, h.inPlace rb = true

/-- The invariants of a parser (R30 a): what `ACC` and the preamble bytes of `SCR` are in each state, and that `S_BODY` means a
non-empty payload. The register file is in its canonical form and inside its 519 bytes. -/
abbrev Parser.Wf (p : Parser) : Prop :=
  Scr.wf p.scr ∧
  (p.ps = .p1 → p.acc = 0#10) ∧
  (p.ps = .p2 → p.acc = 1#10 ∧ Scr.read p.scr 0 = p.fmt.p1) ∧
  (p.ps = .hdr → p.acc = 2#10 ∧ Scr.read p.scr 0 = p.fmt.p1 ∧ Scr.read p.scr 1 = p.fmt.p2) ∧
  (p.ps = .body →
    p.acc.toNat = p.fmt.headerLen ∧ Scr.read p.scr 0 = p.fmt.p1 ∧ Scr.read p.scr 1 = p.fmt.p2 ∧ p.plen ≠ 0)

/-- What a parser of a format says of a whole candidate frame (42_parser.md R114, R115): first the checksum, then the
opcode. -/
def judge (params : Params) (fmt : Fmt) (chainId : Byte) (f : List Byte) : Event :=
  if CkSel.eval params.ck (zeroed fmt f) ≠ f.getD fmt.ckOff 0#8 then .cksum
  else if f.getD fmt.opOff 0#8 = params.opmap.returnNonce then .frame .nonce (f ++ [chainId])
  else if f.getD fmt.opOff 0#8 ∈ params.opmap.recognized then .frame .regack (f ++ [chainId])
  else .unknownOpcode f

/-- The parser after a candidate frame has been judged: the reset condition, and one more protocol error if the checksum did
not match (R114, R115). -/
def Parser.judged (p : Parser) (scr : Scr) (ev : Event) : Parser :=
  { p with ps := .p1, acc := 0#10, scr := scr, protoErr := p.protoErr + (if ev = .cksum then 1 else 0) }

/-- The ring instances of chain number `c`, by name. -/
def Chain.rings (ch : Chain) (c : Nat) : List (RingId × Option Ring) :=
  [(.nonce c, ch.nonce), (.reg c, ch.reg), (.work c, ch.work), (.dl c, ch.dl)]

/-- The invariants of chain number `c`. -/
abbrev Chain.Wf (ch : Chain) (c : Nat) : Prop :=
  ch.parser.Wf ∧ ∀ x ∈ ch.rings c, ∀ r ∈ x.2, r.Wf ∧ r.HeldInPlace x.1

/-- The invariant of the block. -/
abbrev State.Wf (s : State) : Prop :=
  (∀ c, (h : c < s.chains.length) → (s.chains[c]).Wf c) ∧
  (∀ r ∈ s.pmon, r.Wf ∧ r.HeldInPlace .pmon)

/-- An instance that is shut down holds nothing (40_ringbuffer.md R97). -/
abbrev Ring.Quiet (r : Ring) : Prop := r.shut = true → r.pending = []

/-- No instance that is shut down holds anything. -/
abbrev State.Quiet (s : State) : Prop := ∀ rb r, s.ring? rb = some r → r.Quiet

/-! ## Runs -/

/-- The states a run of any number of steps leads to. -/
inductive Runs (s : State) : State → Prop
  | here : Runs s s
  | more {t u : State} : Runs s t → step t = .next u → Runs s u

/-- A run is safe: no state it leads to faults. -/
def Safe (s : State) : Prop := ∀ t, Runs s t → ∀ e, step t ≠ .fault e

/-! ## Words the statements share -/

/-- The place an instruction works on: a chain, `PMON_RING`, or (for `FC.PACK`, `FC.STAMP`, `FC.PARSE`) nothing at all. -/
def place : Instr → Option (Option Nat)
  | .initCmd c _ _ _ | .setNonceDiffCmd c _ _ _ | .setSeedCmd c _ _ _ | .setMessageCmd c _ _ _
  | .returnNonceCmd c _ _ _ | .setNonceRegionCmd c _ _ _ | .firmwareUpdateCmd c _ _ _
  | .firmwareUpdateEndCmd c _ _ _ | .testCmd c _ _ _ | .getBoardTempCmd c _ _ _
  | .getChipTempCmd c _ _ _ | .readMemCmd c _ _ _ | .writeMemCmd c _ _ _
  | .setChipAddressCmd c _ _ _ => some (some c)
  | .initAck c _ _ _ _ | .setNonceDiffAck c _ _ _ _ | .setSeedAck c _ _ _ _ | .setMessageAck c _ _ _ _
  | .returnNonceAck c _ _ _ _ | .setNonceRegionAck c _ _ _ _ | .firmwareUpdateAck c _ _ _ _
  | .firmwareUpdateEndAck c _ _ _ _ | .testAck c _ _ _ _ | .getBoardTempAck c _ _ _ _
  | .getChipTempAck c _ _ _ _ | .readMemAck c _ _ _ _ | .writeMemAck c _ _ _ _
  | .setChipAddressAck c _ _ _ _ => some (some c)
  | .unknownOpcodeCmd c _ _ _ _ => some (some c)
  | .unknownOpcodeAck c _ _ _ _ _ => some (some c)
  | .rbInit rb _ _ | .rbPutPolling rb _ | .rbPutBlocking rb _ | .rbGetPolling rb _
  | .rbGetBlocking rb _ | .rbPutForce rb _ | .rbDataLen rb | .rbSpaceLen rb | .rbStatus rb
  | .rbShutdown rb => some (chainOf rb)
  | .fcPack _ _ _ | .fcStamp _ | .fcParse _ _ => none
  | .psRx c _ | .psReset c | .psWant c | .dspStep c | .txStep c _ => some (some c)

/-- Everything but the instance `rb` and the replies is the same in two states. -/
abbrev State.SameExceptRing (s t : State) (rb : RingId) : Prop :=
  t.params = s.params ∧ t.who = s.who ∧ t.turns = s.turns ∧ t.releaseOrder = s.releaseOrder ∧
  t.chains.length = s.chains.length ∧
  (∀ rb', rb' ≠ rb → t.ring? rb' = s.ring? rb') ∧
  (∀ (c : Nat) (ch ch' : Chain), s.chains[c]? = some ch → t.chains[c]? = some ch' →
    ch'.parser = ch.parser ∧ ch'.rxs = ch.rxs ∧ ch'.txs = ch.txs ∧
    ch'.sendAnswers = ch.sendAnswers ∧ ch'.rxStopped = ch.rxStopped ∧
    ch'.workStopped = ch.workStopped ∧ ch'.dlStopped = ch.dlStopped ∧ ch'.aborted = ch.aborted)

/-- A byte of a ring's store that a copy-in of `k` bytes does not touch (20_memory.md R45): the bytes stored are the `k` from
the write index on, around the end of the array. -/
abbrev Ring.Untouched (r : Ring) (k a : Nat) : Prop := ∀ j < k, a ≠ (r.wi.toNat + j) % r.size

/-- `r'` is the instance `r` after bytes `d` that fit have been copied in: `d` stands from the old write index on, around the
end of the array, every other byte of the store is as before, `WI` has moved over `d`, `WM` is inverted exactly when the end
of the array was reached, `CONTENT` has `d` behind it, and every other register is as before (20_memory.md R45, R48). -/
abbrev Ring.Stored (r r' : Ring) (d : List Byte) : Prop :=
  (r'.size = r.size ∧ r'.mode = r.mode ∧ r'.shut = r.shut ∧ r'.pending = r.pending ∧
    r'.ri = r.ri ∧ r'.rm = r.rm) ∧
  r'.wi.toNat = (r.wi.toNat + d.length) % r.size ∧
  r'.wm = (if r.wi.toNat + d.length < r.size then r.wm else !r.wm) ∧
  (∀ j < d.length, Mem.read r'.buf ((r.wi.toNat + j) % r.size) = d[j]?) ∧
  (∀ a, r.Untouched d.length a → Mem.read r'.buf a = Mem.read r.buf a) ∧
  r'.content = r.content ++ d.map some ∧ r'.dataLen = r.dataLen + d.length

/-- `r'` is the instance `r` after its `k` oldest bytes `out` have been copied out: `RI` has moved over them, `RM` is inverted
exactly when the end of the array was reached, `CONTENT` has lost them, and the store and every other register are as before
(20_memory.md R46, R48). -/
abbrev Ring.Taken (r r' : Ring) (k : Nat) (out : List Byte) : Prop :=
  (r'.size = r.size ∧ r'.mode = r.mode ∧ r'.shut = r.shut ∧ r'.pending = r.pending ∧
    r'.buf = r.buf ∧ r'.wi = r.wi ∧ r'.wm = r.wm) ∧
  r'.ri.toNat = (r.ri.toNat + k) % r.size ∧
  r'.rm = (if r.ri.toNat + k < r.size then r.rm else !r.rm) ∧
  out.map some = r.content.take k ∧ out.length = k ∧
  r'.content = r.content.drop k ∧ r'.dataLen = r.dataLen - k

/-- `t` is the state `s` after a put of `d` by `who` into the instance `rb`, which is `r` in `s`, under its own policy
(40_ringbuffer.md R85, R86, R89, R97). An agent of the block that is cancelled is stopped (assumption log 17). -/
def PutAnswer (who : Agent) (rb : RingId) (r : Ring) (d : List Byte) (s t : State) : Prop :=
  match r.mode with
  | .polling => ∃ r', r.Stored r' (d.take (min d.length r.spaceLen)) ∧
      t = (s.setRing rb r').reply who (.count (min d.length r.spaceLen)) .none
        (.put rb (d.take (min d.length r.spaceLen)))
  | .blocking =>
    if d.length ≤ r.spaceLen then
      ∃ r', r.Stored r' d ∧ t = (s.setRing rb r').reply who (.count d.length) .none (.put rb d)
    else if r.shut = true then t = (s.stopAgent who).reply who (.count 0) .cancelled
    else t = s.setRing rb { r with pending := r.pending ++ [.put who d] }

/-- `t` is the state `s`, in which chain `c` is `ch`, after `who` has sent a whole frame: what the transport accepts of it is
appended to the outbound stream at once, and if that is not all of it the caller is told the count with `EV_TX_FAIL`
(43_pipeline.md R132). How much is accepted is the environment's answer (assumption log 10); that nothing comes between the bytes
of one frame is an assumption about the transport (92_eei_decisions.md D36). -/
abbrev SendAnswer (who : Agent) (c : Nat) (ch : Chain) (frame : List Byte) (moved : Moved) (s t : State) : Prop :=
  let sent := fun (k : Nat) (ev : Event) =>
    (s.setChain c { ch with
      txs := ch.txs ++ frame.take k, sendAnswers := ch.sendAnswers.tail }).reply who .none ev moved
  (ch.sendAnswers.headD none = none → t = sent frame.length .none) ∧
  (∀ k, ch.sendAnswers.headD none = some k → frame.length ≤ k → t = sent frame.length .none) ∧
  (∀ k, ch.sendAnswers.headD none = some k → k < frame.length → t = sent k (.txFail k))

/-- The given frames stand in the bytes, in this order, one behind the other and without overlap; other bytes may stand before,
between and behind them. -/
def StandIn : List (List Byte) → List Byte → Prop
  | [], _ => True
  | f :: fs, bytes => ∃ skipped rest, bytes = skipped ++ f ++ rest ∧ StandIn fs rest

/-- The kind an opcode byte is classified as (42_parser.md R115). -/
def kindOf (m : OpMap) (op : Byte) : Kind :=
  if op = m.returnNonce then .nonce else if op ∈ m.recognized then .regack else .unknown

/-- The inbound ring of a name (42_parser.md R115, 43_pipeline.md R128). -/
def inRing (n : OpName) (c : Nat) : RingId := if n = .returnNonce then .nonce c else .reg c

/-- The kind of the records of a name. -/
def nameKind (n : OpName) : Kind := if n = .returnNonce then .nonce else .regack

/-- What the parser of chain `c`, which is `ch` in `s`, has left behind after a whole frame `f` from its reset condition and back
to it: the frame in `SCR` from index 0 on, `err` more protocol errors, and its replies: `n` steps with nothing to report and then
`ev`. -/
def State.afterFrame (s : State) (c : Nat) (ch : Chain) (f : List Byte) (err n : Nat) (ev : Event) :
    State :=
  { s.setChain c { ch with
      parser := { ch.parser with
        scr := Scr.writeList ch.parser.scr 0 f, protoErr := ch.parser.protoErr + err } } with
    replies := ⟨.rx c, .none, ev, .nothing⟩ ::
      (List.replicate n ⟨.rx c, .none, .none, .nothing⟩ ++ s.replies) }

/-- How many steps of a parser have nothing to report before a frame with this payload is judged. -/
def quietSteps (payload : List Byte) : Nat := if payload = [] then 2 else 3

/-- What the requester of a held request is told when it is cancelled (60_exceptions.md R161). -/
def Held.cancelled : Held → Reply
  | .put who _ => ⟨who, .count 0, .cancelled, .nothing⟩
  | .get who _ => ⟨who, .data [], .cancelled, .nothing⟩
  | .txGet c w => ⟨.tx c w, .none, .cancelled, .nothing⟩

/-- What a completed operation does to the contents of the instance `rb` (20_memory.md R48): a put adds its bytes behind, a get
takes its bytes from the front, which must be those bytes, and a forced put adds its bytes and discards from the front
(40_ringbuffer.md R91). Operations on other instances do nothing. -/
def Moved.after (rb : RingId) (m : Moved) (content : List (Option Byte)) : Option (List (Option Byte)) :=
  match m with
  | .nothing => some content
  | .put rb' d => some (if rb' = rb then content ++ d.map some else content)
  | .got rb' d =>
    if rb' = rb then
      if content.take d.length = d.map some then some (content.drop d.length) else none
    else some content
  | .forced rb' d n => some (if rb' = rb then (content ++ d.map some).drop n else content)

/-- Completed operations one after another, oldest first. -/
def replay (rb : RingId) : List Moved → List (Option Byte) → Option (List (Option Byte))
  | [], content => some content
  | m :: l, content => (m.after rb content).bind (replay rb l)

/-- The bytes an operation put into the instance `rb`. -/
def Moved.accepted (rb : RingId) : Moved → List Byte
  | .put rb' d => if rb' = rb then d else []
  | _ => []

/-- The bytes an operation got out of the instance `rb`. -/
def Moved.returned (rb : RingId) : Moved → List Byte
  | .got rb' d => if rb' = rb then d else []
  | _ => []

/-- The operation is no forced put on the instance `rb`. -/
def Moved.unforced (rb : RingId) : Moved → Bool
  | .forced rb' _ _ => decide (rb' ≠ rb)
  | _ => true

/-- Two states that agree on everything an operation at a place may depend on: the parameters, the requester, the model's own
lists, and the chain, or `PMON_RING`, that the operation works on. They may differ in every other chain. -/
abbrev AgreeAt (p : Option (Option Nat)) (s s' : State) : Prop :=
  s'.params = s.params ∧ s'.who = s.who ∧ s'.turns = s.turns ∧ s'.releaseOrder = s.releaseOrder ∧
  s'.replies = s.replies ∧ s'.chains.length = s.chains.length ∧
  (∀ c, p = some (some c) → s'.chains[c]? = s.chains[c]?) ∧ (p = some none → s'.pmon = s.pmon)

/-- Every instance there can be exists, but for those of a chain whose startup was aborted, which has none and whose parser is
not usable: what the initialisation leaves (00_scope.md R9, 60_exceptions.md R177). -/
abbrev State.Complete (s : State) : Prop :=
  s.pmon.isSome ∧ ∀ ch ∈ s.chains,
    if ch.aborted then
      ch.parser.ready = false ∧ ch.nonce = none ∧ ch.reg = none ∧ ch.work = none ∧ ch.dl = none
    else ch.nonce.isSome ∧ ch.reg.isSome ∧ ch.work.isSome ∧ ch.dl.isSome

/-- Instructions run one after another. -/
def execAll : List Instr → State → Answer
  | [], s => .next s
  | i :: l, s => Answer.andThen (exec i s) (execAll l)

/-- The frame of a format from its fields (30_encoding.md R57, R58). -/
def frameBytes (fmt : Fmt) (op addr ack cksum : Byte) (payload : List Byte) : List Byte :=
  match fmt with
  | .cmd => cmdBytes op addr cksum payload
  | .ack => ackBytes op addr ack cksum payload

/-- The wire row of a format and a name. -/
def wireInstr (fmt : Fmt) (n : OpName) (c : Nat) (addr ack cksum : Byte) (payload : List Byte) : Instr :=
  match fmt with
  | .cmd => Instr.cmd n c addr cksum payload
  | .ack => Instr.ack n c addr ack cksum payload

/-- The catch-all row of a format. -/
def unknownInstr (fmt : Fmt) (c : Nat) (op addr ack cksum : Byte) (payload : List Byte) : Instr :=
  match fmt with
  | .cmd => .unknownOpcodeCmd c op addr cksum payload
  | .ack => .unknownOpcodeAck c op addr ack cksum payload

/-- Chain `c` is in step: its parser is usable, of the given format, in `S_P1` with an empty accumulation, no inbound byte is
waiting, and the chain was started and its RX agent is running and holds nothing. -/
abbrev Chain.InStep (ch : Chain) (c : Nat) (fmt : Fmt) : Prop :=
  ch.parser.ready = true ∧ ch.parser.fmt = fmt ∧ ch.parser.ps = .p1 ∧ ch.parser.acc = 0#10 ∧
  ch.rxs = [] ∧ ch.aborted = false ∧ ch.rxHalted = false ∧ ch.holds (.rx c) = false

/-- What comes of bytes that arrive at chain `c`, which is `ch` in `s`, when the RX agent runs until it waits (assumption log 11):
the bytes go behind what waits on the stream and the RX agent takes as many steps as there are bytes, and one more; under the
invariant it completes and leaves an RX agent that waits; where the agent is halted or its put is held the bytes just queue up
(43_pipeline.md R129); and bytes among which there is no first preamble byte are skipped one by one by a parser in step
(30_encoding.md R70). -/
abbrev TakesIn (c : Nat) (ch : Chain) (bytes : List Byte) (s : State) (a : Answer) : Prop :=
  let arrived := s.setChain c { ch with rxs := ch.rxs ++ bytes }
  a = execAll (List.replicate (ch.rxs.length + bytes.length + 1) (.dspStep c)) arrived ∧
  (s.Wf → ch.nonce.isSome → ch.reg.isSome → ∃ t, a = .next t ∧ exec (.dspStep c) t = .next t) ∧
  (ch.rxHalted = true ∨ ch.holds (.rx c) = true → a = .next arrived) ∧
  (∀ fmt, ch.InStep c fmt → (∀ b ∈ bytes, b ≠ fmt.p1) → a = .next { s with
    replies := List.replicate bytes.length ⟨.rx c, .none, .none, .nothing⟩ ++ s.replies })

end Sys2Proof.Machine
end

