-- ==== Sys2Proof/Certificates/Slice0/Obligations.lean ====
section
/-! DEFINITION. The statements about the model, from the numbered rules of spec/. Each is a proposition; its proof is not here. -/

open Sys2Proof Sys2Proof.Machine

/-! ## Encoding -/

/-- Words written out from the tables of 30_encoding.md (R57, R58, R72) and the vectors of 95_test_vectors.md decode to what they
stand for: an ack frame, a command frame, a frame of an unknown opcode, a request of each shape; and bytes that are no whole
frame are no instruction. The names of the opcode bytes are those of the default `OPMAP` (R68, D8, assumption log 3), the policies
of the rings those the model chose at reset (assumption log 5), and that the instance's policy picks the row of `RB.PUT` is
assumption log 12. -/
def Obligations.SpecWordsDecode : Prop :=
  decode Ctx.atReset (.wire 2 [0xAA, 0x55, 0x04, 0x03, 0x00, 0x04, 0x42, 0xDE, 0xAD, 0xBE, 0xEF]) =
    .ok (.returnNonceAck 2 0x03 0x00 0x42 [0xDE, 0xAD, 0xBE, 0xEF]) ∧
  decode Ctx.atReset (.wire 0 [0x55, 0xAA, 0x0C, 0x05, 0x03, 0x19, 0x01, 0x02, 0x03]) =
    .ok (.writeMemCmd 0 0x05 0x19 [0x01, 0x02, 0x03]) ∧
  decode Ctx.atReset (.wire 1 [0xAA, 0x55, 0x7E, 0x01, 0x00, 0x01, 0x80, 0x01]) =
    .ok (.unknownOpcodeAck 1 0x7E 0x01 0x00 0x80 [0x01]) ∧
  decode Ctx.atReset (.op 0x0 [.ring .pmon, .nat 18, .mode .polling]) = .ok (.rbInit .pmon 18 .polling) ∧
  decode Ctx.atReset (.op 0x1 [.ring (.work 0), .bytes [0x01]]) = .ok (.rbPutBlocking (.work 0) [0x01]) ∧
  decode Ctx.atReset (.op 0x1 [.ring .pmon, .bytes [0x01]]) = .ok (.rbPutPolling .pmon [0x01]) ∧
  decode Ctx.atReset (.op 0x8 [.byte 0x03, .byte 0xFF, .bytes [0xA1]]) = .ok (.fcPack 0x03 0xFF [0xA1]) ∧
  decode Ctx.atReset (.op 0xA [.chain 2, .bytes [0xAA]]) = .ok (.psRx 2 [0xAA]) ∧
  decode Ctx.atReset (.op 0xF [.chain 1, .which .dl]) = .ok (.txStep 1 .dl) ∧
  decode Ctx.atReset (.wire 0 [0xAA, 0xAA, 0x04, 0x03, 0x00, 0x00, 0x42]) = .error .badPreamble ∧
  decode Ctx.atReset (.wire 0 [0xAA, 0x55, 0x04, 0x03, 0x00, 0x01, 0x42]) = .error .lengthMismatch ∧
  decode Ctx.atReset (.op 0x4 [.chain 0]) = .error (.wrongOperands 0x4)

/-- The first three bytes of a frame, as the 24-bit numbers of R74 with the default `OPMAP`, decode to the row of their name, and
bytes that no name has (0x0E, 0x7E, 0xFF) to the catch-all row of the format (R155). That such a number stands for a frame on
chain 0 whose address, ack, length and checksum are all zero is the model's choice (assumption log 23), the default `OPMAP` is
the spec's (assumption log 3). -/
def Obligations.TableWordsDecodeToTheirRows : Prop :=
  (∀ n : OpName,
    decodeTableWord 24 (0x55 * 65536 + 0xAA * 256 + (Config.defaultOpMap.byteOf n).toNat) =
      some (Instr.cmd n 0 0x00 0x00 []) ∧
    decodeTableWord 24 (0xAA * 65536 + 0x55 * 256 + (Config.defaultOpMap.byteOf n).toNat) =
      some (Instr.ack n 0 0x00 0x00 0x00 [])) ∧
  decodeTableWord 24 0x55AA0E = some (.unknownOpcodeCmd 0 0x0E 0x00 0x00 []) ∧
  decodeTableWord 24 0xAA557E = some (.unknownOpcodeAck 0 0x7E 0x00 0x00 0x00 []) ∧
  decodeTableWord 24 0x55AAFF = some (.unknownOpcodeCmd 0 0xFF 0x00 0x00 [])

/-- Decode and encode agree: every well-formed instruction, with every operand at every value its encoding admits, is read back
from its own line, for every injective `OPMAP` (R57, R58, R63, R68, R72). -/
def Obligations.DecodeOfEncodeIsTheInstruction : Prop :=
  ∀ (ctx : Ctx) (i : Instr), ctx.opmap.Injective → WellFormed ctx i →
    decode ctx (encode ctx.opmap i) = .ok i

/-- A line that decodes has one meaning: the instruction it decodes to is well-formed, and the line is that instruction's own
encoding, so no bit of it is dropped (R57, R58, R65, R72). -/
def Obligations.EncodeOfDecodeIsTheLine : Prop :=
  ∀ (ctx : Ctx) (line : Line) (i : Instr), decode ctx line = .ok i →
    WellFormed ctx i ∧ encode ctx.opmap i = line

/-! ## Steps, reset and the initialisation -/

/-- A step takes the oldest turn (assumption log 7): a requested line that decodes is run as the instruction it is, with the turn
gone and the requester noted; a request with the wrong operands is refused by name; wire bytes that are no whole frame are taken
in like any others (assumption log 27); bytes that arrive go behind what waits on the stream of a chain that there is; that bytes
which arrive at a chain whose startup was aborted are refused is the model's (assumption log 19: 60_exceptions.md R177 says only
that such a chain has no instances and its agents never step); a turn for a held request that there is not changes nothing; and with no turn nothing happens. -/
def Obligations.StepRunsTheDecodedInstruction : Prop :=
  (∀ (s : State) (who : Agent) (line : Line) (rest : List Turn) (i : Instr),
    s.turns = .request who line :: rest → decode s.ctx line = .ok i →
    step s = exec i { s with turns := rest, who := who }) ∧
  (∀ (s : State) (who : Agent) (sel : BitVec 4) (args : List Operand) (rest : List Turn)
    (e : DecodeError), s.turns = .request who (.op sel args) :: rest →
    decode s.ctx (.op sel args) = .error e → step s = .refused (.undecodable e)) ∧
  (∀ (s : State) (who : Agent) (c : Nat) (bytes : List Byte) (rest : List Turn) (e : DecodeError),
    s.turns = .request who (.wire c bytes) :: rest → decode s.ctx (.wire c bytes) = .error e →
    step s = receive c bytes { s with turns := rest, who := who }) ∧
  (∀ (s : State) (c : Nat) (bytes : List Byte) (rest : List Turn), s.turns = .arrive c bytes :: rest →
    (∀ ch, s.chains[c]? = some ch → ch.aborted = false → step s =
      .next (({ s with turns := rest } : State).setChain c { ch with rxs := ch.rxs ++ bytes })) ∧
    (∀ ch, s.chains[c]? = some ch → ch.aborted = true → step s = .refused .chainAborted) ∧
    (s.chains[c]? = none → step s = .refused .noSuchChain)) ∧
  (∀ (s : State) (rb : RingId) (k : Nat) (rest : List Turn), s.turns = .resume rb k :: rest →
    (∀ r, s.ring? rb = some r → r.pending[k]? = none) → step s = .next { s with turns := rest }) ∧
  (∀ s : State, s.turns = [] → step s = .next s)

/-- After the initialisation every piece of state holds the value of the table of 10_state.md R36, for every configuration, each
ring with its own `SIZE_REQ` and each inbound ring with its own policy (00_scope.md R7); `PMON_RING` exists too (R9); and of a
chain whose transport failed to open there is no instance (60_exceptions.md R177). The model's own: where the table calls content
unspecified, `BUF` has no bytes yet (assumption log 13) and every one of the 519 bytes of `SCR` holds 0x00 (log 29); `PMON_RING` is
made in this sequence (log 6), and the flags `ready` and `aborted` say which chains were started (log 19). -/
def Obligations.InitialisationFillsTheResetTable : Prop :=
  ∀ (b : BootConfig) (s : State), initialise b = .next s →
    let made := fun (rb : RingId) (sizeReq : Nat) (mode : Mode) => ∃ r, s.ring? rb = some r ∧
      r.size = sizeReq / b.params.rbAlign * b.params.rbAlign ∧ r.mode = mode ∧
      r.buf = [] ∧ r.ri = 0#15 ∧ r.wi = 0#15 ∧ r.rm = false ∧ r.wm = false ∧ r.dataLen = 0 ∧
      r.shut = false ∧ r.pending = []
    s.params = b.params ∧ s.chains.length = b.chains.length ∧ s.Complete ∧
    made .pmon b.pmonReq b.pmonMode ∧
    ∀ (c : Nat) (k : ChainConfig), b.chains[c]? = some k → ∃ ch, s.chains[c]? = some ch ∧
      (k.opens = true →
        made (.nonce c) (k.nonceReq.getD (b.params.nonceRecLen * b.params.rbMult)) k.nonceMode ∧
        made (.reg c) (k.regReq.getD (b.params.regRecLen * b.params.rbMult)) k.regMode ∧
        made (.work c) (k.workReq.getD (b.params.workFrameLen * b.params.rbMult)) .blocking ∧
        made (.dl c) (k.dlReq.getD (b.params.dlFrameLen * b.params.rbMult)) .blocking ∧
        ch.aborted = false ∧ ch.parser.ready = true ∧ ch.parser.fmt = .ack ∧
        ch.parser.chainId = k.chainId ∧ ch.parser.ps = .p1 ∧ ch.parser.acc = 0#10 ∧
        ch.parser.scr = [] ∧ (∀ i < 519, Scr.read ch.parser.scr i = 0x00#8) ∧ ch.parser.want = 1 ∧ ch.parser.protoErr = 0 ∧
        ch.rxInFlight c = none) ∧
      (k.opens = false → ch.aborted = true ∧ ch.parser.ready = false ∧ ch.nonce = none ∧
        ch.reg = none ∧ ch.work = none ∧ ch.dl = none)

/-- The initialisation starts the block exactly when the parameters are of the types of 00_scope.md R7 and there is a chain, both
frame lengths are in 6 to 261, and every ring's rounded size is legal; otherwise it is refused (40_ringbuffer.md R83,
41_framecodec_pack.md R107, 70_reset_and_hazards.md R180, R181 c, d). Whether a chain's transport opens does not matter to the
others (60_exceptions.md R177). Which refusal is named where several apply is the model's choice (assumption log 22). -/
def Obligations.InitialisationStartsExactlyWhen : Prop :=
  ∀ b : BootConfig,
    let p := b.params
    let typed := p.WellTyped ∧ b.chains ≠ []
    let lengths := (6 ≤ p.workFrameLen ∧ p.workFrameLen ≤ 261) ∧ (6 ≤ p.dlFrameLen ∧ p.dlFrameLen ≤ 261)
    let legal := fun n : Nat => 1 ≤ n / p.rbAlign * p.rbAlign ∧ n / p.rbAlign * p.rbAlign ≤ 32767
    let sizes := legal b.pmonReq ∧ ∀ k ∈ b.chains,
      legal (k.nonceReq.getD (p.nonceRecLen * p.rbMult)) ∧
      legal (k.regReq.getD (p.regRecLen * p.rbMult)) ∧
      legal (k.workReq.getD (p.workFrameLen * p.rbMult)) ∧
      legal (k.dlReq.getD (p.dlFrameLen * p.rbMult))
    (typed → lengths → sizes → ∃ s, initialise b = .next s) ∧
    (typed → lengths → ¬ sizes → initialise b = .refused .badSize) ∧
    (typed → ¬ lengths → initialise b = .refused .badFrameLength) ∧
    (¬ typed → initialise b = .refused .badParameter)

/-- The reset state of the model is what the initialisation gives for the configuration the model chose (assumption logs 2 to 6),
the replies of the sequence left out. -/
def Obligations.ResetIsTheInitialisedBlock : Prop :=
  ∃ s, initialise Config.boot = .next s ∧ State.reset = { s with replies := [] }

/-- The invariants hold of the machine right after reset: those of the rings and parsers, that nothing is held in an instance that
is shut down, and that every instance there can be exists. -/
def Obligations.ResetMeetsTheInvariant : Prop :=
  State.reset.Wf ∧ State.reset.Quiet ∧ State.reset.Complete

/-! ## Invariants of every step -/

/-- Every step keeps the invariants of 10_state.md R24 for every ring instance, with the invariants of the parsers beside them
(R30 a, and b as a bound on `WANT`) and the canonical form of the byte storages. -/
def Obligations.StepKeepsTheInvariant : Prop :=
  ∀ s t : State, s.Wf → step s = .next t →
    t.Wf ∧
    (∀ (rb : RingId) (r : Ring), t.ring? rb = some r →
      (r.ri.toNat < r.size ∧ r.wi.toNat < r.size) ∧ r.dataLen ≤ r.size ∧
      r.dataLen + r.spaceLen = r.size ∧
      (r.ri.toNat < r.wi.toNat → r.wm = r.rm) ∧ (r.wi.toNat < r.ri.toNat → r.wm ≠ r.rm) ∧
      ∀ x ∈ r.content, x.isSome) ∧
    (∀ (c : Nat) (ch : Chain), t.chains[c]? = some ch →
      1 ≤ ch.parser.want ∧ ch.parser.want ≤ 255)

/-- From a state that meets the invariant no run faults: no byte of `BUF` is read that nothing has written (10_state.md R16,
R24 e). That such a read would fault is the model's (assumption log 13); `SCR` holds a value in every byte and has no fault. -/
def Obligations.InvariantMeansNoFault : Prop := ∀ s : State, s.Wf → Safe s

/-- Configuration is never written: the parameters, the number of chains, `SIZE` and `MODE` of every instance that exists,
`FMT` and `CHAIN_ID` of every parser, and which chains were started are the same after every step (10_state.md R14, R15, R25, R32;
20_memory.md R54; 40_ringbuffer.md R84; 60_exceptions.md R177). -/
def Obligations.StepKeepsTheConfiguration : Prop :=
  ∀ s t : State, step s = .next t →
    t.params = s.params ∧ t.chains.length = s.chains.length ∧
    (∀ (rb : RingId) (r : Ring), s.ring? rb = some r →
      ∃ r', t.ring? rb = some r' ∧ r'.size = r.size ∧ r'.mode = r.mode) ∧
    (∀ (c : Nat) (ch : Chain), s.chains[c]? = some ch →
      ∃ ch', t.chains[c]? = some ch' ∧ ch'.parser.fmt = ch.parser.fmt ∧
        ch'.parser.chainId = ch.parser.chainId ∧ ch'.aborted = ch.aborted)

/-- State that moves one way only: `SHUT` is never cleared (10_state.md R22, 40_ringbuffer.md R97), `PROTO_ERR_CNT` is cleared by
nothing but reset and never falls (10_state.md R31), and an agent that has stopped, or whose chain has been shut down, stays so
(70_reset_and_hazards.md R183; assumption log 17). -/
def Obligations.OneWayStateNeverGoesBack : Prop :=
  ∀ s t : State, step s = .next t →
    (∀ (rb : RingId) (r : Ring), s.ring? rb = some r → r.shut = true →
      ∃ r', t.ring? rb = some r' ∧ r'.shut = true) ∧
    (∀ (c : Nat) (ch : Chain), s.chains[c]? = some ch →
      ∃ ch', t.chains[c]? = some ch' ∧ ch.parser.protoErr ≤ ch'.parser.protoErr ∧
        (ch.rxStopped = true → ch'.rxStopped = true) ∧
        (ch.workStopped = true → ch'.workStopped = true) ∧ (ch.dlStopped = true → ch'.dlStopped = true) ∧
        (ch.shutDown = true → ch'.shutDown = true))

/-- The read-out of `PROTO_ERR_CNT` in hardware (10_state.md R31; assumption log 16): `CNT_W` bits wide, equal to the count as long
as that fits, and saturating: no step makes it fall, and at its maximum it stays. -/
def Obligations.ErrorCounterSaturates : Prop :=
  ∀ (s t : State) (c : Nat) (ch : Chain), step s = .next t → s.chains[c]? = some ch →
    ∃ ch', t.chains[c]? = some ch' ∧
      let shown := ch.parser.protoErrShown s.params
      let shown' := ch'.parser.protoErrShown t.params
      shown < 2 ^ s.params.cntW ∧
      (ch.parser.protoErr < 2 ^ s.params.cntW → shown = ch.parser.protoErr) ∧
      shown ≤ shown' ∧ (shown = 2 ^ s.params.cntW - 1 → shown' = shown)

/-- After `RB.SHUTDOWN` an instance never holds (40_ringbuffer.md R97): that no instance which is shut down holds a request is
kept by every step. -/
def Obligations.NothingIsHeldAfterShutdown : Prop :=
  ∀ s t : State, s.Quiet → step s = .next t → t.Quiet

/-- The set of instances never changes after initialisation (00_scope.md R9, 92_eei_decisions.md D28): every step keeps that every
instance exists but those of chains that were not started; such a chain is left as it is, since its agents never step
(60_exceptions.md R177); and `RB.INIT` is refused on every name. -/
def Obligations.StepKeepsTheSetOfInstances : Prop :=
  ∀ s : State, s.Complete →
    (∀ t : State, step s = .next t → t.Complete ∧
      (∀ rb, (t.ring? rb).isSome = (s.ring? rb).isSome) ∧
      ∀ (c : Nat) (ch : Chain), s.chains[c]? = some ch → ch.aborted = true →
        ∃ ch', t.chains[c]? = some ch' ∧ ch'.aborted = true ∧ ch'.parser = ch.parser ∧
          ch'.rxs = ch.rxs ∧ ch'.txs = ch.txs ∧ ch'.sendAnswers = ch.sendAnswers) ∧
    (∀ rb n m, exec (.rbInit rb n m) s = .refused
      (if s.named rb = false then .noSuchChain else if s.abortedAt rb = true then .chainAborted
        else .reInit))

/-- Chains are independent (43_pipeline.md R140), what an operation writes: an operation on one chain, or on `PMON_RING`, or on
nothing, leaves every other chain's parser, rings and streams as they are, and `PMON_RING` too when it is not the instance
named. -/
def Obligations.ChainsAreIndependent : Prop :=
  ∀ (i : Instr) (s t : State), s.Wf → exec i s = .next t →
    (∀ (c : Nat) (ch : Chain), place i ≠ some (some c) → s.chains[c]? = some ch →
      ∃ ch', t.chains[c]? = some ch' ∧ ch'.parser = ch.parser ∧ ch'.nonce = ch.nonce ∧
        ch'.reg = ch.reg ∧ ch'.work = ch.work ∧ ch'.dl = ch.dl ∧ ch'.rxs = ch.rxs ∧ ch'.txs = ch.txs) ∧
    (place i ≠ some none → t.pmon = s.pmon)

/-- Chains are independent (43_pipeline.md R140), what an operation reads: in two states that agree on the chain it works on, or on
`PMON_RING`, and on the parameters, the requester and the model's own lists, however they differ elsewhere, an operation gives the
same answer, and two next states that agree in the same way. -/
def Obligations.OperationsReadOnlyTheirPlace : Prop :=
  ∀ (i : Instr) (s s' : State), s.Wf → AgreeAt (place i) s s' →
    (∀ t, exec i s = .next t → ∃ t', exec i s' = .next t' ∧ AgreeAt (place i) t t') ∧
    (∀ e, exec i s = .fault e → exec i s' = .fault e) ∧
    (∀ e, exec i s = .refused e → exec i s' = .refused e)

/-- Giving an instance new contents gives that instance and leaves every other one, every parser, stream and run flag, the
parameters and the turns as they are: the frame of every ring operation below. -/
def Obligations.SettingAnInstanceLeavesTheRest : Prop :=
  ∀ (s : State) (rb : RingId) (r : Ring), s.named rb = true →
    (s.setRing rb r).ring? rb = some r ∧ s.SameExceptRing (s.setRing rb r) rb ∧
      (s.setRing rb r).replies = s.replies

/-- An agent of the block that is cancelled stops, and nothing else changes; a host agent is outside the block (43_pipeline.md
R131, 70_reset_and_hazards.md R183; the flag is the model's, assumption log 17). -/
def Obligations.CancelledAgentsStop : Prop :=
  ∀ (s : State) (c : Nat) (ch : Chain) (n : Nat), s.chains[c]? = some ch →
    s.stopAgent (.host n) = s ∧
    s.stopAgent (.rx c) = s.setChain c { ch with rxStopped := true } ∧
    s.stopAgent (.tx c .work) = s.setChain c { ch with workStopped := true } ∧
    s.stopAgent (.tx c .dl) = s.setChain c { ch with dlStopped := true }

/-! ## Ring operations -/

/-- `RB.INIT` on a name without an instance makes an empty one of the rounded size with the policy asked for (40_ringbuffer.md
R82); a size that rounds to 0 or above 32767 is refused. -/
def Obligations.RbInitMakesAnEmptyInstance : Prop :=
  ∀ (s : State) (rb : RingId) (n : Nat) (m : Mode), s.named rb = true → s.abortedAt rb = false →
    s.ring? rb = none →
    let size := n / s.params.rbAlign * s.params.rbAlign
    (1 ≤ size → size ≤ 32767 →
      ∃ r : Ring, exec (.rbInit rb n m) s = .next ((s.setRing rb r).reply s.who .none .none) ∧
        r.size = size ∧ r.mode = m ∧ r.ri = 0#15 ∧ r.wi = 0#15 ∧ r.rm = false ∧ r.wm = false ∧
        r.shut = false ∧ r.pending = [] ∧ r.content = []) ∧
    (size = 0 ∨ 32767 < size → exec (.rbInit rb n m) s = .refused .badSize)

/-- The refusals of `RB.INIT` (R83): a request below `RB_ALIGN`, one that rounds above 32767, and a second `RB.INIT`. -/
def Obligations.RbInitRefusals : Prop :=
  ∀ (s : State) (rb : RingId) (n : Nat) (m : Mode), s.named rb = true → s.abortedAt rb = false →
    (s.ring? rb = none → n < s.params.rbAlign → exec (.rbInit rb n m) s = .refused .badSize) ∧
    (s.ring? rb = none → 32767 < n / s.params.rbAlign * s.params.rbAlign →
      exec (.rbInit rb n m) s = .refused .badSize) ∧
    (∀ r, s.ring? rb = some r → exec (.rbInit rb n m) s = .refused .reInit)

/-- A ring operation on an instance that `RB.INIT` has not made is refused (40_ringbuffer.md R84); every operation that names a chain
there is not is refused (30_encoding.md R73), and so is every operation that names a chain whose startup was aborted
(60_exceptions.md R177; its flag is assumption log 19), and `RB.INIT` of one of its rings;
and a parser takes nothing before its start-up `PS.RESET` (93_implementation_defined.md U10; assumption log 19). -/
def Obligations.OperationsNeedTheirInstance : Prop :=
  ∀ (s : State) (rb : RingId) (c : Nat) (d : List Byte) (n : Nat) (m : Mode) (w : Which) (fmt : Fmt)
    (name : OpName) (op addr ack cksum : Byte),
    let onRings := [Instr.rbPutPolling rb d, .rbPutBlocking rb d, .rbGetPolling rb n,
      .rbGetBlocking rb n, .rbPutForce rb d, .rbDataLen rb, .rbSpaceLen rb, .rbStatus rb, .rbShutdown rb]
    let onParsers := [Instr.psRx c d, .psWant c, .dspStep c, wireInstr fmt name c addr ack cksum d,
      unknownInstr fmt c op addr ack cksum d]
    (s.ring? rb = none → ∀ i ∈ onRings,
      exec i s = .refused (if s.named rb = true then .noSuchInstance else .noSuchChain)) ∧
    (s.named rb = false → exec (.rbInit rb n m) s = .refused .noSuchChain) ∧
    (s.named rb = true → s.abortedAt rb = true → exec (.rbInit rb n m) s = .refused .chainAborted) ∧
    (s.chains[c]? = none → ∀ i ∈ onParsers ++ [.psReset c, .txStep c w],
      exec i s = .refused .noSuchChain) ∧
    (∀ ch, s.chains[c]? = some ch → ch.aborted = true → ∀ i ∈ onParsers ++ [.psReset c, .txStep c w],
      exec i s = .refused .chainAborted) ∧
    (∀ ch, s.chains[c]? = some ch → ch.aborted = false → ch.parser.ready = false → ∀ i ∈ onParsers,
      exec i s = .refused .parserNotReset)

/-- `RB.PUT` on a polling instance stores the first `min(len, SPACE_LEN)` bytes, returns their number, and is never held (R85);
the instance's policy decides, whichever row the request came from (R89). That a reply also notes the bytes that moved is the
model's (assumption log 15). -/
def Obligations.PollingPutStoresWhatFits : Prop :=
  ∀ (s : State) (rb : RingId) (r : Ring) (data : List Byte) (i : Instr),
    s.ring? rb = some r → r.Wf → r.mode = .polling →
    i = .rbPutPolling rb data ∨ i = .rbPutBlocking rb data →
    let k := min data.length r.spaceLen
    ∃ r', r.Stored r' (data.take k) ∧
      exec i s = .next ((s.setRing rb r').reply s.who (.count k) .none (.put rb (data.take k)))

/-- `RB.PUT` on a blocking instance (R86, R89): with room for all of it, it stores all of it and returns the length; without room
it is cancelled with count 0 if the instance is shut down and is held otherwise, with nothing stored either way. An agent of the
block that is cancelled stops (43_pipeline.md R131, 70_reset_and_hazards.md R183; its run flag is assumption log 17). That a reply
also notes the bytes that moved is the model's (assumption log 15). -/
def Obligations.BlockingPutIsAllOrNothing : Prop :=
  ∀ (s : State) (rb : RingId) (r : Ring) (data : List Byte) (i : Instr),
    s.ring? rb = some r → r.Wf → r.mode = .blocking →
    i = .rbPutPolling rb data ∨ i = .rbPutBlocking rb data →
    (data.length ≤ r.spaceLen → ∃ r', r.Stored r' data ∧
      exec i s = .next ((s.setRing rb r').reply s.who (.count data.length) .none (.put rb data))) ∧
    (r.spaceLen < data.length → r.shut = true →
      exec i s = .next ((s.stopAgent s.who).reply s.who (.count 0) .cancelled)) ∧
    (r.spaceLen < data.length → r.shut = false →
      exec i s = .next (s.setRing rb { r with pending := r.pending ++ [.put s.who data] }))

/-- `RB.GET` on a polling instance returns and removes the `min(n, DATA_LEN)` oldest bytes and is never held (R87, R89). That
a reply also notes the bytes that moved is the model's (assumption log 15). -/
def Obligations.PollingGetReturnsWhatIsThere : Prop :=
  ∀ (s : State) (rb : RingId) (r : Ring) (n : Nat) (i : Instr),
    s.ring? rb = some r → r.Wf → r.mode = .polling →
    i = .rbGetPolling rb n ∨ i = .rbGetBlocking rb n →
    let k := min n r.dataLen
    ∃ r' out, r.Taken r' k out ∧
      exec i s = .next ((s.setRing rb r').reply s.who (.data out) .none (.got rb out))

/-- `RB.GET` on a blocking instance (R88, R89): with `n` bytes there it returns exactly `n`; without, it is cancelled with no
bytes if the instance is shut down and is held otherwise, with nothing removed either way. An agent of the block that is cancelled
stops (43_pipeline.md R131, 70_reset_and_hazards.md R183; its run flag is assumption log 17). That a reply also notes the bytes
that moved is the model's (assumption log 15). -/
def Obligations.BlockingGetIsAllOrNothing : Prop :=
  ∀ (s : State) (rb : RingId) (r : Ring) (n : Nat) (i : Instr),
    s.ring? rb = some r → r.Wf → r.mode = .blocking →
    i = .rbGetPolling rb n ∨ i = .rbGetBlocking rb n →
    (n ≤ r.dataLen → ∃ r' out, r.Taken r' n out ∧
      exec i s = .next ((s.setRing rb r').reply s.who (.data out) .none (.got rb out))) ∧
    (r.dataLen < n → r.shut = true →
      exec i s = .next ((s.stopAgent s.who).reply s.who (.data []) .cancelled)) ∧
    (r.dataLen < n → r.shut = false →
      exec i s = .next (s.setRing rb { r with pending := r.pending ++ [.get s.who n] }))

/-- `RB.PUT_FORCE` (R91) never waits: bytes that fit are put; otherwise the read cursor jumps to the write cursor with the mirrors
different and the ring holds the newest `SIZE` bytes; more than `SIZE` bytes are refused (R92). That a reply also notes the bytes
that moved is the model's (assumption log 15). -/
def Obligations.ForcedPutKeepsTheNewest : Prop :=
  ∀ (s : State) (rb : RingId) (r : Ring) (data : List Byte), s.ring? rb = some r → r.Wf →
    (data.length ≤ r.spaceLen → ∃ r', r.Stored r' data ∧
      exec (.rbPutForce rb data) s = .next ((s.setRing rb r').reply s.who (.count data.length) .none
        (.forced rb data 0))) ∧
    (r.spaceLen < data.length → data.length ≤ r.size → ∃ r' : Ring,
      exec (.rbPutForce rb data) s = .next ((s.setRing rb r').reply s.who (.count data.length) .none
        (.forced rb data (r.dataLen + data.length - r.size))) ∧
      (r'.size = r.size ∧ r'.mode = r.mode ∧ r'.shut = r.shut ∧ r'.pending = r.pending) ∧
      r'.wi.toNat = (r.wi.toNat + data.length) % r.size ∧
      r'.wm = (if r.wi.toNat + data.length < r.size then r.wm else !r.wm) ∧
      r'.ri = r'.wi ∧ r'.rm = (!r'.wm) ∧
      (∀ a, r.Untouched data.length a → Mem.read r'.buf a = Mem.read r.buf a) ∧
      r'.content = (r.content ++ data.map some).drop (r.dataLen + data.length - r.size) ∧
      r'.dataLen = r.size) ∧
    (r.size < data.length → exec (.rbPutForce rb data) s = .refused .forceTooLong)

/-- The status reads change nothing but tell `DATA_LEN` (R93), `SPACE_LEN` (R94) and the status (R95), which is `EMPTY` exactly
when nothing is held and `FULL` exactly when the ring holds `SIZE` bytes. -/
def Obligations.StatusReadsTellTheCursors : Prop :=
  ∀ (s : State) (rb : RingId) (r : Ring), s.ring? rb = some r → r.Wf →
    exec (.rbDataLen rb) s = .next (s.reply s.who (.count r.content.length) .none) ∧
    exec (.rbSpaceLen rb) s = .next (s.reply s.who (.count (r.size - r.content.length)) .none) ∧
    exec (.rbStatus rb) s = .next (s.reply s.who (.status
      (if r.ri = r.wi ∧ r.rm = r.wm then .empty else if r.ri = r.wi ∧ r.rm ≠ r.wm then .full
        else .partly)) .none) ∧
    (r.content.length ≤ r.size ∧ (r.ri = r.wi ∧ r.rm = r.wm ↔ r.content.length = 0) ∧
      (r.ri = r.wi ∧ r.rm ≠ r.wm ↔ r.content.length = r.size))

/-- `DATA_LEN`, the difference of the extended cursors modulo twice the capacity, unfolded by cases (10_state.md R19). -/
def Obligations.DataLenUnfoldsByCases : Prop :=
  ∀ r : Ring, r.Wf →
    r.dataLen = (r.wm.toNat * r.size + r.wi.toNat + 2 * r.size - (r.rm.toNat * r.size + r.ri.toNat)) %
      (2 * r.size) ∧
    r.dataLen =
      (if r.wi = r.ri then (if r.wm = r.rm then 0 else r.size)
       else if r.ri.toNat < r.wi.toNat then r.wi.toNat - r.ri.toNat
       else r.size - (r.ri.toNat - r.wi.toNat))

/-- A polling put followed at once by a polling put of the rejected remainder stores nothing more (40_ringbuffer.md R90 d), and
the first raised `DATA_LEN` by what it returned (R90 b). That a reply also notes the bytes that moved is the model's (assumption
log 15). -/
def Obligations.RejectedRemainderStoresNothing : Prop :=
  ∀ (s t : State) (rb : RingId) (r : Ring) (data : List Byte), s.ring? rb = some r → r.Wf →
    r.mode = .polling → exec (.rbPutPolling rb data) s = .next t →
    ∃ (k : Nat) (r' : Ring),
      t.replies = ⟨s.who, .count k, .none, .put rb (data.take k)⟩ :: s.replies ∧
      t.ring? rb = some r' ∧ r'.dataLen = r.dataLen + k ∧
      exec (.rbPutPolling rb (data.drop k)) t = .next (t.reply t.who (.count 0) .none (.put rb []))

/-- First in, first out (20_memory.md R47, R48; 40_ringbuffer.md R90 c), over any run of steps and whatever is done in between:
requests of any agents, held requests going on, frames routed by RX agents, frames fetched by TX agents, shutdowns. The replies
hold one total order of the completed operations of the instance (what each moved is noted there, assumption log 15), and carrying
them out one after another on its contents gives its contents now: every get returned the oldest bytes. Where no put was forced,
what was held, then what was accepted, is what was returned, then what is held. -/
def Obligations.BytesComeOutInTheOrderTheyWentIn : Prop :=
  ∀ (s t : State) (rb : RingId) (r : Ring), s.Wf → Runs s t → s.ring? rb = some r →
    ∃ (new : List Reply) (r' : Ring), t.replies = new ++ s.replies ∧ t.ring? rb = some r' ∧
      let done := (new.map Reply.moved).reverse
      replay rb done r.content = some r'.content ∧
      ((∀ m ∈ done, m.unforced rb = true) →
        r.content ++ (done.flatMap (Moved.accepted rb)).map some =
          (done.flatMap (Moved.returned rb)).map some ++ r'.content)

/-- `RB.SHUTDOWN` (40_ringbuffer.md R96). It completes and leaves the instance shut down and holding nothing, if every TX agent's
frame length is one the initialisation accepts and the instance's chain was started. When no held request can complete, each
requester is told it was cancelled, in some order (the environment's, assumption log 9), the instance's registers and bytes stay as
they are, and no parser, stream or other instance changes. On an instance already shut down it changes nothing. -/
def Obligations.ShutdownReleasesEveryHold : Prop :=
  ∀ (s : State) (rb : RingId) (r : Ring), s.ring? rb = some r →
    (s.Wf → s.abortedAt rb = false → FrameLengthOk s.params.workFrameLen →
      FrameLengthOk s.params.dlFrameLen →
      ∃ t r', exec (.rbShutdown rb) s = .next t ∧ t.ring? rb = some r' ∧ r'.shut = true ∧
        r'.pending = []) ∧
    (r.HeldInPlace rb → (∀ h ∈ r.pending, h.met (frameLen s.params) r = false) →
      ∃ t replies, exec (.rbShutdown rb) s = .next t ∧
        t.ring? rb = some { r with shut := true, pending := [] } ∧
        (∀ rb', rb' ≠ rb → t.ring? rb' = s.ring? rb') ∧
        replies.Perm (r.pending.map Held.cancelled) ∧
        t.replies = replies ++ ⟨s.who, .none, .none, .nothing⟩ :: s.replies ∧
        (∀ (c : Nat) (ch : Chain), s.chains[c]? = some ch → ∃ ch', t.chains[c]? = some ch' ∧
          ch'.parser = ch.parser ∧ ch'.rxs = ch.rxs ∧ ch'.txs = ch.txs) ∧
        t.params = s.params ∧ t.turns = s.turns) ∧
    (r.shut = true → r.pending = [] →
      exec (.rbShutdown rb) s = .next (s.reply s.who .none .none))

/-- Shutting a chain down (70_reset_and_hazards.md R183): `RB.SHUTDOWN` on each of its four rings, in whatever order (assumption
log 28), completes and leaves every one shut down and holding nothing; and from then on, over any run, neither the chain's RX agent
nor its TX agents take a step: `DSP.STEP` and `TX.STEP` change nothing, whatever waits on the stream or in a ring. That a chain is
shut down when all its rings are is assumption log 17. -/
def Obligations.ChainShutdownHaltsItsAgents : Prop :=
  ∀ (s : State) (c : Nat) (ch : Chain) (rbs : List RingId), s.Wf → s.chains[c]? = some ch →
    ch.aborted = false → ch.parser.ready = true →
    ch.nonce.isSome → ch.reg.isSome → ch.work.isSome → ch.dl.isSome →
    FrameLengthOk s.params.workFrameLen → FrameLengthOk s.params.dlFrameLen →
    rbs.Perm [.nonce c, .reg c, .work c, .dl c] →
    ∃ t, execAll (rbs.map Instr.rbShutdown) s = .next t ∧
      (∀ rb ∈ rbs, ∃ r, t.ring? rb = some r ∧ r.shut = true ∧ r.pending = []) ∧
      ∀ u, Runs t u → exec (.dspStep c) u = .next u ∧ ∀ w, exec (.txStep c w) u = .next u

/-- A held request is re-examined against the present state (20_memory.md R52, 60_exceptions.md R167), whichever of several is
looked at (R166; that this is a step of its own is assumption log 8): a put or get whose condition holds leaves `PENDING` and
completes whole, and a TX agent's get goes on to the stamp and the send (43_pipeline.md R131); one whose condition fails stays
held, unless the instance is shut down: then it is cancelled, and an agent of the block stops (its run flag is assumption
log 17). The answers of the transport are assumption log 10, that a reply also notes the bytes that moved assumption log 15. -/
def Obligations.HeldRequestsGoOnWhenTheyCan : Prop :=
  ∀ (s : State) (rb : RingId) (k : Nat) (rest : List Turn) (r : Ring) (h : Held),
    s.turns = .resume rb k :: rest → s.ring? rb = some r → r.Wf → r.pending[k]? = some h →
    let s0 : State := { s with turns := rest }
    let r0 : Ring := { r with pending := r.pending.eraseIdx k }
    (∀ who d, h = .put who d → d.length ≤ r.spaceLen → ∃ r', r0.Stored r' d ∧
      step s = .next ((s0.setRing rb r').reply who (.count d.length) .none (.put rb d))) ∧
    (∀ who n, h = .get who n → n ≤ r.dataLen → ∃ r' out, r0.Taken r' n out ∧
      step s = .next ((s0.setRing rb r').reply who (.data out) .none (.got rb out))) ∧
    (∀ c w ch, h = .txGet c w → rb = outRing w c → s.chains[c]? = some ch → ch.aborted = false →
      FrameLengthOk (frameLen s.params w) → frameLen s.params w ≤ r.dataLen →
      ∃ r' image frame t, r0.Taken r' (frameLen s.params w) image ∧
        pack s.params.ck (image.getD 2 0#8) (image.getD 3 0#8) (image.drop 6) = .ok frame ∧
        step s = .next t ∧
        SendAnswer (.tx c w) c (ch.setRing rb r') frame (.got rb image) (s0.setRing rb r') t) ∧
    (h.met (frameLen s.params) r = false → r.shut = false → step s = .next s0) ∧
    (∀ who d, h = .put who d → r.spaceLen < d.length → r.shut = true →
      step s = .next (((s0.setRing rb r0).stopAgent who).reply who (.count 0) .cancelled)) ∧
    (∀ who n, h = .get who n → r.dataLen < n → r.shut = true →
      step s = .next (((s0.setRing rb r0).stopAgent who).reply who (.data []) .cancelled)) ∧
    (∀ c w, h = .txGet c w → rb = outRing w c → r.dataLen < frameLen s.params w → r.shut = true →
      step s = .next (((s0.setRing rb r0).stopAgent (.tx c w)).reply (.tx c w) .none .cancelled))

/-- A request larger than the ring is never enabled before a shutdown (70_reset_and_hazards.md R185). -/
def Obligations.OversizedRequestsAreNeverEnabled : Prop :=
  ∀ (fl : Which → Nat) (r : Ring) (who : Agent) (data : List Byte) (n : Nat), r.Wf → r.shut = false →
    (r.size < data.length → (Held.put who data).enabled fl r = false) ∧
    (r.size < n → (Held.get who n).enabled fl r = false)

/-! ## The pack side -/

/-- `FC.PACK` (41_framecodec_pack.md R103) returns the frame whose checksum is `CK` of the frame with a zero checksum byte, and
changes no state; a payload over 255 bytes is refused (R104). -/
def Obligations.PackBuildsTheFrame : Prop :=
  ∀ (s : State) (op addr : Byte) (payload : List Byte),
    (payload.length ≤ 255 →
      let z : List Byte := [0x55#8, 0xAA#8, op, addr, BitVec.ofNat 8 payload.length, 0x00#8] ++ payload
      exec (.fcPack op addr payload) s = .next (s.reply s.who
        (.frame ([0x55#8, 0xAA#8, op, addr, BitVec.ofNat 8 payload.length, CkSel.eval s.params.ck z] ++
          payload)) .none)) ∧
    (255 < payload.length → exec (.fcPack op addr payload) s = .refused .payloadTooLong)

/-- The laws of `FC.PACK` (R105): length, fields, validity, and injectivity in the three operands even where the checksum byte is
left out of the comparison. -/
def Obligations.PackLaws : Prop :=
  ∀ (ck : CkSel) (op addr : Byte) (payload frame : List Byte), pack ck op addr payload = .ok frame →
    frame.length = 6 + payload.length ∧
    frame.getD 0 0#8 = 0x55#8 ∧ frame.getD 1 0#8 = 0xAA#8 ∧ frame.getD 2 0#8 = op ∧
    frame.getD 3 0#8 = addr ∧ (frame.getD 4 0#8).toNat = payload.length ∧ frame.drop 6 = payload ∧
    FrameValid ck .cmd frame ∧
    (∀ (op' addr' : Byte) (payload' frame' : List Byte), pack ck op' addr' payload' = .ok frame' →
      (op, addr, payload) ≠ (op', addr', payload') → frame.eraseIdx 5 ≠ frame'.eraseIdx 5)

/-- `FC.STAMP` (R106): an image of at least 6 bytes is packed from its opcode, its address and its payload, whatever its other
header bytes hold; the result has the image's length; a packed frame comes back unchanged; a shorter image, or a payload over
255 bytes, is refused; no state changes. -/
def Obligations.StampRewritesTheHeader : Prop :=
  ∀ (s : State) (image : List Byte),
    (6 ≤ image.length → image.length ≤ 261 → ∃ frame,
      pack s.params.ck (image.getD 2 0#8) (image.getD 3 0#8) (image.drop 6) = .ok frame ∧
      exec (.fcStamp image) s = .next (s.reply s.who (.frame frame) .none) ∧
      frame.length = image.length ∧
      exec (.fcStamp frame) s = .next (s.reply s.who (.frame frame) .none)) ∧
    (261 < image.length → exec (.fcStamp image) s = .refused .payloadTooLong) ∧
    (image.length < 6 → exec (.fcStamp image) s = .refused .imageTooShort)

/-- The two candidate checksum functions (R102): the sum of all bytes modulo 256, the exclusive-or of all bytes, 0 on the empty
list; and both satisfy `CK_BITFLIP` (R101). -/
def Obligations.ChecksumCandidates : Prop :=
  (∀ l : List Byte, (sum8 l).toNat = (l.map BitVec.toNat).sum % 256) ∧
  (∀ l : List Byte, xor8 l = l.foldl (· ^^^ ·) 0x00#8) ∧
  sum8 [] = 0x00#8 ∧ xor8 [] = 0x00#8 ∧ CkBitflip sum8 ∧ CkBitflip xor8

/-! ## The parser -/

/-- `PS.RX` in `S_P1` and `S_P2` on the byte at the front of the stream (42_parser.md R110, R111): a matching byte is stored and
the parser moves on; any other is discarded, in `S_P2` together with the byte before, and not looked at again. Storing a byte
changes that byte of `SCR` and no other. -/
def Obligations.PreambleSearch : Prop :=
  ∀ (s : State) (c : Nat) (ch : Chain) (b : Byte) (rest : List Byte),
    s.chains[c]? = some ch → ch.aborted = false → ch.parser.ready = true → ch.rxs = b :: rest →
    let after := fun p : Parser =>
      ((s.setChain c { ch with parser := p, rxs := rest }).reply s.who .none .none)
    (ch.parser.ps = .p1 → b = ch.parser.fmt.p1 → exec (.psRx c [b]) s =
      .next (after { ch.parser with ps := .p2, acc := 1#10, scr := Scr.write ch.parser.scr 0 b })) ∧
    (ch.parser.ps = .p1 → b ≠ ch.parser.fmt.p1 → exec (.psRx c [b]) s = .next (after ch.parser)) ∧
    (ch.parser.ps = .p2 → b = ch.parser.fmt.p2 → exec (.psRx c [b]) s =
      .next (after { ch.parser with ps := .hdr, acc := 2#10, scr := Scr.write ch.parser.scr 1 b })) ∧
    (ch.parser.ps = .p2 → b ≠ ch.parser.fmt.p2 → exec (.psRx c [b]) s =
      .next (after { ch.parser with ps := .p1, acc := 0#10 })) ∧
    (∀ i j, Scr.read (Scr.write ch.parser.scr i b) j = if j = i then b else Scr.read ch.parser.scr j)

/-- `PS.RX` in `S_HDR` on the rest of a header (R113): a header that announces a payload is stored and the parser asks for the
payload; one that announces none is a whole frame and is judged in the same step. The bytes of `SCR` outside the header are as
before. -/
def Obligations.HeaderUnit : Prop :=
  ∀ (s : State) (c : Nat) (ch : Chain) (bytes rest : List Byte),
    s.chains[c]? = some ch → ch.aborted = false → ch.parser.ready = true → ch.parser.Wf →
    ch.parser.ps = .hdr →
    ch.rxs = bytes ++ rest → bytes.length = ch.parser.fmt.headerLen - 2 →
    let p := ch.parser
    let f := [p.fmt.p1, p.fmt.p2] ++ bytes
    let scr := Scr.writeList p.scr 2 bytes
    (∀ i, Scr.read scr i =
      if 2 ≤ i ∧ i < p.fmt.headerLen then bytes.getD (i - 2) 0#8 else Scr.read p.scr i) ∧
    (f.getD p.fmt.lenOff 0#8 ≠ 0#8 → ∃ q : Parser,
      q = { p with ps := .body, acc := BitVec.ofNat 10 p.fmt.headerLen, scr := scr } ∧
      q.frame = f ∧ q.want = (f.getD p.fmt.lenOff 0#8).toNat ∧
      exec (.psRx c bytes) s =
        .next ((s.setChain c { ch with parser := q, rxs := rest }).reply s.who .none .none)) ∧
    (f.getD p.fmt.lenOff 0#8 = 0#8 →
      exec (.psRx c bytes) s =
        .next ((s.setChain c { ch with
            parser := p.judged scr (judge s.params p.fmt p.chainId f), rxs := rest }).reply
          s.who .none (judge s.params p.fmt p.chainId f)))

/-- `PS.RX` in `S_BODY` on the announced payload (R116): the candidate is the frame under assembly with the payload behind it. If
`CK` of it with a zero checksum byte is not its checksum byte, the error counter goes up and the event is `EV_CKSUM` (R114);
otherwise the opcode alone decides between a nonce record, a register record, both with `CHAIN_ID` behind them, and an unknown
opcode (R115). The parser is back in `S_P1` with nothing accumulated in every case, with the payload left in `SCR` behind the header and
every other byte of it as before. -/
def Obligations.BodyUnit : Prop :=
  ∀ (s : State) (c : Nat) (ch : Chain) (f bytes rest : List Byte),
    s.chains[c]? = some ch → ch.aborted = false → ch.parser.ready = true → ch.parser.Wf →
    ch.parser.ps = .body →
    ch.parser.frame = f → ch.rxs = bytes ++ rest →
    bytes.length = (f.getD ch.parser.fmt.lenOff 0#8).toNat →
    let p := ch.parser
    let candidate := f ++ bytes
    let good := CkSel.eval s.params.ck (withByte candidate p.fmt.ckOff 0#8) =
      candidate.getD p.fmt.ckOff 0#8
    let op := candidate.getD p.fmt.opOff 0#8
    let scr := Scr.writeList p.scr p.fmt.headerLen bytes
    let after := fun (err : Nat) (ev : Event) =>
      ((s.setChain c { ch with
          parser := { p with
            ps := .p1, acc := 0#10, scr := scr, protoErr := p.protoErr + err }
          rxs := rest }).reply s.who .none ev)
    (¬ good → exec (.psRx c bytes) s = .next (after 1 .cksum)) ∧
    (good → op = s.params.opmap.returnNonce →
      exec (.psRx c bytes) s = .next (after 0 (.frame .nonce (candidate ++ [p.chainId])))) ∧
    (good → op ≠ s.params.opmap.returnNonce → op ∈ s.params.opmap.recognized →
      exec (.psRx c bytes) s = .next (after 0 (.frame .regack (candidate ++ [p.chainId])))) ∧
    (good → op ∉ s.params.opmap.recognized →
      exec (.psRx c bytes) s = .next (after 0 (.unknownOpcode candidate))) ∧
    (∀ i, Scr.read scr i = if p.fmt.headerLen ≤ i ∧ i < p.fmt.headerLen + bytes.length then
      bytes.getD (i - p.fmt.headerLen) 0#8 else Scr.read p.scr i)

/-- A short read changes nothing (R117): fewer bytes than `WANT`, or `WANT` bytes asked for while the stream has fewer (20_memory.md
R56). More bytes than `WANT` are refused (R121), and so are `WANT` bytes that are not the front of a stream that has as many
(assumption log 14). -/
def Obligations.ShortReadsAndRefusals : Prop :=
  ∀ (s : State) (c : Nat) (ch : Chain) (bytes : List Byte), s.chains[c]? = some ch →
    ch.aborted = false → ch.parser.ready = true →
    let w := ch.parser.want
    (bytes.length < w ∨ bytes.length = w ∧ ch.rxs.length < w →
      exec (.psRx c bytes) s = .next (s.reply s.who .none .none)) ∧
    (w < bytes.length → exec (.psRx c bytes) s = .refused .overread) ∧
    (bytes.length = w → w ≤ ch.rxs.length → ¬ bytes <+: ch.rxs →
      exec (.psRx c bytes) s = .refused .notOnStream)

/-- `PS.RESET` sets `S_P1` and an empty accumulation and leaves `SCR`, `FMT`, `CHAIN_ID` and the error counter alone (R118);
`PS.WANT` tells 1, 1, the rest of the header, or the announced length, `SCR[LEN_OFF]`, with no side effect (R119, 10_state.md R29),
and that byte is the length byte of the frame under assembly. That `PS.RESET`
also makes the parser usable is a flag of the model's (assumption log 19). -/
def Obligations.ParserResetAndWant : Prop :=
  ∀ (s : State) (c : Nat) (ch : Chain), s.chains[c]? = some ch → ch.aborted = false →
    exec (.psReset c) s = .next ((s.setChain c { ch with
      parser := { ch.parser with ps := .p1, acc := 0#10, ready := true } }).reply s.who .none .none) ∧
    (ch.parser.ready = true →
      exec (.psWant c) s = .next (s.reply s.who (.count
        (match ch.parser.ps with
          | .p1 => 1
          | .p2 => 1
          | .hdr => ch.parser.fmt.headerLen - 2
          | .body => (Scr.read ch.parser.scr ch.parser.fmt.lenOff).toNat)) .none)) ∧
    (ch.parser.Wf → ch.parser.ps = .body → ch.parser.frame.length = ch.parser.fmt.headerLen ∧
      ch.parser.frame.getD ch.parser.fmt.lenOff 0#8 = Scr.read ch.parser.scr ch.parser.fmt.lenOff)

/-- No transition reads a byte of `SCR` at `ACC` or above (10_state.md R30 c): two parsers that differ only there, or in their
counters, want the same bytes, report the same event, and again differ only there. -/
def Obligations.ParserIgnoresStaleScratch : Prop :=
  ∀ (params : Params) (p q : Parser) (bytes : List Byte), p.Wf → q.Wf →
    q.fmt = p.fmt → q.chainId = p.chainId → q.ps = p.ps → q.frame = p.frame → p.want = bytes.length →
    let p' := parserStep params p bytes
    let q' := parserStep params q bytes
    q.want = bytes.length ∧ q'.2 = p'.2 ∧
      q'.1.fmt = p'.1.fmt ∧ q'.1.chainId = p'.1.chainId ∧ q'.1.ps = p'.1.ps ∧ q'.1.frame = p'.1.frame

/-- `FC.PARSE` completes on any bytes in either format and changes no parser, ring or stream (R120); what it returns are frames
that stand in the buffer one behind the other, without overlap, each of them valid (41_framecodec_pack.md R108) and of the kind its
opcode has (R115). -/
def Obligations.WholeBufferParseCompletes : Prop :=
  ∀ (s : State) (fmt : Fmt) (bytes : List Byte),
    ∃ l, exec (.fcParse fmt bytes) s = .next (s.reply s.who (.frames l) .none) ∧
      (∀ x ∈ l, FrameValid s.params.ck fmt x.2 ∧ x.1 = kindOf s.params.opmap (x.2.getD fmt.opOff 0#8)) ∧
      StandIn (l.map Prod.snd) bytes

/-- Round trip (R122): parsing a packed frame as a command frame recovers exactly that frame, with the kind of its opcode, for
every checksum function. -/
def Obligations.RoundTrip : Prop :=
  ∀ (s : State) (op addr : Byte) (payload : List Byte), payload.length ≤ 255 →
    ∃ f, pack s.params.ck op addr payload = .ok f ∧
      exec (.fcParse .cmd f) s = .next (s.reply s.who (.frames [(kindOf s.params.opmap op, f)]) .none) ∧
      f.getD 2 0#8 = op ∧ f.getD 3 0#8 = addr ∧ f.drop 6 = payload

/-- Resynchronisation (R123): a valid frame is delivered whenever the parser is in `S_P1` at its first byte, and parsing goes on
behind it; a candidate frame whose checksum is wrong is dropped whole and parsing goes on behind it, wherever that is (R114, R125);
a byte that is no first preamble byte is skipped, a first preamble byte is dropped together with a byte that is no second preamble
byte, and so the source's sequence yields exactly the one frame. -/
def Obligations.Resynchronisation : Prop :=
  ∀ (s : State) (fmt : Fmt) (f rest : List Byte) (l : List (Kind × List Byte)) (b b' : Byte),
    exec (.fcParse fmt rest) s = .next (s.reply s.who (.frames l) .none) →
    (FrameValid s.params.ck fmt f →
      exec (.fcParse fmt (f ++ rest)) s = .next (s.reply s.who
        (.frames ((kindOf s.params.opmap (f.getD fmt.opOff 0#8), f) :: l)) .none)) ∧
    (fmt.headerLen ≤ f.length → f.getD 0 0#8 = fmt.p1 → f.getD 1 0#8 = fmt.p2 →
      f.length = fmt.headerLen + (f.getD fmt.lenOff 0#8).toNat →
      f.getD fmt.ckOff 0#8 ≠ CkSel.eval s.params.ck (f.set fmt.ckOff 0#8) →
      exec (.fcParse fmt (f ++ rest)) s = .next (s.reply s.who (.frames l) .none)) ∧
    (b ≠ fmt.p1 → exec (.fcParse fmt (b :: rest)) s = .next (s.reply s.who (.frames l) .none)) ∧
    (b = fmt.p1 → b' ≠ fmt.p2 →
      exec (.fcParse fmt (b :: b' :: rest)) s = .next (s.reply s.who (.frames l) .none)) ∧
    (FrameValid s.params.ck .ack f →
      exec (.fcParse .ack ([0xAA#8, 0xAA#8, 0x55#8] ++ f)) s = .next (s.reply s.who
        (.frames [(kindOf s.params.opmap (f.getD 2 0#8), f)]) .none))

/-- Checksum sensitivity (R124): of a packed frame, with one bit of the opcode, the address or a payload byte inverted, nothing
comes out under `CK_BITFLIP` (b); with any other checksum byte, nothing comes out for every `CK` (c); with a larger length byte,
nothing comes out, because the parser waits for more (d). -/
def Obligations.ChecksumSensitivity : Prop :=
  ∀ (s : State) (op addr : Byte) (payload f : List Byte), pack s.params.ck op addr payload = .ok f →
    (∀ (i : Nat) (j : Fin 8), CkBitflip (CkSel.eval s.params.ck) → i < f.length →
      (i = 2 ∨ i = 3 ∨ 6 ≤ i) →
      exec (.fcParse .cmd (f.set i (f.getD i 0#8 ^^^ (1#8 <<< j.val)))) s =
        .next (s.reply s.who (.frames []) .none)) ∧
    (∀ x : Byte, x ≠ f.getD 5 0#8 →
      exec (.fcParse .cmd (f.set 5 x)) s = .next (s.reply s.who (.frames []) .none)) ∧
    (∀ x : Byte, payload.length < x.toNat →
      exec (.fcParse .cmd (f.set 4 x)) s = .next (s.reply s.who (.frames []) .none))

/-- The property fails for the length byte (R124 e): with `sum8`, inverting bit 0 of the length byte of
`FC.PACK(0x01, 0x80, [0xFF])` leaves a buffer from which a frame with an empty payload comes out. -/
def Obligations.LengthByteCanFoolTheChecksum : Prop :=
  pack .sum8 0x01 0x80 [0xFF] = .ok [0x55, 0xAA, 0x01, 0x80, 0x01, 0x80, 0xFF] ∧
  parseAll Config.params .cmd [0x55, 0xAA, 0x01, 0x80, 0x00, 0x80, 0xFF] =
    [(.regack, [0x55, 0xAA, 0x01, 0x80, 0x00, 0x80])]

/-! ## The pipeline and the wire -/

/-- `DSP.STEP` with `WANT` bytes on the stream and a running RX agent (43_pipeline.md R127, R128): the parser takes the read unit
as `PS.RX` does, and only an emitted record is put, into the ring of its kind, under that ring's policy. Where that put finds the
ring shut down and is cancelled (40_ringbuffer.md R97), the RX agent stops (70_reset_and_hazards.md R183; its run flag is assumption
log 17). -/
def Obligations.DspStepTakesOneUnitAndRoutes : Prop :=
  ∀ (s : State) (c : Nat) (ch : Chain) (w : Nat), s.chains[c]? = some ch → ch.aborted = false →
    ch.parser.ready = true → ch.parser.Wf → ch.rxHalted = false → ch.holds (.rx c) = false →
    ch.parser.want = w → w ≤ ch.rxs.length →
    ∃ (p : Parser) (ev : Event),
      let u := s.setChain c { ch with parser := p, rxs := ch.rxs.drop w }
      exec (.psRx c (ch.rxs.take w)) s = .next (u.reply s.who .none ev) ∧
      ((∀ kind record, ev ≠ .frame kind record) →
        exec (.dspStep c) s = .next (u.reply (.rx c) .none ev)) ∧
      (∀ kind record, ev = .frame kind record → ∃ rb, (kind = .nonce ∧ rb = .nonce c ∨
          kind = .regack ∧ rb = .reg c) ∧
        ∀ r, s.ring? rb = some r → r.Wf →
          ∃ t, exec (.dspStep c) s = .next t ∧
            PutAnswer (.rx c) rb r record (u.reply (.rx c) .none ev) t)

/-- `DSP.STEP` takes no step with fewer than `WANT` bytes on the stream (R127), while the RX agent's put is held (R128), or once
the RX agent has been cancelled or its chain shut down (70_reset_and_hazards.md R183; assumption log 17). -/
def Obligations.DspStepWaits : Prop :=
  ∀ (s : State) (c : Nat) (ch : Chain) (w : Nat), s.chains[c]? = some ch → ch.aborted = false →
    ch.parser.ready = true → ch.parser.want = w →
    (ch.rxs.length < w ∨ ch.holds (.rx c) = true ∨ ch.rxStopped = true ∨ ch.shutDown = true) →
    exec (.dspStep c) s = .next s

/-- A frame of each of the fourteen names, in either format, with a good checksum, arriving at a chain in step
(44_wire_opcodes.md R141 to R154, R156; 43_pipeline.md R128): its record, the frame with `CHAIN_ID` behind it, is put into the
nonce ring for `return-nonce` and into the register ring for every other name, under that ring's policy, and the parser is back
in `S_P1`, with the frame left in `SCR`. That the RX agent takes the whole frame in within one step is the model's (assumption
log 11), and so is the run flag of an RX agent whose put is cancelled (assumption log 17). -/
def Obligations.ValidFramesReachTheirRing : Prop :=
  ∀ (s : State) (fmt : Fmt) (n : OpName) (c : Nat) (ch : Chain) (r : Ring) (addr ack cksum : Byte)
    (payload : List Byte),
    s.chains[c]? = some ch → ch.parser.Wf → ch.InStep c fmt → s.params.opmap.Injective →
    payload.length ≤ 255 → s.ring? (inRing n c) = some r → r.Wf →
    let f := frameBytes fmt (s.params.opmap.byteOf n) addr ack cksum payload
    let record := f ++ [ch.parser.chainId]
    FrameValid s.params.ck fmt f →
    ∃ t, exec (wireInstr fmt n c addr ack cksum payload) s = .next t ∧
      PutAnswer (.rx c) (inRing n c) r record
        (s.afterFrame c ch f 0 (quietSteps payload) (.frame (nameKind n) record)) t

/-- A frame with a bad checksum, of any opcode in either format, arriving at a chain in step (42_parser.md R114, 60_exceptions.md
R158, R165): it is dropped whole, the error counter goes up by one, the event is `EV_CKSUM`, whatever the opcode, and no ring is
touched. -/
def Obligations.BadChecksumsAreCountedAndDropped : Prop :=
  ∀ (s : State) (fmt : Fmt) (n : OpName) (op : Byte) (c : Nat) (ch : Chain) (addr ack cksum : Byte)
    (payload : List Byte) (i : Instr),
    s.chains[c]? = some ch → ch.parser.Wf → ch.InStep c fmt → payload.length ≤ 255 →
    (i = wireInstr fmt n c addr ack cksum payload ∧ op = s.params.opmap.byteOf n ∨
      i = unknownInstr fmt c op addr ack cksum payload) →
    let f := frameBytes fmt op addr ack cksum payload
    ¬ FrameValid s.params.ck fmt f →
      exec i s = .next (s.afterFrame c ch f 1 (quietSteps payload) .cksum)

/-- A frame with a good checksum and an opcode outside the enumeration, in either format, arriving at a chain in step
(44_wire_opcodes.md R155, 60_exceptions.md R159): the event carries the frame, no ring is touched and nothing is counted. -/
def Obligations.UnknownOpcodesAreReportedOnly : Prop :=
  ∀ (s : State) (fmt : Fmt) (op : Byte) (c : Nat) (ch : Chain) (addr ack cksum : Byte)
    (payload : List Byte),
    s.chains[c]? = some ch → ch.parser.Wf → ch.InStep c fmt → payload.length ≤ 255 →
    op ∉ s.params.opmap.recognized →
    let f := frameBytes fmt op addr ack cksum payload
    FrameValid s.params.ck fmt f →
    exec (unknownInstr fmt c op addr ack cksum payload) s =
      .next (s.afterFrame c ch f 0 (quietSteps payload) (.unknownOpcode f))

/-- A wire row in any state of the block, and a wire line that is no whole frame (30_encoding.md R70, 10_state.md R34; assumption
log 27): the bytes go onto the stream and the RX agent takes its steps until it waits (assumption log 11); it completes if both
inbound rings exist; where the RX agent is halted or its put is held, the bytes just queue up (43_pipeline.md R129,
70_reset_and_hazards.md R183); and bytes that begin no frame are skipped. -/
def Obligations.WireRowsRunUntilTheAgentWaits : Prop :=
  (∀ (s : State) (fmt : Fmt) (n : OpName) (op : Byte) (c : Nat) (ch : Chain) (addr ack cksum : Byte)
    (payload : List Byte) (i : Instr),
    s.chains[c]? = some ch → ch.aborted = false → ch.parser.ready = true →
    (i = wireInstr fmt n c addr ack cksum payload ∧ op = s.params.opmap.byteOf n ∨
      i = unknownInstr fmt c op addr ack cksum payload) →
    TakesIn c ch (frameBytes fmt op addr ack cksum payload) s (exec i s)) ∧
  (∀ (s : State) (who : Agent) (c : Nat) (ch : Chain) (bytes : List Byte) (rest : List Turn)
    (e : DecodeError), s.turns = .request who (.wire c bytes) :: rest →
    decode s.ctx (.wire c bytes) = .error e →
    s.chains[c]? = some ch → ch.aborted = false → ch.parser.ready = true →
    TakesIn c ch bytes { s with turns := rest, who := who } (step s))

/-- `TX.STEP` with a whole frame image queued (43_pipeline.md R131): it leaves the ring, is stamped, and the frame is appended to
the outbound stream. If the transport accepts fewer bytes, only those are appended, the caller is told the count with
`EV_TX_FAIL`, and the frame is not put back (R132, 60_exceptions.md R162). How much is accepted is read from the list of the
environment's answers, of which the empty one accepts everything (assumption log 10), and nothing comes between the bytes of one
frame: the frame atomicity of sends that 92_eei_decisions.md D36 assumes of the transport. That the reply also notes the image taken
is the model's (assumption log 15). -/
def Obligations.TxStepSendsOneFrame : Prop :=
  ∀ (s : State) (c : Nat) (w : Which) (ch : Chain) (r : Ring), s.chains[c]? = some ch →
    ch.aborted = false → ch.txHalted w = false → ch.holds (.tx c w) = false →
    s.ring? (outRing w c) = some r → r.Wf →
    FrameLengthOk (frameLen s.params w) → frameLen s.params w ≤ r.dataLen →
    ∃ (r' : Ring) (image frame : List Byte) (t : State), r.Taken r' (frameLen s.params w) image ∧
      pack s.params.ck (image.getD 2 0#8) (image.getD 3 0#8) (image.drop 6) = .ok frame ∧
      frame.length = frameLen s.params w ∧ exec (.txStep c w) s = .next t ∧
      SendAnswer (.tx c w) c (ch.setRing (outRing w c) r') frame (.got (outRing w c) image)
        (s.setRing (outRing w c) r') t

/-- `TX.STEP` without a whole frame image queued (R131): its get is held, whatever the ring's policy, or cancelled once the
instance is shut down, after which the agent is stopped; and an agent that is held, that was cancelled, or whose chain has been
shut down takes no step (70_reset_and_hazards.md R183; assumption logs 17 and 18). -/
def Obligations.TxStepWaits : Prop :=
  ∀ (s : State) (c : Nat) (w : Which) (ch : Chain), s.chains[c]? = some ch → ch.aborted = false →
    (ch.txHalted w = true ∨ ch.holds (.tx c w) = true → exec (.txStep c w) s = .next s) ∧
    (∀ r, ch.txHalted w = false → ch.holds (.tx c w) = false → s.ring? (outRing w c) = some r →
      r.dataLen < frameLen s.params w →
      (r.shut = false → exec (.txStep c w) s =
        .next (s.setRing (outRing w c) { r with pending := r.pending ++ [.txGet c w] })) ∧
      (r.shut = true → exec (.txStep c w) s =
        .next ((s.stopAgent (.tx c w)).reply (.tx c w) .none .cancelled)))

/-- `ioctl` (R137): pack, and send with no ring in between; a failed send is reported to the caller as in R132; and a payload no
frame can carry is refused (41_framecodec_pack.md R104). That it is a turn of its own with these operands is assumption log 26, the
list of the transport's answers assumption log 10, and that nothing comes between the bytes of one frame the assumption of
92_eei_decisions.md D36. -/
def Obligations.IoctlPacksAndSends : Prop :=
  ∀ (s : State) (who : Agent) (c : Nat) (ch : Chain) (op addr : Byte) (payload : List Byte)
    (rest : List Turn),
    s.turns = .ioctl who c op addr payload :: rest → s.chains[c]? = some ch → ch.aborted = false →
    (payload.length ≤ 255 → ∃ frame t, pack s.params.ck op addr payload = .ok frame ∧
      step s = .next t ∧
      SendAnswer who c ch frame .nothing ({ s with turns := rest, who := who } : State) t) ∧
    (255 < payload.length → step s = .refused .payloadTooLong)
end

