-- ==== Sys2Proof/Laws/Storage.lean ====
section
/-! SUPPORT. Laws of byte storage and of the register file `SCR`: a read after a write, and the canonical form. -/

namespace Sys2Proof.Machine

@[simp] theorem Mem.read_nil (i : Nat) : Mem.read [] i = none := rfl

theorem Mem.read_write (m : Mem) (i j : Nat) (v : Byte) :
    Mem.read (Mem.write m i v) j = if j = i then some v else Mem.read m j := by
  induction m with
  | nil => simp [Mem.write, Mem.read, eq_comm]
  | cons e m ih =>
    obtain ⟨a, b⟩ := e
    by_cases h1 : i < a
    · rw [Mem.write, if_pos h1, Mem.read]
      by_cases h2 : i = j
      · rw [if_pos h2, if_pos h2.symm]
      · rw [if_neg h2, if_neg (Ne.symm h2)]
    · rw [Mem.write, if_neg h1]
      by_cases h2 : i = a
      · subst h2
        rw [if_pos rfl, Mem.read]
        by_cases h3 : i = j
        · rw [if_pos h3, if_pos h3.symm]
        · rw [if_neg h3, if_neg (Ne.symm h3), Mem.read, if_neg h3]
      · rw [if_neg h2, Mem.read, ih, Mem.read]
        by_cases h3 : a = j
        · rw [if_pos h3, if_pos h3, if_neg (by omega)]
        · rw [if_neg h3, if_neg h3]

@[simp] theorem Mem.read_write_same (m : Mem) (i : Nat) (v : Byte) :
    Mem.read (Mem.write m i v) i = some v := by simp [Mem.read_write]

theorem Mem.read_write_other (m : Mem) {i j : Nat} (v : Byte) (h : j ≠ i) :
    Mem.read (Mem.write m i v) j = Mem.read m j := by simp [Mem.read_write, h]

theorem Mem.mem_write {m : Mem} {i : Nat} {v : Byte} {e : Host.Cell} (h : e ∈ Mem.write m i v) :
    e = (i, v) ∨ e ∈ m := by
  induction m with
  | nil => simpa [Mem.write] using h
  | cons c m ih =>
    obtain ⟨a, b⟩ := c
    simp only [Mem.write] at h
    split at h
    · simpa using h
    · split at h
      · rcases List.mem_cons.1 h with h | h
        · exact .inl h
        · exact .inr (List.mem_cons_of_mem _ h)
      · rcases List.mem_cons.1 h with h | h
        · exact .inr (h ▸ List.mem_cons_self)
        · exact (ih h).imp id (List.mem_cons_of_mem _)

/-- Every write keeps the canonical form. -/
theorem Mem.wf_write {m : Mem} (h : Mem.wf m) (i : Nat) (v : Byte) : Mem.wf (Mem.write m i v) := by
  induction m with
  | nil => simp [Mem.write, Mem.wf]
  | cons e m ih =>
    obtain ⟨a, b⟩ := e
    simp only [Mem.wf, List.map_cons, List.pairwise_cons, List.mem_map] at h
    obtain ⟨h1, h2⟩ := h
    simp only [Mem.write]
    split
    · simp only [Mem.wf, List.map_cons, List.pairwise_cons, List.mem_cons, List.mem_map]
      refine ⟨?_, h1, h2⟩
      rintro x (rfl | ⟨e, he, rfl⟩)
      · assumption
      · exact lt_trans (by assumption) (h1 _ ⟨e, he, rfl⟩)
    · split
      · subst_vars
        simp only [Mem.wf, List.map_cons, List.pairwise_cons, List.mem_map]
        exact ⟨h1, h2⟩
      · simp only [Mem.wf, List.map_cons, List.pairwise_cons, List.mem_map]
        refine ⟨?_, ih h2⟩
        rintro x ⟨e, he, rfl⟩
        rcases Mem.mem_write he with rfl | he
        · simp only; omega
        · exact h1 _ ⟨e, he, rfl⟩

/-- `MemWrite` stores the list from the index on and nothing else. -/
theorem Mem.read_writeList (m : Mem) (i j : Nat) (l : List Byte) :
    Mem.read (Mem.writeList m i l) j =
      if i ≤ j ∧ j < i + l.length then l[j - i]? else Mem.read m j := by
  induction l generalizing m i with
  | nil => simp [Mem.writeList]
  | cons b l ih =>
    simp only [Mem.writeList, ih, List.length_cons]
    by_cases h : j = i
    · subst h; simp
    · by_cases h2 : i + 1 ≤ j ∧ j < i + 1 + l.length
      · rw [if_pos h2, if_pos (by omega)]
        have : j - i = (j - (i + 1)) + 1 := by omega
        rw [this, List.getElem?_cons_succ]
      · rw [if_neg h2, if_neg (by omega), Mem.read_write_other _ _ h]

theorem Mem.read_writeList_inside {m : Mem} {i j : Nat} {l : List Byte} (h1 : i ≤ j)
    (h2 : j < i + l.length) : Mem.read (Mem.writeList m i l) j = l[j - i]? := by
  rw [Mem.read_writeList, if_pos ⟨h1, h2⟩]

theorem Mem.read_writeList_outside {m : Mem} {i j : Nat} {l : List Byte}
    (h : j < i ∨ i + l.length ≤ j) : Mem.read (Mem.writeList m i l) j = Mem.read m j := by
  rw [Mem.read_writeList, if_neg (by omega)]

theorem Mem.wf_writeList {m : Mem} (h : Mem.wf m) (i : Nat) (l : List Byte) :
    Mem.wf (Mem.writeList m i l) := by
  induction l generalizing m i with
  | nil => exact h
  | cons b l ih => exact ih (Mem.wf_write h i b) (i + 1)

theorem Mem.bound_writeList {m : Mem} {n : Nat} (h : ∀ e ∈ m, e.1 < n) {i : Nat} {l : List Byte}
    (hl : i + l.length ≤ n ∨ l = []) : ∀ e ∈ Mem.writeList m i l, e.1 < n := by
  induction l generalizing m i with
  | nil => exact h
  | cons b l ih =>
    have hl' : i + (l.length + 1) ≤ n := by simpa using hl
    refine ih ?_ (.inl (by omega))
    intro e he
    rcases Mem.mem_write he with rfl | he
    · simp only; omega
    · exact h e he

/-- `MemRead` gives a list exactly when every byte of it has been written. -/
theorem Mem.readList_eq_some {m : Mem} {i n : Nat} {l : List Byte} :
    Mem.readList m i n = some l ↔ l.length = n ∧ ∀ j < n, Mem.read m (i + j) = l[j]? := by
  induction n generalizing i l with
  | zero =>
    simp only [Mem.readList, Option.some.injEq, Nat.not_lt_zero, false_implies, implies_true, and_true]
    exact eq_comm.trans List.length_eq_zero_iff.symm
  | succ n ih =>
    simp only [Mem.readList]
    constructor
    · intro h
      split at h
      · rename_i b bs hb hbs
        injection h with h; subst h
        obtain ⟨h1, h2⟩ := ih.1 hbs
        refine ⟨by simp [h1], fun j hj => ?_⟩
        cases j with
        | zero => simpa using hb
        | succ j =>
          rw [List.getElem?_cons_succ, ← h2 j (by omega)]; congr 1; omega
      · cases h
    · rintro ⟨h1, h2⟩
      cases l with
      | nil => simp at h1
      | cons b bs =>
        have hb : Mem.read m i = some b := by simpa using h2 0 (by omega)
        have hbs : Mem.readList m (i + 1) n = some bs := ih.2 ⟨by simpa using h1, fun j hj => by
          have := h2 (j + 1) (by omega)
          rw [List.getElem?_cons_succ] at this
          rw [← this]; congr 1; omega⟩
        simp [hb, hbs]

theorem Mem.readList_isSome {m : Mem} {i n : Nat} (h : ∀ j < n, (Mem.read m (i + j)).isSome) :
    (Mem.readList m i n).isSome := by
  induction n generalizing i with
  | zero => rfl
  | succ n ih =>
    have h0 := h 0 (by omega)
    have h1 : (Mem.readList m (i + 1) n).isSome := ih fun j hj => by
      have := h (j + 1) (by omega)
      rwa [show i + 1 + j = i + (j + 1) by omega]
    obtain ⟨b, hb⟩ := Option.isSome_iff_exists.1 h0
    obtain ⟨bs, hbs⟩ := Option.isSome_iff_exists.1 h1
    simp only [Nat.add_zero] at hb
    simp [Mem.readList, hb, hbs]

/-- `MemRead` of what `MemWrite` has just stored. -/
theorem Mem.readList_writeList (m : Mem) (i : Nat) (l : List Byte) :
    Mem.readList (Mem.writeList m i l) i l.length = some l := by
  rw [Mem.readList_eq_some]
  refine ⟨rfl, fun j hj => ?_⟩
  rw [Mem.read_writeList_inside (by omega) (by omega)]
  congr 1; omega

/-! ## The register file `SCR` -/

@[simp] theorem Scr.read_nil (i : Nat) : Scr.read [] i = Config.scrReset := rfl

/-- Dropping the cells of an index leaves every other index. -/
theorem Mem.read_filter (m : Mem) (i j : Nat) :
    Mem.read (m.filter fun e => decide (e.1 ≠ i)) j = if j = i then none else Mem.read m j := by
  induction m with
  | nil => simp
  | cons e m ih =>
    obtain ⟨a, b⟩ := e
    by_cases h : a = i
    · subst h
      rw [List.filter_cons_of_neg (by simp), ih, Mem.read]
      by_cases c : j = a
      · rw [if_pos c, if_pos c]
      · rw [if_neg c, if_neg c, if_neg (Ne.symm c)]
    · rw [List.filter_cons_of_pos (by simpa using h), Mem.read, ih, Mem.read]
      by_cases c : a = j
      · subst c; rw [if_pos rfl, if_pos rfl, if_neg h]
      · rw [if_neg c, if_neg c]

/-- `SCR[i] <- v` stores that byte and nothing else. -/
theorem Scr.read_write (r : Scr) (i j : Nat) (v : Byte) :
    Scr.read (Scr.write r i v) j = if j = i then v else Scr.read r j := by
  unfold Scr.read Scr.write
  by_cases h : v = Config.scrReset
  · rw [if_pos h, Mem.read_filter]
    by_cases c : j = i
    · rw [if_pos c, if_pos c, h]; rfl
    · rw [if_neg c, if_neg c]
  · rw [if_neg h, Mem.read_write]
    by_cases c : j = i
    · rw [if_pos c, if_pos c]; rfl
    · rw [if_neg c, if_neg c]

/-- A write inside the register file keeps the canonical form. -/
theorem Scr.wf_write {r : Scr} (h : Scr.wf r) {i : Nat} (hi : i < Config.scrLen) (v : Byte) :
    Scr.wf (Scr.write r i v) := by
  unfold Scr.write
  split
  · refine ⟨List.Pairwise.sublist ((List.filter_sublist (l := r)).map Prod.fst) h.1, fun e he => ?_⟩
    exact h.2 e (List.mem_filter.1 he).1
  · refine ⟨Mem.wf_write h.1 _ _, fun e he => ?_⟩
    rcases Mem.mem_write he with rfl | he
    · exact ⟨hi, by assumption⟩
    · exact h.2 e he

/-- `SCR[i ..] <- bytes` stores the bytes from the index on and nothing else. -/
theorem Scr.read_writeList (r : Scr) (i j : Nat) (l : List Byte) :
    Scr.read (Scr.writeList r i l) j =
      if i ≤ j ∧ j < i + l.length then l.getD (j - i) 0#8 else Scr.read r j := by
  induction l generalizing r i with
  | nil => rw [if_neg (by simp)]; rfl
  | cons b l ih =>
    simp only [Scr.writeList, ih, List.length_cons]
    by_cases h : j = i
    · subst h
      rw [if_neg (by omega), Scr.read_write, if_pos rfl, if_pos (by omega), Nat.sub_self]; rfl
    · by_cases h2 : i + 1 ≤ j ∧ j < i + 1 + l.length
      · rw [if_pos h2, if_pos (by omega), show j - i = (j - (i + 1)) + 1 by omega]; rfl
      · rw [if_neg h2, if_neg (by omega), Scr.read_write, if_neg h]

theorem Scr.read_writeList_inside {r : Scr} {i j : Nat} {l : List Byte} (h1 : i ≤ j)
    (h2 : j < i + l.length) : Scr.read (Scr.writeList r i l) j = l.getD (j - i) 0#8 := by
  rw [Scr.read_writeList, if_pos ⟨h1, h2⟩]

theorem Scr.read_writeList_outside {r : Scr} {i j : Nat} {l : List Byte}
    (h : j < i ∨ i + l.length ≤ j) : Scr.read (Scr.writeList r i l) j = Scr.read r j := by
  rw [Scr.read_writeList, if_neg (by omega)]

theorem Scr.writeList_append (r : Scr) (i : Nat) (a b : List Byte) :
    Scr.writeList r i (a ++ b) = Scr.writeList (Scr.writeList r i a) (i + a.length) b := by
  induction a generalizing r i with
  | nil => rfl
  | cons x a ih => simp only [List.cons_append, Scr.writeList, ih, List.length_cons]; congr 1; omega

/-- Writes inside the register file keep the canonical form. -/
theorem Scr.wf_writeList {r : Scr} (h : Scr.wf r) {i : Nat} {l : List Byte}
    (hl : i + l.length ≤ Config.scrLen) : Scr.wf (Scr.writeList r i l) := by
  induction l generalizing r i with
  | nil => exact h
  | cons b l ih =>
    rw [List.length_cons] at hl
    exact ih (Scr.wf_write h (by omega) b) (by omega)

@[simp] theorem Scr.readList_length (r : Scr) (i n : Nat) : (Scr.readList r i n).length = n := by
  induction n generalizing i with
  | zero => rfl
  | succ n ih => rw [Scr.readList, List.length_cons, ih]

theorem Scr.readList_getD (r : Scr) {i n j : Nat} (h : j < n) :
    (Scr.readList r i n).getD j 0#8 = Scr.read r (i + j) := by
  induction n generalizing i j with
  | zero => omega
  | succ n ih =>
    cases j with
    | zero => rfl
    | succ j =>
      rw [Scr.readList, List.getD_cons_succ, ih (by omega)]; congr 1; omega

/-- A list is what stands in `SCR` from an index on exactly when every byte of it does. -/
theorem Scr.readList_eq {r : Scr} {i n : Nat} {l : List Byte} :
    Scr.readList r i n = l ↔ l.length = n ∧ ∀ j < n, Scr.read r (i + j) = l.getD j 0#8 := by
  constructor
  · rintro rfl
    exact ⟨by simp, fun j hj => (Scr.readList_getD r hj).symm⟩
  · rintro ⟨h1, h2⟩
    refine List.ext_getElem (by simp [h1]) fun j hj hj' => ?_
    have e : ∀ (a : List Byte) (h : j < a.length), a[j] = a.getD j 0#8 := fun a h => by simp [List.getD, h]
    rw [e _ hj, e _ hj', Scr.readList_getD r (by simpa using hj), h2 j (by omega)]

end Sys2Proof.Machine
end

