-- ==== Sys2Proof/Laws/Parse.lean ====
section
/-! SUPPORT. Laws of the stream parser: what each transition does to the frame under assembly, and that it keeps the invariant of 10_state.md R30. -/

namespace Sys2Proof

/-! ## Layout facts -/

theorem Fmt.headerLen_pos (fmt : Fmt) : 6 ≤ fmt.headerLen ∧ fmt.headerLen ≤ 7 := by cases fmt <;> decide
theorem Fmt.lenOff_lt (fmt : Fmt) : 2 ≤ fmt.lenOff ∧ fmt.lenOff < fmt.ckOff := by cases fmt <;> decide
theorem Fmt.ckOff_lt (fmt : Fmt) : fmt.ckOff < fmt.headerLen := by cases fmt <;> decide
theorem Fmt.opOff_eq (fmt : Fmt) : fmt.opOff = 2 := by cases fmt <;> rfl

end Sys2Proof

namespace Sys2Proof.Machine

theorem scrLen_eq : Config.scrLen = 519 := rfl

theorem getD_eq_getElem {f : List Byte} {i : Nat} (h : i < f.length) : f.getD i 0#8 = f[i] := by
  simp [List.getD, h]

/-! ## Accumulation -/

section accumulate
variable (p : Parser) (i : Nat) (bytes : List Byte) (n : Nat)

@[simp] theorem accumulate_fmt : (p.accumulate i bytes n).fmt = p.fmt := rfl
@[simp] theorem accumulate_chainId : (p.accumulate i bytes n).chainId = p.chainId := rfl
@[simp] theorem accumulate_ready : (p.accumulate i bytes n).ready = p.ready := rfl
@[simp] theorem accumulate_ps : (p.accumulate i bytes n).ps = p.ps := rfl
@[simp] theorem accumulate_protoErr : (p.accumulate i bytes n).protoErr = p.protoErr := rfl
@[simp] theorem accumulate_scr : (p.accumulate i bytes n).scr = Scr.writeList p.scr i bytes := rfl
theorem accumulate_acc (h : n < 1024) : (p.accumulate i bytes n).acc.toNat = n := by
  simp only [Parser.accumulate, BitVec.toNat_ofNat]
  exact Nat.mod_eq_of_lt (by omega)

end accumulate

/-- The frame under assembly, byte by byte. -/
theorem Parser.frame_eq {p : Parser} {f : List Byte} :
    p.frame = f ↔ f.length = p.acc.toNat ∧ ∀ i < p.acc.toNat, Scr.read p.scr i = f.getD i 0#8 := by
  unfold Parser.frame; rw [Scr.readList_eq]; simp

@[simp] theorem Parser.frame_length (p : Parser) : p.frame.length = p.acc.toNat := Scr.readList_length _ _ _

theorem Parser.frame_getD {p : Parser} {i : Nat} (h : i < p.acc.toNat) : p.frame.getD i 0#8 = Scr.read p.scr i :=
  ((Parser.frame_eq.1 rfl).2 i h).symm

theorem getD_append_left {f g : List Byte} {i : Nat} (h : i < f.length) :
    (f ++ g).getD i 0#8 = f.getD i 0#8 := by
  rw [getD_eq_getElem (by simp; omega), getD_eq_getElem h, List.getElem_append_left h]

theorem getD_append_right {f g : List Byte} {i : Nat} (h : f.length ≤ i) :
    (f ++ g).getD i 0#8 = g.getD (i - f.length) 0#8 := by
  simp only [List.getD, List.getElem?_append_right h]

/-- Appending a read unit at `ACC` appends it to the frame under assembly. -/
theorem frame_accumulate {p : Parser} {f bytes : List Byte} (h : p.frame = f) {n : Nat}
    (hn : n = f.length + bytes.length) (hb : n < 1024) :
    (p.accumulate f.length bytes n).frame = f ++ bytes := by
  rw [Parser.frame_eq, accumulate_acc _ _ _ _ hb, accumulate_scr]
  rw [Parser.frame_eq] at h
  refine ⟨by simp [hn], fun i hi => ?_⟩
  by_cases c : i < f.length
  · rw [Scr.read_writeList_outside (.inl c), h.2 i (by omega), getD_append_left c]
  · rw [Scr.read_writeList_inside (by omega) (by omega), getD_append_right (by omega)]

/-- In `S_P2` the frame under assembly is the first preamble byte (10_state.md R30 a). -/
theorem Parser.Wf.frame_p2 {p : Parser} (h : p.Wf) (hp : p.ps = .p2) : p.frame = [p.fmt.p1] := by
  obtain ⟨ha, h0⟩ := h.2.2.1 hp
  have : p.acc.toNat = 1 := by rw [ha]; rfl
  rw [Parser.frame_eq, this]
  refine ⟨rfl, fun i hi => ?_⟩
  obtain rfl : i = 0 := by omega
  exact h0

/-- In `S_HDR` the frame under assembly is the preamble (R30 a). -/
theorem Parser.Wf.frame_hdr {p : Parser} (h : p.Wf) (hp : p.ps = .hdr) :
    p.frame = [p.fmt.p1, p.fmt.p2] := by
  obtain ⟨ha, h0, h1⟩ := h.2.2.2.1 hp
  have : p.acc.toNat = 2 := by rw [ha]; rfl
  rw [Parser.frame_eq, this]
  refine ⟨rfl, fun i hi => ?_⟩
  obtain rfl | rfl : i = 0 ∨ i = 1 := by omega
  · exact h0
  · exact h1

/-- In `S_BODY` the frame under assembly is a whole header with a length byte that is not 0 (R30 a). -/
theorem Parser.Wf.frame_body {p : Parser} (h : p.Wf) (hp : p.ps = .body) :
    p.frame.length = p.fmt.headerLen ∧ p.frame.getD 0 0#8 = p.fmt.p1 ∧
      p.frame.getD 1 0#8 = p.fmt.p2 ∧ p.plen = (p.frame.getD p.fmt.lenOff 0#8).toNat ∧
      p.frame.getD p.fmt.lenOff 0#8 ≠ 0#8 := by
  obtain ⟨ha, h0, h1, hl⟩ := h.2.2.2.2 hp
  have hh := p.fmt.headerLen_pos
  have hlo := p.fmt.lenOff_lt
  have hck := p.fmt.ckOff_lt
  have hpl : p.plen = (p.frame.getD p.fmt.lenOff 0#8).toNat := by
    rw [Parser.frame_getD (by omega)]; rfl
  refine ⟨by simpa using ha, ?_, ?_, hpl, fun hz => ?_⟩
  · rw [Parser.frame_getD (by omega), h0]
  · rw [Parser.frame_getD (by omega), h1]
  · rw [hz] at hpl; exact hl hpl

/-! ## WANT -/

/-- A parser that meets its invariant wants 1 to 255 bytes (R29, R30 b). -/
theorem Parser.Wf.want_range {p : Parser} (h : p.Wf) : 1 ≤ p.want ∧ p.want ≤ 255 := by
  have hh := p.fmt.headerLen_pos
  unfold Parser.want
  cases hp : p.ps with
  | p1 => dsimp only; omega
  | p2 => dsimp only; omega
  | hdr => dsimp only; omega
  | body =>
    have hl := (h.2.2.2.2 hp).2.2.2
    have : p.plen < 256 := (Scr.read p.scr p.fmt.lenOff).isLt
    dsimp only
    omega

/-! ## Judging a candidate -/

/-- `Finish()` on a whole candidate (42_parser.md R114, R115). -/
theorem finish_spec {params : Params} {p : Parser} {f : List Byte} (h : p.frame = f) :
    finish params p = (p.judged p.scr (judge params p.fmt p.chainId f),
      judge params p.fmt p.chainId f) := by
  unfold finish
  rw [h]
  dsimp only
  unfold judge classify
  by_cases hc : CkSel.eval params.ck (zeroed p.fmt f) = f.getD p.fmt.ckOff 0#8
  · simp only [hc, if_true, ne_eq, not_true, if_false]
    split_ifs <;> rfl
  · simp only [hc, if_false, ne_eq, not_false_eq_true, if_true]
    rfl

/-- A parser in its reset condition whose register file is in order meets the invariant. -/
theorem Parser.wf_reset {p : Parser} (hm : Scr.wf p.scr) (hp : p.ps = .p1) (ha : p.acc = 0#10) : p.Wf := by
  refine ⟨hm, fun _ => ha, fun c => ?_, fun c => ?_, fun c => ?_⟩
  all_goals rw [hp] at c; cases c

theorem Parser.wf_judged {p : Parser} {scr : Scr} (hm : Scr.wf scr) (ev : Event) : (p.judged scr ev).Wf :=
  Parser.wf_reset hm rfl rfl

/-! ## The four transitions -/

/-- `S_P1` (42_parser.md R110). -/
theorem parserStep_p1 {params : Params} {p : Parser} {b : Byte} (hp : p.ps = .p1) :
    parserStep params p [b] =
      if b = p.fmt.p1 then ({ p.accumulate 0 [b] 1 with ps := .p2 }, .none) else (p, .none) := by
  unfold parserStep; rw [hp]; simp only [List.head?_cons, Option.some.injEq]

/-- `S_P2` (R111). -/
theorem parserStep_p2 {params : Params} {p : Parser} {b : Byte} (hp : p.ps = .p2) :
    parserStep params p [b] =
      if b = p.fmt.p2 then ({ p.accumulate 1 [b] 2 with ps := .hdr }, .none)
      else (p.toReset, .none) := by
  unfold parserStep; rw [hp]; simp only [List.head?_cons, Option.some.injEq]

theorem plen_accumulate {p : Parser} (h : p.Wf) (hp : p.ps = .hdr) {bytes : List Byte}
    (hb : bytes.length = p.fmt.headerLen - 2) :
    (p.accumulate 2 bytes p.fmt.headerLen).frame = [p.fmt.p1, p.fmt.p2] ++ bytes ∧
    (p.accumulate 2 bytes p.fmt.headerLen).plen =
      (([p.fmt.p1, p.fmt.p2] ++ bytes).getD p.fmt.lenOff 0#8).toNat := by
  have hh := p.fmt.headerLen_pos
  have hlo := p.fmt.lenOff_lt
  have hck := p.fmt.ckOff_lt
  have hf := frame_accumulate (bytes := bytes) (n := p.fmt.headerLen) (h.frame_hdr hp)
    (by simp; omega) (by omega)
  refine ⟨hf, ?_⟩
  have ha := accumulate_acc p 2 bytes p.fmt.headerLen (by omega)
  unfold Parser.plen
  rw [accumulate_fmt]
  exact congrArg BitVec.toNat ((Parser.frame_eq.1 hf).2 p.fmt.lenOff (lt_of_lt_of_eq (by omega) ha.symm))

/-- `S_HDR` (R113): a header with an empty payload is a whole candidate, any other asks for its payload. -/
theorem parserStep_hdr {params : Params} {p : Parser} (h : p.Wf) (hp : p.ps = .hdr) {bytes : List Byte}
    (hb : bytes.length = p.fmt.headerLen - 2) :
    parserStep params p bytes =
      let f := [p.fmt.p1, p.fmt.p2] ++ bytes
      let q := p.accumulate 2 bytes p.fmt.headerLen
      if f.getD p.fmt.lenOff 0#8 = 0#8 then
        (q.judged q.scr (judge params p.fmt p.chainId f), judge params p.fmt p.chainId f)
      else ({ q with ps := .body }, .none) := by
  obtain ⟨hf, hl⟩ := plen_accumulate h hp hb
  unfold parserStep
  rw [hp]
  dsimp only
  rw [hl]
  by_cases hz : ([p.fmt.p1, p.fmt.p2] ++ bytes).getD p.fmt.lenOff 0#8 = 0#8
  · rw [if_pos hz, if_pos (by rw [hz]; rfl)]
    exact finish_spec hf
  · rw [if_neg hz, if_neg]
    exact fun c => hz (BitVec.eq_of_toNat_eq c)

/-- `S_BODY` (R116): the payload completes the candidate. -/
theorem parserStep_body {params : Params} {p : Parser} (hp : p.ps = .body) {f bytes : List Byte}
    (hf : p.frame = f) (hl : f.length = p.fmt.headerLen) (hb : bytes.length ≤ 255) :
    parserStep params p bytes =
      let q := p.accumulate p.fmt.headerLen bytes (p.fmt.headerLen + bytes.length)
      (q.judged q.scr (judge params p.fmt p.chainId (f ++ bytes)),
        judge params p.fmt p.chainId (f ++ bytes)) := by
  have hh := p.fmt.headerLen_pos
  unfold parserStep
  rw [hp]
  have := frame_accumulate (bytes := bytes) (n := p.fmt.headerLen + bytes.length) hf (by omega) (by omega)
  rw [hl] at this
  exact finish_spec this

/-! ## What one step of a parser can do -/

/-- The parts of a parser that no transition writes. -/
abbrev Parser.SameConfig (p q : Parser) : Prop :=
  q.fmt = p.fmt ∧ q.chainId = p.chainId ∧ q.ready = p.ready

/-- `WANT` is one byte while the preamble is awaited. -/
theorem unit_of_want_one {p : Parser} {bytes : List Byte} (hw : bytes.length = p.want)
    (hp : p.ps = .p1 ∨ p.ps = .p2) : ∃ b, bytes = [b] :=
  List.length_eq_one_iff.1 (hw.trans (by unfold Parser.want; rcases hp with hp | hp <;> rw [hp]))

/-- A read unit of `WANT` bytes: the step keeps the invariant and the configuration, and counts exactly the checksum
mismatches (R112, 10_state.md R30, R31). -/
theorem parserStep_total {params : Params} {p : Parser} (h : p.Wf) {bytes : List Byte} (hb : bytes.length = p.want) :
    ∃ q ev, parserStep params p bytes = (q, ev) ∧ q.Wf ∧ p.SameConfig q ∧
      q.protoErr = p.protoErr + (if ev = .cksum then 1 else 0) := by
  have hh := p.fmt.headerLen_pos
  have hm := h.1
  obtain ⟨hw1, hw2⟩ := h.want_range
  have wf' : ∀ i, i ≤ 7 → Scr.wf (Scr.writeList p.scr i bytes) := fun i hi =>
    Scr.wf_writeList hm (by rw [scrLen_eq]; omega)
  cases hp : p.ps with
  | p1 =>
    obtain ⟨b, rfl⟩ := unit_of_want_one hb (.inl hp)
    rw [parserStep_p1 hp]
    split_ifs with c
    · refine ⟨_, _, rfl, ⟨wf' 0 (by omega), nofun, fun _ => ⟨rfl, ?_⟩, nofun, nofun⟩, ⟨rfl, rfl, rfl⟩, rfl⟩
      show Scr.read (Scr.write p.scr 0 b) 0 = p.fmt.p1
      rw [Scr.read_write, if_pos rfl, c]
    · exact ⟨p, _, rfl, h, ⟨rfl, rfl, rfl⟩, rfl⟩
  | p2 =>
    obtain ⟨b, rfl⟩ := unit_of_want_one hb (.inr hp)
    rw [parserStep_p2 hp]
    split_ifs with c
    · refine ⟨_, _, rfl, ⟨wf' 1 (by omega), nofun, nofun, fun _ => ⟨rfl, ?_, ?_⟩, nofun⟩, ⟨rfl, rfl, rfl⟩, rfl⟩
      · show Scr.read (Scr.write p.scr 1 b) 0 = p.fmt.p1
        rw [Scr.read_write, if_neg (by decide), (h.2.2.1 hp).2]
      · show Scr.read (Scr.write p.scr 1 b) 1 = p.fmt.p2
        rw [Scr.read_write, if_pos rfl, c]
    · exact ⟨_, _, rfl, Parser.wf_reset hm rfl rfl, ⟨rfl, rfl, rfl⟩, rfl⟩
  | hdr =>
    have hb' : bytes.length = p.fmt.headerLen - 2 := hb.trans (by unfold Parser.want; rw [hp])
    rw [parserStep_hdr h hp hb']
    dsimp only
    obtain ⟨-, hl⟩ := plen_accumulate h hp hb'
    split_ifs with c
    · exact ⟨_, _, rfl, Parser.wf_judged (wf' 2 (by omega)) _, ⟨rfl, rfl, rfl⟩, rfl⟩
    · obtain ⟨-, h0, h1⟩ := h.2.2.2.1 hp
      refine ⟨_, _, rfl, ⟨wf' 2 (by omega), nofun, nofun, nofun,
        fun _ => ⟨accumulate_acc p 2 bytes _ (by omega), ?_, ?_, ?_⟩⟩, ⟨rfl, rfl, rfl⟩, rfl⟩
      · exact (Scr.read_writeList_outside (.inl (by omega))).trans h0
      · exact (Scr.read_writeList_outside (.inl (by omega))).trans h1
      · exact fun hz => c (BitVec.eq_of_toNat_eq (hl.symm.trans hz))
  | body =>
    obtain ⟨hlen, -⟩ := h.frame_body hp
    rw [parserStep_body hp rfl hlen (by omega)]
    exact ⟨_, _, rfl, Parser.wf_judged (wf' p.fmt.headerLen (by omega)) _, ⟨rfl, rfl, rfl⟩, rfl⟩

end Sys2Proof.Machine
end

