-- ==== Sys2Proof/Laws/Rings.lean ====
section
/-! SUPPORT. Laws of one ring instance: the cursors' arithmetic, and what copy-in, copy-out and a forced put do to the registers, the store and the contents. -/

namespace Sys2Proof.Machine

/-! ## Arithmetic -/

theorem mod_twice {x n : Nat} (h : x < 2 * n) : x % n = if x < n then x else x - n := by
  split
  · exact Nat.mod_eq_of_lt ‹_›
  · rw [Nat.mod_eq_sub_mod (by omega), Nat.mod_eq_of_lt (by omega)]

theorem Index.toNat_ofNat {x : Nat} (h : x ≤ 32767) : (BitVec.ofNat 15 x : Index).toNat = x := by
  rw [BitVec.toNat_ofNat, Nat.mod_eq_of_lt (by omega)]

/-- The cursors are inside the array and the capacity is legal. -/
abbrev Ring.InBounds (r : Ring) : Prop :=
  r.size ≤ 32767 ∧ r.ri.toNat < r.size ∧ r.wi.toNat < r.size

/-- `DATA_LEN` by cases on the mirrors and the order of the cursors (10_state.md R19). -/
theorem Ring.dataLen_cases {r : Ring} (h : r.InBounds) :
    r.dataLen =
      if r.rm = r.wm then
        (if r.ri.toNat ≤ r.wi.toNat then r.wi.toNat - r.ri.toNat
         else 2 * r.size + r.wi.toNat - r.ri.toNat)
      else r.size + r.wi.toNat - r.ri.toNat := by
  obtain ⟨-, h1, h2⟩ := h
  have key : ∀ x y, x = y + 2 * r.size → y < 2 * r.size → x % (2 * r.size) = y := by
    rintro x y rfl hy; rw [Nat.add_mod_right, Nat.mod_eq_of_lt hy]
  unfold Ring.dataLen Ring.ew Ring.er
  cases r.rm <;> cases r.wm <;>
    simp only [Bool.toNat_true, Bool.toNat_false, reduceCtorEq, if_true, if_false, Nat.zero_mul,
      Nat.one_mul, Nat.zero_add]
  · split
    · exact key _ _ (by omega) (by omega)
    · rw [Nat.mod_eq_of_lt (by omega)]; omega
  · exact key _ _ (by omega) (by omega)
  · rw [Nat.mod_eq_of_lt (by omega)]; omega
  · split
    · exact key _ _ (by omega) (by omega)
    · rw [Nat.mod_eq_of_lt (by omega)]; omega

/-- The mirrors agree with the order of the cursors exactly when the ring holds no more than its capacity (R24 b, d). -/
theorem Ring.mirrors_iff {r : Ring} (h : r.InBounds) :
    ((r.ri.toNat < r.wi.toNat → r.wm = r.rm) ∧ (r.wi.toNat < r.ri.toNat → r.wm ≠ r.rm)) ↔
      r.dataLen ≤ r.size := by
  rw [Ring.dataLen_cases h]
  obtain ⟨h0, h1, h2⟩ := h
  by_cases e : r.rm = r.wm
  · rw [if_pos e]
    constructor
    · rintro ⟨-, hb⟩
      have : ¬ r.wi.toNat < r.ri.toNat := fun c => hb c e.symm
      split <;> omega
    · intro hle
      refine ⟨fun _ => e.symm, fun c => ?_⟩
      split at hle <;> omega
  · rw [if_neg e]
    constructor
    · rintro ⟨ha, -⟩
      have : ¬ r.ri.toNat < r.wi.toNat := fun c => e (ha c).symm
      omega
    · intro hle
      exact ⟨fun c => by omega, fun _ c => e c.symm⟩

theorem Ring.Wf.inBounds {r : Ring} (h : r.Wf) : r.InBounds := ⟨h.1.2, h.2.1⟩

theorem Ring.Wf.dataLen_le {r : Ring} (h : r.Wf) : r.dataLen ≤ r.size :=
  (Ring.mirrors_iff h.inBounds).1 ⟨h.2.2.1, h.2.2.2.1⟩

theorem Ring.spaceLen_le (r : Ring) : r.spaceLen ≤ r.size := Nat.sub_le _ _

theorem Ring.Wf.data_add_space {r : Ring} (h : r.Wf) : r.dataLen + r.spaceLen = r.size := by
  have := h.dataLen_le; unfold Ring.spaceLen; omega

/-- The well-formedness of a ring from its capacity invariant. -/
theorem Ring.wf_of {r : Ring} (hs : 1 ≤ r.size) (hb : r.InBounds) (hd : r.dataLen ≤ r.size)
    (hm : Mem.wf r.buf) (he : ∀ e ∈ r.buf, e.1 < r.size)
    (hc : ∀ i < r.dataLen, (Mem.read r.buf (r.slot i)).isSome) : r.Wf :=
  ⟨⟨hs, hb.1⟩, hb.2, ((Ring.mirrors_iff hb).2 hd).1, ((Ring.mirrors_iff hb).2 hd).2, ⟨hm, he⟩, hc⟩

/-- The index after the last byte held is the write index. -/
theorem Ring.slot_dataLen {r : Ring} (h : r.Wf) (j : Nat) :
    r.slot (r.dataLen + j) = (r.wi.toNat + j) % r.size := by
  have hb := h.inBounds
  have hd := h.dataLen_le
  have key : (r.ri.toNat + r.dataLen) % r.size = r.wi.toNat := by
    rw [mod_twice (by omega)]
    rw [Ring.dataLen_cases hb] at hd ⊢
    obtain ⟨h0, h1, h2⟩ := hb
    split_ifs at hd ⊢ <;> omega
  unfold Ring.slot
  rw [← Nat.add_assoc, Nat.add_mod, key, Nat.add_mod_mod]

theorem Ring.slot_lt {r : Ring} (h : 1 ≤ r.size) (i : Nat) : r.slot i < r.size :=
  Nat.mod_lt _ (by omega)

@[simp] theorem Ring.length_content (r : Ring) : r.content.length = r.dataLen := by
  simp [Ring.content]

theorem Ring.getElem_content {r : Ring} {i : Nat} (h : i < r.dataLen) :
    r.content[i]? = some (Mem.read r.buf (r.slot i)) := by
  simp [Ring.content, h]

/-! ## Copy-in -/

section store
variable (r : Ring) (d : List Byte)

@[simp] theorem rbStore_size : (rbStore r d).size = r.size := by
  unfold rbStore; dsimp only; split_ifs <;> rfl
@[simp] theorem rbStore_mode : (rbStore r d).mode = r.mode := by
  unfold rbStore; dsimp only; split_ifs <;> rfl
@[simp] theorem rbStore_ri : (rbStore r d).ri = r.ri := by
  unfold rbStore; dsimp only; split_ifs <;> rfl
@[simp] theorem rbStore_rm : (rbStore r d).rm = r.rm := by
  unfold rbStore; dsimp only; split_ifs <;> rfl
@[simp] theorem rbStore_shut : (rbStore r d).shut = r.shut := by
  unfold rbStore; dsimp only; split_ifs <;> rfl
@[simp] theorem rbStore_pending : (rbStore r d).pending = r.pending := by
  unfold rbStore; dsimp only; split_ifs <;> rfl

end store

/-- The write index after a copy-in (20_memory.md R45). -/
theorem rbStore_wi {r : Ring} (hb : r.InBounds) {d : List Byte} (hk : d.length ≤ r.size) :
    (rbStore r d).wi.toNat = (r.wi.toNat + d.length) % r.size := by
  obtain ⟨h0, h1, h2⟩ := hb
  rw [mod_twice (by omega)]
  unfold rbStore; dsimp only
  split_ifs <;> try (dsimp only; rw [Index.toNat_ofNat (by omega)])
  all_goals omega

/-- The write mirror after a copy-in: inverted when the index wraps (R45). -/
theorem rbStore_wm {r : Ring} (hb : r.InBounds) (d : List Byte) :
    (rbStore r d).wm = (r.wm ^^ decide (r.size ≤ r.wi.toNat + d.length)) := by
  obtain ⟨h0, h1, h2⟩ := hb
  unfold rbStore; dsimp only
  split_ifs
  · simp [show ¬ r.size ≤ r.wi.toNat + d.length by omega]
  · simp [show ¬ r.size ≤ r.wi.toNat + d.length by omega]
  · simp [show r.size ≤ r.wi.toNat + d.length by omega]

/-- The store after a copy-in, byte by byte (R45). -/
theorem rbStore_read {r : Ring} (hb : r.InBounds) {d : List Byte} (hk : d.length ≤ r.size) {j : Nat}
    (hj : j < d.length) : Mem.read (rbStore r d).buf ((r.wi.toNat + j) % r.size) = d[j]? := by
  obtain ⟨h0, h1, h2⟩ := hb
  rw [mod_twice (by omega)]
  unfold rbStore; dsimp only
  rw [if_neg (by omega)]
  by_cases c2 : r.size - r.wi.toNat > d.length
  · rw [if_pos c2, if_pos (by omega), Mem.read_writeList_inside (by omega) (by omega)]
    congr 1; omega
  · rw [if_neg c2]
    by_cases c3 : r.wi.toNat + j < r.size
    · rw [if_pos c3, Mem.read_writeList_outside (by simp only [List.length_drop]; omega),
        Mem.read_writeList_inside (by omega) (by simp only [List.length_take]; omega),
        List.getElem?_take, if_pos (by omega)]
      congr 1; omega
    · rw [if_neg c3,
        Mem.read_writeList_inside (by omega) (by simp only [List.length_drop]; omega),
        List.getElem?_drop]
      congr 1; omega

theorem rbStore_read_untouched {r : Ring} (hb : r.InBounds) {d : List Byte} (hk : d.length ≤ r.size)
    {a : Nat} (h : r.Untouched d.length a) : Mem.read (rbStore r d).buf a = Mem.read r.buf a := by
  obtain ⟨h0, h1, h2⟩ := hb
  have out : ∀ j < d.length, a ≠ if r.wi.toNat + j < r.size then r.wi.toNat + j
      else r.wi.toNat + j - r.size := fun j hj => by
    rw [← mod_twice (by omega)]; exact h j hj
  unfold rbStore; dsimp only
  split_ifs with c1 c2
  · rfl
  · refine Mem.read_writeList_outside ?_
    by_contra hc
    have := out (a - r.wi.toNat) (by omega)
    rw [if_pos (by omega)] at this; omega
  · rw [Mem.read_writeList_outside, Mem.read_writeList_outside]
    · by_contra hc
      simp only [List.length_take] at hc
      have := out (a - r.wi.toNat) (by omega)
      rw [if_pos (by omega)] at this; omega
    · by_contra hc
      simp only [List.length_drop] at hc
      have := out (a + r.size - r.wi.toNat) (by omega)
      rw [if_neg (by omega)] at this; omega

theorem rbStore_inBounds {r : Ring} (hb : r.InBounds) {d : List Byte} (hk : d.length ≤ r.size) :
    (rbStore r d).InBounds := by
  refine ⟨by simpa using hb.1, by simpa using hb.2.1, ?_⟩
  rw [rbStore_wi hb hk, rbStore_size]; exact Nat.mod_lt _ (by omega)

/-- A copy-in that fits raises `DATA_LEN` by its length (40_ringbuffer.md R90 b). -/
theorem rbStore_dataLen {r : Ring} (h : r.Wf) {d : List Byte} (hk : d.length ≤ r.spaceLen) :
    (rbStore r d).dataLen = r.dataLen + d.length := by
  have hb := h.inBounds
  have hks : d.length ≤ r.size := hk.trans r.spaceLen_le
  have hsp := h.data_add_space
  have hd := h.dataLen_le
  rw [Ring.dataLen_cases (rbStore_inBounds hb hks), rbStore_wi hb hks, rbStore_wm hb,
    rbStore_ri, rbStore_rm, rbStore_size, mod_twice (by omega)]
  have hle : r.dataLen + d.length ≤ r.size := by omega
  rw [Ring.dataLen_cases hb] at hle hd ⊢
  obtain ⟨h0, h1, h2⟩ := hb
  by_cases c : r.size ≤ r.wi.toNat + d.length
  · have c' : ¬ r.wi.toNat + d.length < r.size := by omega
    simp only [c, c', decide_true, if_false, Bool.xor_true]
    cases hrm : r.rm <;> cases hwm : r.wm <;>
      simp only [hrm, hwm, reduceCtorEq, if_true, if_false, Bool.not_true, Bool.not_false]
        at hle hd ⊢ <;>
      first | omega | (split_ifs at hle hd ⊢ <;> omega)
  · have c' : r.wi.toNat + d.length < r.size := by omega
    simp only [c, c', decide_false, if_true, Bool.xor_false]
    cases hrm : r.rm <;> cases hwm : r.wm <;>
      simp only [hrm, hwm, reduceCtorEq, if_true, if_false] at hle hd ⊢ <;>
      first | omega | (split_ifs at hle hd ⊢ <;> omega)

theorem rbStore_buf_wf {r : Ring} (h : Mem.wf r.buf) (d : List Byte) : Mem.wf (rbStore r d).buf := by
  unfold rbStore; dsimp only
  split_ifs
  · exact h
  · exact Mem.wf_writeList h _ _
  · exact Mem.wf_writeList (Mem.wf_writeList h _ _) _ _

theorem rbStore_buf_bound {r : Ring} (hb : r.InBounds) (h : ∀ e ∈ r.buf, e.1 < r.size)
    {d : List Byte} (hk : d.length ≤ r.size) : ∀ e ∈ (rbStore r d).buf, e.1 < r.size := by
  obtain ⟨h0, h1, h2⟩ := hb
  unfold rbStore; dsimp only
  split_ifs
  · exact h
  · exact Mem.bound_writeList h (.inl (by omega))
  · refine Mem.bound_writeList (Mem.bound_writeList h (.inl ?_)) (.inl ?_)
    · simp only [List.length_take]; omega
    · simp only [List.length_drop]; omega

/-- The slot of the `i`-th oldest byte depends on the read cursor alone. -/
@[simp] theorem rbStore_slot (r : Ring) (d : List Byte) (i : Nat) :
    (rbStore r d).slot i = r.slot i := by simp [Ring.slot]

theorem Ring.slot_inj {r : Ring} (hb : r.InBounds) {i j : Nat} (hi : i < r.size) (hj : j < r.size)
    (h : r.slot i = r.slot j) : i = j := by
  obtain ⟨h0, h1, h2⟩ := hb
  unfold Ring.slot at h
  rw [mod_twice (by omega), mod_twice (by omega)] at h
  split_ifs at h <;> omega

/-- A copy-in that fits appends its bytes to `CONTENT` (20_memory.md R48). -/
theorem rbStore_content {r : Ring} (h : r.Wf) {d : List Byte} (hk : d.length ≤ r.spaceLen) :
    (rbStore r d).content = r.content ++ d.map some := by
  have hb := h.inBounds
  have hks : d.length ≤ r.size := hk.trans r.spaceLen_le
  have hsp := h.data_add_space
  apply List.ext_getElem?
  intro i
  by_cases hi : i < r.dataLen + d.length
  · rw [Ring.getElem_content (by rw [rbStore_dataLen h hk]; exact hi), rbStore_slot]
    by_cases hi2 : i < r.dataLen
    · rw [List.getElem?_append_left (by simpa), Ring.getElem_content hi2]
      congr 1
      refine rbStore_read_untouched hb hks fun j hj => ?_
      rw [← Ring.slot_dataLen h]
      intro e
      have := Ring.slot_inj hb (by omega) (by omega) e
      omega
    · rw [List.getElem?_append_right (by simpa using hi2), List.getElem?_map, Ring.length_content]
      have : r.slot i = (r.wi.toNat + (i - r.dataLen)) % r.size := by
        rw [← Ring.slot_dataLen h]; congr 1; omega
      rw [this, rbStore_read hb hks (by omega), List.getElem?_eq_getElem (by omega)]; rfl
  · rw [List.getElem?_eq_none (by rw [Ring.length_content, rbStore_dataLen h hk]; omega),
      List.getElem?_eq_none (by simp; omega)]

/-- Every byte of the contents has been written, said of the list. -/
theorem Ring.content_written {r : Ring} :
    (∀ i < r.dataLen, (Mem.read r.buf (r.slot i)).isSome) ↔ ∀ x ∈ r.content, x.isSome := by
  simp [Ring.content]

theorem Ring.Wf.written {r : Ring} (h : r.Wf) : ∀ x ∈ r.content, x.isSome :=
  Ring.content_written.1 h.2.2.2.2.2

/-- A copy-in that fits keeps the invariants of R24. -/
theorem rbStore_wf {r : Ring} (h : r.Wf) {d : List Byte} (hk : d.length ≤ r.spaceLen) :
    (rbStore r d).Wf := by
  have hb := h.inBounds
  have hks : d.length ≤ r.size := hk.trans r.spaceLen_le
  have hsp := h.data_add_space
  refine Ring.wf_of (by simpa using h.1.1) (rbStore_inBounds hb hks) ?_
    (rbStore_buf_wf h.2.2.2.2.1.1 d) ?_ ?_
  · rw [rbStore_dataLen h hk, rbStore_size]; omega
  · rw [rbStore_size]; exact rbStore_buf_bound hb h.2.2.2.2.1.2 hks
  · rw [Ring.content_written, rbStore_content h hk]
    simp only [List.mem_append, List.mem_map]
    rintro x (hx | ⟨b, -, rfl⟩)
    · exact h.written x hx
    · rfl

/-! ## Copy-out -/

/-- What a copy-out of held bytes answers (20_memory.md R46): the oldest bytes, and the read cursor moved over them. -/
theorem rbLoad_spec {r : Ring} (h : r.Wf) {k : Nat} (hk : k ≤ r.dataLen) :
    ∃ out, rbLoad r k = some (out, { r with
        ri := BitVec.ofNat 15 ((r.ri.toNat + k) % r.size)
        rm := (r.rm ^^ decide (r.size ≤ r.ri.toNat + k)) }) ∧
      out.map some = r.content.take k := by
  have hb := h.inBounds
  have hd := h.dataLen_le
  obtain ⟨h0, h1, h2⟩ := hb
  have hw : ∀ i < k, (Mem.read r.buf (r.slot i)).isSome := fun i hi => h.2.2.2.2.2 i (by omega)
  have tk : ∀ out : List Byte, out.length = k → (∀ j < k, Mem.read r.buf (r.slot j) = out[j]?) →
      out.map some = r.content.take k := by
    intro out ho hr
    apply List.ext_getElem?
    intro i
    rw [List.getElem?_take, List.getElem?_map]
    split_ifs with c
    · rw [Ring.getElem_content (by omega), hr i c, List.getElem?_eq_getElem (by omega)]; rfl
    · rw [List.getElem?_eq_none (by omega)]; rfl
  unfold rbLoad; dsimp only
  rw [mod_twice (by omega)]
  by_cases c1 : k = 0
  · refine ⟨[], ?_, by simp [c1]⟩
    subst c1
    simp [show ¬ r.size ≤ r.ri.toNat by omega, h1]
  rw [if_neg c1]
  by_cases c2 : r.size - r.ri.toNat > k
  · rw [if_pos c2, if_pos (by omega)]
    obtain ⟨out, ho⟩ := Option.isSome_iff_exists.1 (Mem.readList_isSome (m := r.buf)
      (i := r.ri.toNat) (n := k) fun j hj => by
        have := hw j hj; unfold Ring.slot at this
        rwa [mod_twice (by omega), if_pos (by omega)] at this)
    obtain ⟨hl, hr⟩ := Mem.readList_eq_some.1 ho
    refine ⟨out, ?_, tk out hl fun j hj => ?_⟩
    · rw [ho]; simp [show ¬ r.size ≤ r.ri.toNat + k by omega]
    · rw [← hr j hj]; unfold Ring.slot; rw [mod_twice (by omega), if_pos (by omega)]
  · rw [if_neg c2, if_neg (by omega)]
    obtain ⟨x, hx⟩ := Option.isSome_iff_exists.1 (Mem.readList_isSome (m := r.buf)
      (i := r.ri.toNat) (n := r.size - r.ri.toNat) fun j hj => by
        have := hw j (by omega); unfold Ring.slot at this
        rwa [mod_twice (by omega), if_pos (by omega)] at this)
    obtain ⟨y, hy⟩ := Option.isSome_iff_exists.1 (Mem.readList_isSome (m := r.buf)
      (i := 0) (n := k - (r.size - r.ri.toNat)) fun j hj => by
        have := hw (r.size - r.ri.toNat + j) (by omega); unfold Ring.slot at this
        rw [mod_twice (by omega), if_neg (by omega)] at this
        convert this using 3; omega)
    obtain ⟨hlx, hrx⟩ := Mem.readList_eq_some.1 hx
    obtain ⟨hly, hry⟩ := Mem.readList_eq_some.1 hy
    refine ⟨x ++ y, ?_, tk _ (by simp; omega) fun j hj => ?_⟩
    · rw [hx, hy]
      simp only [show r.size ≤ r.ri.toNat + k by omega, decide_true, Bool.xor_true]
      rw [show k - (r.size - r.ri.toNat) = r.ri.toNat + k - r.size by omega]
    · unfold Ring.slot; rw [mod_twice (by omega)]
      split_ifs with c
      · rw [List.getElem?_append_left (by omega), ← hrx j (by omega)]
      · rw [List.getElem?_append_right (by omega), ← hry _ (by omega)]; congr 1; omega

/-- The ring after a copy-out of `k` held bytes. -/
abbrev Ring.advance (r : Ring) (k : Nat) : Ring := { r with
  ri := BitVec.ofNat 15 ((r.ri.toNat + k) % r.size)
  rm := (r.rm ^^ decide (r.size ≤ r.ri.toNat + k)) }

theorem Ring.advance_ri {r : Ring} (h : r.Wf) (k : Nat) :
    (r.advance k).ri.toNat = (r.ri.toNat + k) % r.size := by
  have := Nat.mod_lt (r.ri.toNat + k) (show 0 < r.size by have := h.1.1; omega)
  exact Index.toNat_ofNat (by have := h.inBounds.1; omega)

theorem Ring.advance_inBounds {r : Ring} (h : r.Wf) (k : Nat) : (r.advance k).InBounds := by
  refine ⟨h.inBounds.1, ?_, h.inBounds.2.2⟩
  rw [Ring.advance_ri h]; exact Nat.mod_lt _ (by have := h.1.1; show 0 < r.size; omega)

/-- A copy-out lowers `DATA_LEN` by the bytes taken (40_ringbuffer.md R90 b). -/
theorem Ring.advance_dataLen {r : Ring} (h : r.Wf) {k : Nat} (hk : k ≤ r.dataLen) :
    (r.advance k).dataLen = r.dataLen - k := by
  have hb := h.inBounds
  have hd := h.dataLen_le
  rw [Ring.dataLen_cases (Ring.advance_inBounds h k), Ring.advance_ri h, mod_twice (by omega)]
  rw [Ring.dataLen_cases hb] at hk hd ⊢
  obtain ⟨h0, h1, h2⟩ := hb
  dsimp only [Ring.advance]
  by_cases c : r.size ≤ r.ri.toNat + k
  · have c' : ¬ r.ri.toNat + k < r.size := by omega
    simp only [c, c', decide_true, if_false, Bool.xor_true]
    cases hrm : r.rm <;> cases hwm : r.wm <;>
      simp only [hrm, hwm, reduceCtorEq, if_true, if_false, Bool.not_true, Bool.not_false]
        at hk hd ⊢ <;>
      first | omega | (split_ifs at hk hd ⊢ <;> omega)
  · have c' : r.ri.toNat + k < r.size := by omega
    simp only [c, c', decide_false, if_true, Bool.xor_false]
    cases hrm : r.rm <;> cases hwm : r.wm <;>
      simp only [hrm, hwm, reduceCtorEq, if_true, if_false] at hk hd ⊢ <;>
      first | omega | (split_ifs at hk hd ⊢ <;> omega)

theorem Ring.advance_slot {r : Ring} (h : r.Wf) (k i : Nat) :
    (r.advance k).slot i = r.slot (k + i) := by
  unfold Ring.slot
  rw [Ring.advance_ri h, Nat.mod_add_mod]; congr 1; omega

/-- A copy-out drops the bytes taken from `CONTENT` (20_memory.md R48). -/
theorem Ring.advance_content {r : Ring} (h : r.Wf) {k : Nat} (hk : k ≤ r.dataLen) :
    (r.advance k).content = r.content.drop k := by
  apply List.ext_getElem?
  intro i
  rw [List.getElem?_drop]
  by_cases hi : i < r.dataLen - k
  · rw [Ring.getElem_content (by rw [Ring.advance_dataLen h hk]; exact hi),
      Ring.getElem_content (by omega), Ring.advance_slot h]
  · rw [List.getElem?_eq_none (by rw [Ring.length_content, Ring.advance_dataLen h hk]; omega),
      List.getElem?_eq_none (by rw [Ring.length_content]; omega)]

/-- A copy-out keeps the invariants of R24. -/
theorem Ring.advance_wf {r : Ring} (h : r.Wf) {k : Nat} (hk : k ≤ r.dataLen) : (r.advance k).Wf := by
  refine Ring.wf_of h.1.1 (Ring.advance_inBounds h k) ?_ h.2.2.2.2.1.1 h.2.2.2.2.1.2 ?_
  · rw [Ring.advance_dataLen h hk]; have := h.dataLen_le; show r.dataLen - k ≤ r.size; omega
  · rw [Ring.content_written, Ring.advance_content h hk]
    exact fun x hx => h.written x (List.mem_of_mem_drop hx)

/-! ## Forced put -/

/-- A forced put that fits is a copy-in (40_ringbuffer.md R91). -/
theorem forceInto_fits {r : Ring} {d : List Byte} (h : d.length ≤ r.spaceLen) :
    forceInto r d = rbStore r d := by
  unfold forceInto; rw [if_neg (by omega)]

/-- A forced put that does not fit leaves the ring full, holding the newest `SIZE` bytes (R91). -/
theorem forceInto_overflow {r : Ring} (h : r.Wf) {d : List Byte} (hk : d.length ≤ r.size)
    (ho : r.spaceLen < d.length) :
    (forceInto r d).dataLen = r.size ∧
      (forceInto r d).content =
        (r.content ++ d.map some).drop (r.dataLen + d.length - r.size) := by
  have hb := h.inBounds
  have hsp := h.data_add_space
  have hd := h.dataLen_le
  have hb' := rbStore_inBounds hb hk
  have hf : forceInto r d =
      { rbStore r d with ri := (rbStore r d).wi, rm := !(rbStore r d).wm } := by
    unfold forceInto; rw [if_pos ho]
  have hbf : (forceInto r d).InBounds := by
    rw [hf]; exact ⟨hb'.1, hb'.2.2, hb'.2.2⟩
  have hlen : (forceInto r d).dataLen = r.size := by
    rw [Ring.dataLen_cases hbf, hf]; simp
  refine ⟨hlen, ?_⟩
  obtain ⟨h0, h1, h2⟩ := hb
  have hslot : ∀ i, (forceInto r d).slot i = (r.wi.toNat + d.length + i) % r.size := by
    intro i; rw [hf]; unfold Ring.slot; dsimp only
    rw [rbStore_wi ⟨h0, h1, h2⟩ hk, rbStore_size, Nat.mod_add_mod]
  have hbuf : (forceInto r d).buf = (rbStore r d).buf := by rw [hf]
  apply List.ext_getElem?
  intro i
  rw [List.getElem?_drop]
  by_cases hi : i < r.size
  · rw [Ring.getElem_content (by omega), hslot, hbuf]
    by_cases c : r.dataLen + d.length - r.size + i < r.dataLen
    · rw [List.getElem?_append_left (by simpa), Ring.getElem_content c]
      congr 1
      have e : (r.wi.toNat + d.length + i) % r.size =
          r.slot (r.dataLen + d.length - r.size + i) := by
        have : r.slot (r.dataLen + (d.length + i)) = r.slot (r.dataLen + d.length - r.size + i) := by
          unfold Ring.slot
          rw [show r.ri.toNat + (r.dataLen + (d.length + i)) =
            r.ri.toNat + (r.dataLen + d.length - r.size + i) + r.size by omega, Nat.add_mod_right]
        rw [← this, Ring.slot_dataLen h]; congr 1; omega
      rw [e]
      refine rbStore_read_untouched ⟨h0, h1, h2⟩ hk fun j hj he => ?_
      rw [← Ring.slot_dataLen h] at he
      by_cases hj2 : r.dataLen + j < r.size
      · have := Ring.slot_inj ⟨h0, h1, h2⟩ (by omega) hj2 he; omega
      · have hs : r.slot (r.dataLen + j) = r.slot (r.dataLen + j - r.size) := by
          unfold Ring.slot
          rw [show r.ri.toNat + (r.dataLen + j) = r.ri.toNat + (r.dataLen + j - r.size) + r.size by
            omega, Nat.add_mod_right]
        rw [hs] at he
        have := Ring.slot_inj ⟨h0, h1, h2⟩ (by omega) (by omega) he; omega
    · rw [List.getElem?_append_right (by simpa using c), List.getElem?_map, Ring.length_content]
      have e : (r.wi.toNat + d.length + i) % r.size =
          (r.wi.toNat + (r.dataLen + d.length - r.size + i - r.dataLen)) % r.size := by
        rw [show r.wi.toNat + d.length + i =
          r.wi.toNat + (r.dataLen + d.length - r.size + i - r.dataLen) + r.size by omega,
          Nat.add_mod_right]
      rw [e, rbStore_read ⟨h0, h1, h2⟩ hk (by omega), List.getElem?_eq_getElem (by omega)]; rfl
  · rw [List.getElem?_eq_none (by rw [Ring.length_content]; omega),
      List.getElem?_eq_none (by simp; omega)]

/-- A forced put keeps the invariants of R24. -/
theorem forceInto_wf {r : Ring} (h : r.Wf) {d : List Byte} (hk : d.length ≤ r.size) :
    (forceInto r d).Wf := by
  by_cases ho : d.length ≤ r.spaceLen
  · rw [forceInto_fits ho]; exact rbStore_wf h ho
  · have ho' : r.spaceLen < d.length := by omega
    obtain ⟨hl, hc⟩ := forceInto_overflow h hk ho'
    have hb' := rbStore_inBounds h.inBounds hk
    have hf : forceInto r d =
        { rbStore r d with ri := (rbStore r d).wi, rm := !(rbStore r d).wm } := by
      unfold forceInto; rw [if_pos ho']
    have hsz : (forceInto r d).size = r.size := by rw [hf]; simp
    refine Ring.wf_of (by rw [hsz]; exact h.1.1) (by rw [hf]; exact ⟨hb'.1, hb'.2.2, hb'.2.2⟩)
      (by omega) (by rw [hf]; exact rbStore_buf_wf h.2.2.2.2.1.1 d) ?_ ?_
    · rw [hsz, hf]; exact rbStore_buf_bound h.inBounds h.2.2.2.2.1.2 hk
    · rw [Ring.content_written, hc]
      intro x hx
      have := List.mem_of_mem_drop hx
      simp only [List.mem_append, List.mem_map] at this
      rcases this with hx | ⟨b, -, rfl⟩
      · exact h.written x hx
      · rfl

end Sys2Proof.Machine
end

