-- ==== Sys2Proof/Laws/State.lean ====
section
/-! SUPPORT. Laws of the state's updates: what each named update leaves as it is, one lemma per field. -/

namespace Sys2Proof.Machine

/-! ## Replies -/

section reply
variable (s : State) (who : Agent) (res : Result) (ev : Event) (m : Moved)

@[simp] theorem reply_params : (s.reply who res ev m).params = s.params := rfl
@[simp] theorem reply_chains : (s.reply who res ev m).chains = s.chains := rfl
@[simp] theorem reply_pmon : (s.reply who res ev m).pmon = s.pmon := rfl
@[simp] theorem reply_who : (s.reply who res ev m).who = s.who := rfl
@[simp] theorem reply_turns : (s.reply who res ev m).turns = s.turns := rfl
@[simp] theorem reply_releaseOrder : (s.reply who res ev m).releaseOrder = s.releaseOrder := rfl
@[simp] theorem reply_replies : (s.reply who res ev m).replies = ⟨who, res, ev, m⟩ :: s.replies := rfl
@[simp] theorem reply_ring? (rb : RingId) : (s.reply who res ev m).ring? rb = s.ring? rb := rfl
@[simp] theorem reply_named (rb : RingId) : (s.reply who res ev m).named rb = s.named rb := rfl

theorem setRing_reply (rb : RingId) (r : Ring) :
    (s.reply who res ev m).setRing rb r = (s.setRing rb r).reply who res ev m := by
  unfold State.setRing
  cases chainOf rb with
  | none => rfl
  | some c =>
    simp only [reply_chains]
    cases s.chains[c]? <;> rfl

theorem setChain_reply (c : Nat) (ch : Chain) :
    (s.reply who res ev m).setChain c ch = (s.setChain c ch).reply who res ev m := rfl

end reply

/-! ## Fields that no instance or chain depends on -/

section fields
variable (s : State)

@[simp] theorem ring?_turns (l : List Turn) (rb : RingId) :
    ({ s with turns := l } : State).ring? rb = s.ring? rb := rfl
@[simp] theorem ring?_turns_who (l : List Turn) (w : Agent) (rb : RingId) :
    ({ s with turns := l, who := w } : State).ring? rb = s.ring? rb := rfl
@[simp] theorem ring?_releaseOrder (l : List Nat) (rb : RingId) :
    ({ s with releaseOrder := l } : State).ring? rb = s.ring? rb := rfl
@[simp] theorem ctx_turns_who (l : List Turn) (w : Agent) :
    ({ s with turns := l, who := w } : State).ctx = s.ctx := rfl

end fields

/-! ## Chains -/

section setChain
variable (s : State) (c : Nat) (ch : Chain)

@[simp] theorem setChain_params : (s.setChain c ch).params = s.params := rfl
@[simp] theorem setChain_pmon : (s.setChain c ch).pmon = s.pmon := rfl
@[simp] theorem setChain_who : (s.setChain c ch).who = s.who := rfl
@[simp] theorem setChain_turns : (s.setChain c ch).turns = s.turns := rfl
@[simp] theorem setChain_releaseOrder : (s.setChain c ch).releaseOrder = s.releaseOrder := rfl
@[simp] theorem setChain_replies : (s.setChain c ch).replies = s.replies := rfl
@[simp] theorem setChain_length : (s.setChain c ch).chains.length = s.chains.length := by
  simp [State.setChain]

@[simp] theorem setChain_setChain (ch' : Chain) : (s.setChain c ch).setChain c ch' = s.setChain c ch' := by
  simp [State.setChain]

variable {s c ch}

theorem setChain_chains_same {ch' : Chain} (h : s.chains[c]? = some ch') :
    (s.setChain c ch).chains[c]? = some ch := by
  have := (List.getElem?_eq_some_iff.1 h).1
  simp [State.setChain, this]

theorem setChain_chains_other {c' : Nat} (h : c' ≠ c) :
    (s.setChain c ch).chains[c']? = s.chains[c']? := by
  simp [State.setChain, Ne.symm h]

/-- Putting a chain back as it is changes nothing. -/
theorem setChain_self (h : s.chains[c]? = some ch) : s.setChain c ch = s := by
  obtain ⟨hlt, rfl⟩ := List.getElem?_eq_some_iff.1 h
  simp [State.setChain]

theorem ring?_of_chain {rb : RingId} (hc : chainOf rb = some c) (h : s.chains[c]? = some ch) :
    s.ring? rb = ch.ring? rb := by
  simp [State.ring?, hc, h]

theorem ring?_setChain_same {rb : RingId} {ch' : Chain} (hc : chainOf rb = some c)
    (h : s.chains[c]? = some ch') : (s.setChain c ch).ring? rb = ch.ring? rb :=
  ring?_of_chain hc (setChain_chains_same h)

theorem ring?_setChain_other {rb : RingId} (hc : chainOf rb ≠ some c) :
    (s.setChain c ch).ring? rb = s.ring? rb := by
  unfold State.ring?
  split
  · rfl
  · rename_i c' h
    rw [setChain_chains_other]
    rintro rfl
    exact hc h

end setChain

/-! ## Rings -/

section chainRing
variable (ch : Chain) (rb : RingId) (r : Ring)

@[simp] theorem Chain.setRing_parser : (ch.setRing rb r).parser = ch.parser := by cases rb <;> rfl
@[simp] theorem Chain.setRing_rxs : (ch.setRing rb r).rxs = ch.rxs := by cases rb <;> rfl
@[simp] theorem Chain.setRing_txs : (ch.setRing rb r).txs = ch.txs := by cases rb <;> rfl
@[simp] theorem Chain.setRing_sendAnswers : (ch.setRing rb r).sendAnswers = ch.sendAnswers := by
  cases rb <;> rfl
@[simp] theorem Chain.setRing_rxStopped : (ch.setRing rb r).rxStopped = ch.rxStopped := by
  cases rb <;> rfl
@[simp] theorem Chain.setRing_workStopped : (ch.setRing rb r).workStopped = ch.workStopped := by
  cases rb <;> rfl
@[simp] theorem Chain.setRing_dlStopped : (ch.setRing rb r).dlStopped = ch.dlStopped := by
  cases rb <;> rfl

@[simp] theorem Chain.setRing_aborted : (ch.setRing rb r).aborted = ch.aborted := by cases rb <;> rfl

@[simp] theorem Chain.setRing_setRing (r' : Ring) : (ch.setRing rb r).setRing rb r' = ch.setRing rb r' := by
  cases rb <;> rfl

variable {ch rb r}

theorem Chain.ring?_setRing_same {c : Nat} (h : chainOf rb = some c) :
    (ch.setRing rb r).ring? rb = some r := by cases rb <;> first | rfl | cases h

/-- Two names of rings of one chain that differ denote different rings. -/
theorem Chain.ring?_setRing_other {c : Nat} {rb' : RingId} (h : chainOf rb = some c)
    (h' : chainOf rb' = some c) (hne : rb' ≠ rb) : (ch.setRing rb r).ring? rb' = ch.ring? rb' := by
  cases rb <;> cases rb' <;> simp_all [chainOf, Chain.setRing, Chain.ring?]

theorem Chain.setRing_self {c : Nat} (hc : chainOf rb = some c) (h : ch.ring? rb = some r) :
    ch.setRing rb r = ch := by
  cases rb <;> simp_all [Chain.ring?, Chain.setRing, chainOf] <;> cases ch <;> simp_all

end chainRing

section setRing
variable (s : State) (rb : RingId) (r : Ring)

@[simp] theorem setRing_params : (s.setRing rb r).params = s.params := by
  unfold State.setRing; split <;> [rfl; split] <;> rfl
@[simp] theorem setRing_who : (s.setRing rb r).who = s.who := by
  unfold State.setRing; split <;> [rfl; split] <;> rfl
@[simp] theorem setRing_turns : (s.setRing rb r).turns = s.turns := by
  unfold State.setRing; split <;> [rfl; split] <;> rfl
@[simp] theorem setRing_releaseOrder : (s.setRing rb r).releaseOrder = s.releaseOrder := by
  unfold State.setRing; split <;> [rfl; split] <;> rfl
@[simp] theorem setRing_replies : (s.setRing rb r).replies = s.replies := by
  unfold State.setRing; split <;> [rfl; split] <;> rfl
@[simp] theorem setRing_length : (s.setRing rb r).chains.length = s.chains.length := by
  unfold State.setRing; split <;> [rfl; split] <;> simp

variable {s rb r}

theorem setRing_of_chain {c : Nat} {ch : Chain} (hc : chainOf rb = some c)
    (h : s.chains[c]? = some ch) : s.setRing rb r = s.setChain c (ch.setRing rb r) := by
  simp [State.setRing, hc, h]

theorem setRing_chains_other {c : Nat} (h : chainOf rb ≠ some c) :
    (s.setRing rb r).chains[c]? = s.chains[c]? := by
  unfold State.setRing
  cases hc : chainOf rb with
  | none => rfl
  | some c' =>
    dsimp only
    cases s.chains[c']? with
    | none => rfl
    | some ch =>
      refine setChain_chains_other ?_
      rintro rfl
      exact h hc

theorem setRing_chains_same {c : Nat} {ch : Chain} (hc : chainOf rb = some c)
    (h : s.chains[c]? = some ch) : (s.setRing rb r).chains[c]? = some (ch.setRing rb r) := by
  rw [setRing_of_chain hc h, setChain_chains_same h]

theorem named_of_ring? (h : s.ring? rb = some r) : s.named rb = true := by
  unfold State.ring? at h; unfold State.named
  split at h
  · simp [*]
  · rename_i c hc
    simp only [decide_eq_true_eq]
    by_contra hlt
    rw [List.getElem?_eq_none (by omega)] at h
    cases h

/-- A name that denotes a possible instance: `PMON_RING`, or a ring of a chain that exists. -/
theorem named_iff : s.named rb = true ↔ chainOf rb = none ∨
    ∃ c ch, chainOf rb = some c ∧ s.chains[c]? = some ch := by
  unfold State.named
  split
  · simp [*]
  · rename_i c hc
    simp [hc, List.getElem?_eq_some_iff]

theorem ring?_setRing_same (h : s.named rb = true) : (s.setRing rb r).ring? rb = some r := by
  rcases named_iff.1 h with hc | ⟨c, ch, hc, hch⟩
  · simp [State.setRing, State.ring?, hc]
  · rw [setRing_of_chain hc hch, ring?_setChain_same hc hch, Chain.ring?_setRing_same hc]

theorem ring?_setRing_other {rb' : RingId} (hne : rb' ≠ rb) :
    (s.setRing rb r).ring? rb' = s.ring? rb' := by
  unfold State.setRing
  split
  · rename_i hc
    cases rb <;> cases hc
    cases rb' <;> first | rfl | exact absurd rfl hne
  · rename_i c hc
    split
    · rfl
    · rename_i ch hch
      by_cases hc' : chainOf rb' = some c
      · rw [ring?_setChain_same hc' hch, ring?_of_chain hc' hch, Chain.ring?_setRing_other hc hc' hne]
      · rw [ring?_setChain_other hc']

@[simp] theorem setRing_setRing (s : State) (rb : RingId) (r r' : Ring) :
    (s.setRing rb r).setRing rb r' = s.setRing rb r' := by
  cases hc : chainOf rb with
  | none => simp [State.setRing, hc]
  | some c =>
    cases hch : s.chains[c]? with
    | none =>
      have : s.setRing rb r = s := by simp [State.setRing, hc, hch]
      rw [this]
    | some ch =>
      rw [setRing_of_chain hc hch, setRing_of_chain hc (setChain_chains_same hch),
        setRing_of_chain hc hch]
      simp

@[simp] theorem setRing_named (rb' : RingId) : (s.setRing rb r).named rb' = s.named rb' := by
  unfold State.named; simp

theorem setRing_self (h : s.ring? rb = some r) : s.setRing rb r = s := by
  rcases named_iff.1 (named_of_ring? h) with hc | ⟨c, ch, hc, hch⟩
  · have : s.pmon = some r := by simpa [State.ring?, hc] using h
    simp [State.setRing, hc, ← this]
  · rw [setRing_of_chain hc hch, Chain.setRing_self hc (by rw [← ring?_of_chain hc hch]; exact h),
      setChain_self hch]

theorem setRing_pmon (h : chainOf rb ≠ none) : (s.setRing rb r).pmon = s.pmon := by
  unfold State.setRing
  split
  · exact absurd ‹_› h
  · split <;> rfl

end setRing

/-! ## Stopping an agent -/

section stop
variable (s : State) (who : Agent)

/-- Stopping an agent sets at most one run flag, of the agent's own chain. -/
theorem stopAgent_cases : s.stopAgent who = s ∨ ∃ c ch, who.chain? = some c ∧
    s.chains[c]? = some ch ∧ s.stopAgent who = s.setChain c (ch.stopped who) := by
  unfold State.stopAgent
  cases hw : who.chain? with
  | none => exact .inl rfl
  | some c =>
    cases h : s.chains[c]? with
    | none => left; simp [h]
    | some ch => exact .inr ⟨c, ch, rfl, h, by simp [h]⟩

@[simp] theorem Chain.stopped_ring? (ch : Chain) (rb : RingId) : (ch.stopped who).ring? rb = ch.ring? rb := by
  match who with
  | .host _ | .rx _ | .tx _ .work | .tx _ .dl => cases rb <;> rfl
@[simp] theorem Chain.stopped_parser (ch : Chain) : (ch.stopped who).parser = ch.parser := by
  match who with
  | .host _ | .rx _ | .tx _ .work | .tx _ .dl => rfl
@[simp] theorem Chain.stopped_rxs (ch : Chain) : (ch.stopped who).rxs = ch.rxs := by
  match who with
  | .host _ | .rx _ | .tx _ .work | .tx _ .dl => rfl
@[simp] theorem Chain.stopped_txs (ch : Chain) : (ch.stopped who).txs = ch.txs := by
  match who with
  | .host _ | .rx _ | .tx _ .work | .tx _ .dl => rfl
@[simp] theorem Chain.stopped_sendAnswers (ch : Chain) : (ch.stopped who).sendAnswers = ch.sendAnswers := by
  match who with
  | .host _ | .rx _ | .tx _ .work | .tx _ .dl => rfl

@[simp] theorem Chain.stopped_aborted (ch : Chain) : (ch.stopped who).aborted = ch.aborted := by
  match who with
  | .host _ | .rx _ | .tx _ .work | .tx _ .dl => rfl

@[simp] theorem stopAgent_params : (s.stopAgent who).params = s.params := by
  rcases stopAgent_cases s who with h | ⟨c, ch, -, -, h⟩ <;> simp [h]
@[simp] theorem stopAgent_pmon : (s.stopAgent who).pmon = s.pmon := by
  rcases stopAgent_cases s who with h | ⟨c, ch, -, -, h⟩ <;> simp [h]
@[simp] theorem stopAgent_who : (s.stopAgent who).who = s.who := by
  rcases stopAgent_cases s who with h | ⟨c, ch, -, -, h⟩ <;> simp [h]
@[simp] theorem stopAgent_turns : (s.stopAgent who).turns = s.turns := by
  rcases stopAgent_cases s who with h | ⟨c, ch, -, -, h⟩ <;> simp [h]
@[simp] theorem stopAgent_releaseOrder : (s.stopAgent who).releaseOrder = s.releaseOrder := by
  rcases stopAgent_cases s who with h | ⟨c, ch, -, -, h⟩ <;> simp [h]
@[simp] theorem stopAgent_replies : (s.stopAgent who).replies = s.replies := by
  rcases stopAgent_cases s who with h | ⟨c, ch, -, -, h⟩ <;> simp [h]
@[simp] theorem stopAgent_length : (s.stopAgent who).chains.length = s.chains.length := by
  rcases stopAgent_cases s who with h | ⟨c, ch, -, -, h⟩ <;> simp [h]
@[simp] theorem stopAgent_named (rb : RingId) : (s.stopAgent who).named rb = s.named rb := by
  unfold State.named; simp
@[simp] theorem stopAgent_ring? (rb : RingId) : (s.stopAgent who).ring? rb = s.ring? rb := by
  rcases stopAgent_cases s who with h | ⟨c, ch, -, hch, h⟩
  · rw [h]
  · rw [h]
    by_cases hc : chainOf rb = some c
    · rw [ring?_setChain_same hc hch, ring?_of_chain hc hch]; simp
    · rw [ring?_setChain_other hc]

/-- A chain after an agent has stopped: the same but for its run flags. -/
theorem stopAgent_chains {c : Nat} {ch : Chain} (h : s.chains[c]? = some ch) :
    (s.stopAgent who).chains[c]? = some ch ∨
      (who.chain? = some c ∧ (s.stopAgent who).chains[c]? = some (ch.stopped who)) := by
  rcases stopAgent_cases s who with e | ⟨c', ch', hw, hch, e⟩
  · rw [e]; exact .inl h
  · by_cases hc : c = c'
    · subst hc
      obtain rfl : ch = ch' := by rw [h] at hch; exact Option.some.inj hch
      rw [e, setChain_chains_same h]
      exact .inr ⟨hw, rfl⟩
    · rw [e, setChain_chains_other hc]; exact .inl h

end stop

end Sys2Proof.Machine
end

