-- ==== Sys2Proof/Laws/Ops.lean ====
section
/-! SUPPORT. For each shared operation one lemma that says once everything it can do when it answers a next state, and one that says what it answers on an instance or chain that exists. -/

namespace Sys2Proof.Machine

/-! ## Sequencing and resolving names -/

theorem andThen_next {x : Answer} {f : State → Answer} {t : State} :
    x.andThen f = .next t ↔ ∃ u, x = .next u ∧ f u = .next t := by
  cases x <;> simp [Answer.andThen]

@[simp] theorem next_andThen (s : State) (f : State → Answer) :
    Answer.andThen (.next s) f = f s := rfl

theorem onRing_some {s : State} {rb : RingId} {r : Ring} (h : s.ring? rb = some r) (f : Ring → Answer) :
    s.onRing rb f = f r := by simp [State.onRing, h]

theorem onRing_next {s t : State} {rb : RingId} {f : Ring → Answer} (h : s.onRing rb f = .next t) :
    ∃ r, s.ring? rb = some r ∧ f r = .next t := by
  unfold State.onRing at h
  split at h
  · exact ⟨_, ‹_›, h⟩
  · split at h <;> cases h

theorem onRing_fault {s : State} {rb : RingId} {f : Ring → Answer} {e : Fault}
    (h : s.onRing rb f = .fault e) : ∃ r, s.ring? rb = some r ∧ f r = .fault e := by
  unfold State.onRing at h
  split at h
  · exact ⟨_, ‹_›, h⟩
  · split at h <;> cases h

theorem onChain_some {s : State} {c : Nat} {ch : Chain} (h : s.chains[c]? = some ch)
    (ha : ch.aborted = false) (f : Chain → Answer) : s.onChain c f = f ch := by
  simp [State.onChain, h, ha]

/-- An operation on a chain there is not (30_encoding.md R73). -/
theorem onChain_none {s : State} {c : Nat} (h : s.chains[c]? = none) (f : Chain → Answer) :
    s.onChain c f = .refused .noSuchChain := by simp [State.onChain, h]

/-- An operation on a chain that was not started (60_exceptions.md R177). -/
theorem onChain_aborted {s : State} {c : Nat} {ch : Chain} (h : s.chains[c]? = some ch)
    (ha : ch.aborted = true) (f : Chain → Answer) : s.onChain c f = .refused .chainAborted := by
  simp [State.onChain, h, ha]

theorem onChain_next {s t : State} {c : Nat} {f : Chain → Answer} (h : s.onChain c f = .next t) :
    ∃ ch, s.chains[c]? = some ch ∧ ch.aborted = false ∧ f ch = .next t := by
  unfold State.onChain at h
  split at h
  · split at h
    · cases h
    · exact ⟨_, ‹_›, Bool.eq_false_iff.2 ‹_›, h⟩
  · cases h

theorem onChain_fault {s : State} {c : Nat} {f : Chain → Answer} {e : Fault}
    (h : s.onChain c f = .fault e) :
    ∃ ch, s.chains[c]? = some ch ∧ ch.aborted = false ∧ f ch = .fault e := by
  unfold State.onChain at h
  split at h
  · split at h
    · cases h
    · exact ⟨_, ‹_›, Bool.eq_false_iff.2 ‹_›, h⟩
  · cases h

theorem onParser_some {s : State} {c : Nat} {ch : Chain} (h : s.chains[c]? = some ch)
    (ha : ch.aborted = false) (hr : ch.parser.ready = true) (f : Chain → Answer) :
    s.onParser c f = f ch := by
  unfold State.onParser; rw [onChain_some h ha, if_pos hr]

theorem onParser_next {s t : State} {c : Nat} {f : Chain → Answer} (h : s.onParser c f = .next t) :
    ∃ ch, s.chains[c]? = some ch ∧ ch.aborted = false ∧ ch.parser.ready = true ∧ f ch = .next t := by
  obtain ⟨ch, h1, ha, h2⟩ := onChain_next h
  split at h2
  · exact ⟨ch, h1, ha, ‹_›, h2⟩
  · cases h2

theorem onParser_fault {s : State} {c : Nat} {f : Chain → Answer} {e : Fault}
    (h : s.onParser c f = .fault e) :
    ∃ ch, s.chains[c]? = some ch ∧ ch.aborted = false ∧ ch.parser.ready = true ∧ f ch = .fault e := by
  obtain ⟨ch, h1, ha, h2⟩ := onChain_fault h
  split at h2
  · exact ⟨ch, h1, ha, ‹_›, h2⟩
  · cases h2

/-! ## Taking bytes out -/

theorem taken_next {s t : State} {rb : RingId} {r : Ring} {k : Nat} {f : List Byte → State → Answer}
    (h : s.taken rb r k f = .next t) :
    ∃ out r', rbLoad r k = some (out, r') ∧ f out (s.setRing rb r') = .next t := by
  unfold State.taken at h
  split at h
  · exact ⟨_, _, ‹_›, h⟩
  · cases h

/-- Under the invariant a take never faults, and hands on the oldest bytes (20_memory.md R46). -/
theorem taken_of_wf {s : State} {rb : RingId} {r : Ring} {k : Nat} (h : r.Wf) (hk : k ≤ r.dataLen)
    (f : List Byte → State → Answer) :
    ∃ out, s.taken rb r k f = f out (s.setRing rb (r.advance k)) ∧
      out.map some = r.content.take k ∧ out.length = k := by
  obtain ⟨out, ho, hc⟩ := rbLoad_spec h hk
  refine ⟨out, by unfold State.taken; rw [ho], hc, ?_⟩
  have := congrArg List.length hc
  simpa [Nat.min_eq_left hk] using this

/-- What copy-out leaves of a ring, whatever it hands out. -/
theorem rbLoad_keeps {r r' : Ring} {k : Nat} {out : List Byte} (h : rbLoad r k = some (out, r')) :
    r'.size = r.size ∧ r'.mode = r.mode ∧ r'.buf = r.buf ∧ r'.wi = r.wi ∧ r'.wm = r.wm ∧
      r'.shut = r.shut ∧ r'.pending = r.pending := by
  unfold rbLoad at h
  dsimp only at h
  split at h
  · cases h; simp
  · split at h
    · split at h
      · cases h; simp
      · cases h
    · split at h
      · cases h; simp
      · cases h

/-! ## Put and get -/

/-- The outcomes of a put under the polling policy (40_ringbuffer.md R85). -/
theorem pollingPut_next {who : Agent} {rb : RingId} {d : List Byte} {s t : State}
    (h : pollingPut who rb d s = .next t) :
    ∃ r, s.ring? rb = some r ∧ t = s.stored rb r who (d.take (min d.length r.spaceLen)) := by
  obtain ⟨r, hr, h⟩ := onRing_next h
  exact ⟨r, hr, by cases h; rfl⟩

/-- The outcomes of a put under the blocking policy (R86). -/
theorem blockingPut_next {who : Agent} {rb : RingId} {d : List Byte} {s t : State}
    (h : blockingPut who rb d s = .next t) :
    ∃ r, s.ring? rb = some r ∧
      ((d.length ≤ r.spaceLen ∧ t = s.stored rb r who d) ∨
        (r.spaceLen < d.length ∧ r.shut = true ∧ t = s.cancel who (.count 0)) ∨
        (r.spaceLen < d.length ∧ r.shut = false ∧ t = s.hold rb r (.put who d))) := by
  obtain ⟨r, hr, h⟩ := onRing_next h
  refine ⟨r, hr, ?_⟩
  split at h
  · cases h; exact .inl ⟨‹_›, rfl⟩
  · split at h
    · cases h; exact .inr (.inl ⟨by omega, ‹_›, rfl⟩)
    · cases h; exact .inr (.inr ⟨by omega, by simpa using ‹¬ r.shut = true›, rfl⟩)

/-- A put follows the policy of its instance (R89). -/
theorem put_of_mode {who : Agent} {rb : RingId} {d : List Byte} {s : State} {r : Ring}
    (h : s.ring? rb = some r) : put who rb d s =
      match r.mode with
      | .polling => pollingPut who rb d s
      | .blocking => blockingPut who rb d s := onRing_some h _

theorem put_next {who : Agent} {rb : RingId} {d : List Byte} {s t : State}
    (h : put who rb d s = .next t) :
    pollingPut who rb d s = .next t ∨ blockingPut who rb d s = .next t := by
  obtain ⟨r, hr, h⟩ := onRing_next h
  split at h
  · exact .inl h
  · exact .inr h

/-- The outcomes of a get under the polling policy (R87). -/
theorem pollingGet_next {who : Agent} {rb : RingId} {n : Nat} {s t : State}
    (h : pollingGet who rb n s = .next t) :
    ∃ r, s.ring? rb = some r ∧ ∃ out r', rbLoad r (min n r.dataLen) = some (out, r') ∧
      t = (s.setRing rb r').reply who (.data out) .none (.got rb out) := by
  obtain ⟨r, hr, h⟩ := onRing_next h
  obtain ⟨out, r', ho, h⟩ := taken_next h
  exact ⟨r, hr, out, r', ho, by cases h; rfl⟩

/-- The outcomes of a get under the blocking policy (R88). -/
theorem blockingGet_next {who : Agent} {rb : RingId} {n : Nat} {s t : State}
    (h : blockingGet who rb n s = .next t) :
    ∃ r, s.ring? rb = some r ∧
      ((n ≤ r.dataLen ∧ ∃ out r', rbLoad r n = some (out, r') ∧
          t = (s.setRing rb r').reply who (.data out) .none (.got rb out)) ∨
        (r.dataLen < n ∧ r.shut = true ∧ t = s.cancel who (.data [])) ∨
        (r.dataLen < n ∧ r.shut = false ∧ t = s.hold rb r (.get who n))) := by
  obtain ⟨r, hr, h⟩ := onRing_next h
  refine ⟨r, hr, ?_⟩
  split at h
  · obtain ⟨out, r', ho, h⟩ := taken_next h
    exact .inl ⟨‹_›, out, r', ho, by cases h; rfl⟩
  · split at h
    · cases h; exact .inr (.inl ⟨by omega, ‹_›, rfl⟩)
    · cases h; exact .inr (.inr ⟨by omega, by simpa using ‹¬ r.shut = true›, rfl⟩)

theorem get_of_mode {who : Agent} {rb : RingId} {n : Nat} {s : State} {r : Ring}
    (h : s.ring? rb = some r) : get who rb n s =
      match r.mode with
      | .polling => pollingGet who rb n s
      | .blocking => blockingGet who rb n s := onRing_some h _

theorem get_next {who : Agent} {rb : RingId} {n : Nat} {s t : State} (h : get who rb n s = .next t) :
    pollingGet who rb n s = .next t ∨ blockingGet who rb n s = .next t := by
  obtain ⟨r, hr, h⟩ := onRing_next h
  split at h
  · exact .inl h
  · exact .inr h

/-! ## The transport -/

/-- The outcomes of a send (43_pipeline.md R132). -/
theorem send_next {who : Agent} {c : Nat} {f : List Byte} {m : Moved} {s t : State}
    (h : send who c f m s = .next t) :
    ∃ ch, s.chains[c]? = some ch ∧ ch.aborted = false ∧ ∃ n ≤ f.length,
      t = (s.setChain c { ch with txs := ch.txs ++ f.take n, sendAnswers := ch.sendAnswers.tail }).reply
        who .none (if n < f.length then .txFail n else .none) m := by
  obtain ⟨ch, hc, ha, h⟩ := onChain_next h
  refine ⟨ch, hc, ha, accepted (ch.sendAnswers.headD none) f, ?_, by cases h; rfl⟩
  unfold accepted; split
  · exact Nat.le_refl _
  · exact Nat.min_le_right _ _

theorem arrive_next {c : Nat} {b : List Byte} {s t : State} (h : arrive c b s = .next t) :
    ∃ ch, s.chains[c]? = some ch ∧ ch.aborted = false ∧
      t = s.setChain c { ch with rxs := ch.rxs ++ b } := by
  obtain ⟨ch, hc, ha, h⟩ := onChain_next h
  exact ⟨ch, hc, ha, by cases h; rfl⟩

/-! ## The pipeline -/

/-- The outcomes of a TX agent's step that is not held up (R131). -/
theorem txTake_next {c : Nat} {w : Which} {s t : State} (h : txTake c w s = .next t) :
    ∃ r, s.ring? (outRing w c) = some r ∧
      ((frameLen s.params w ≤ r.dataLen ∧ ∃ image r' f,
          rbLoad r (frameLen s.params w) = some (image, r') ∧ stamp s.params.ck image = .ok f ∧
          send (.tx c w) c f (.got (outRing w c) image) (s.setRing (outRing w c) r') = .next t) ∨
        (r.dataLen < frameLen s.params w ∧ r.shut = true ∧ t = s.cancel (.tx c w) .none) ∨
        (r.dataLen < frameLen s.params w ∧ r.shut = false ∧
          t = s.hold (outRing w c) r (.txGet c w))) := by
  obtain ⟨r, hr, h⟩ := onRing_next h
  refine ⟨r, hr, ?_⟩
  split at h
  · obtain ⟨image, r', ho, h⟩ := taken_next h
    split at h
    · cases h
    · exact .inl ⟨‹_›, image, r', _, ho, ‹_›, h⟩
  · split at h
    · cases h; exact .inr (.inl ⟨by omega, ‹_›, rfl⟩)
    · cases h; exact .inr (.inr ⟨by omega, by simpa using ‹¬ r.shut = true›, rfl⟩)

/-- The outcomes of a step of the RX agent (R127): it waits, or takes one read unit and routes the event. -/
theorem dsp_next {c : Nat} {s t : State} (h : dsp c s = .next t) :
    ∃ ch, s.chains[c]? = some ch ∧ ch.aborted = false ∧ ch.parser.ready = true ∧
      (t = s ∨ ∃ n p ev, ch.parser.want = n ∧ n ≤ ch.rxs.length ∧
        parserStep s.params ch.parser (ch.rxs.take n) = (p, ev) ∧
        route c ev ((s.setChain c { ch with parser := p, rxs := ch.rxs.drop n }).reply
          (.rx c) .none ev) = .next t) := by
  obtain ⟨ch, hc, ha, hr, h⟩ := onParser_next h
  refine ⟨ch, hc, ha, hr, ?_⟩
  split at h
  · cases h; exact .inl rfl
  · dsimp only at h
    split at h
    · cases h; exact .inl rfl
    · exact .inr ⟨_, _, _, rfl, by omega, rfl, h⟩

theorem route_next {c : Nat} {ev : Event} {s t : State} (h : route c ev s = .next t) :
    t = s ∨ ∃ rb d, (rb = .nonce c ∨ rb = .reg c) ∧ put (.rx c) rb d s = .next t := by
  unfold route at h
  split at h
  · exact .inr ⟨_, _, .inl rfl, h⟩
  · exact .inr ⟨_, _, .inr rfl, h⟩
  · cases h; exact .inl rfl

end Sys2Proof.Machine
end

