-- ==== Sys2Proof/Laws/Moves.lean ====
section
/-! SUPPORT. What a step can do, said once: every next state is reached by moves of a fixed list, each on one instance or one chain. An invariant of the machine is proved move by move. -/

namespace Sys2Proof.Machine

/-- One move. `L` says which places may be touched: `some c` for what belongs to chain `c`, `none` for `PMON_RING`. -/
inductive Move (L : Option Nat → Prop) : State → State → Prop
  /-- nothing but the model's own fields changes, the replies apart -/
  | idle {s t : State} : t.params = s.params → t.chains = s.chains → t.pmon = s.pmon →
      t.replies = s.replies → Move L s t
  /-- a requester is told something, and nothing is moved -/
  | told (s : State) (who : Agent) (res : Result) (ev : Event) : Move L s (s.reply who res ev)
  /-- an agent stops -/
  | stop (s : State) (who : Agent) : Move L s (s.stopAgent who)
  /-- copy-in of bytes that fit, and the reply that notes them -/
  | store {s : State} {rb : RingId} {r : Ring} {d : List Byte} (who : Agent) (res : Result) (ev : Event) :
      L (chainOf rb) → s.ring? rb = some r → d.length ≤ r.spaceLen →
      Move L s ((s.setRing rb (rbStore r d)).reply who res ev (.put rb d))
  /-- copy-out of bytes that are held, and the reply that notes them -/
  | take {s : State} {rb : RingId} {r r' : Ring} {k : Nat} {out : List Byte} (who : Agent) (res : Result)
      (ev : Event) : L (chainOf rb) → s.ring? rb = some r → k ≤ r.dataLen → rbLoad r k = some (out, r') →
      Move L s ((s.setRing rb r').reply who res ev (.got rb out))
  /-- a request is held -/
  | hold {s : State} {rb : RingId} {r : Ring} {h : Held} : L (chainOf rb) → s.ring? rb = some r →
      r.shut = false → h.inPlace rb = true → Move L s (s.hold rb r h)
  /-- a held request leaves `PENDING` -/
  | release {s : State} {rb : RingId} {r : Ring} (k : Nat) : L (chainOf rb) → s.ring? rb = some r →
      Move L s (s.setRing rb { r with pending := r.pending.eraseIdx k })
  /-- a forced put, and the reply that notes it -/
  | force {s : State} {rb : RingId} {r : Ring} {d : List Byte} (who : Agent) (res : Result) (ev : Event) :
      L (chainOf rb) → s.ring? rb = some r → d.length ≤ r.size →
      Move L s ((s.setRing rb (forceInto r d)).reply who res ev (.forced rb d (d.length - r.spaceLen)))
  /-- `RB.INIT` -/
  | make {s : State} {rb : RingId} {n : Nat} {m : Mode} : L (chainOf rb) → s.named rb = true →
      s.abortedAt rb = false → s.ring? rb = none → ¬ BadSize n → Move L s (s.setRing rb (Ring.fresh n m))
  /-- a parser takes a read unit -/
  | parse {s : State} {c : Nat} {ch : Chain} {w : Nat} {bytes rxs : List Byte} {p : Parser} {ev : Event} :
      L (some c) → s.chains[c]? = some ch → ch.aborted = false → ch.parser.want = w → bytes.length = w →
      parserStep s.params ch.parser bytes = (p, ev) →
      Move L s (s.setChain c { ch with parser := p, rxs := rxs })
  /-- `PS.RESET` -/
  | reset {s : State} {c : Nat} {ch : Chain} : L (some c) → s.chains[c]? = some ch → ch.aborted = false →
      Move L s (s.setChain c { ch with parser := { ch.parser.toReset with ready := true } })
  /-- the streams of a chain change -/
  | stream {s : State} {c : Nat} {ch : Chain} (rxs txs : List Byte) (answers : List (Option Nat)) :
      L (some c) → s.chains[c]? = some ch → ch.aborted = false →
      Move L s (s.setChain c { ch with rxs := rxs, txs := txs, sendAnswers := answers })

/-- A run of moves. -/
abbrev Moves (L : Option Nat → Prop) : State → State → Prop := Relation.ReflTransGen (Move L)

variable {L : Option Nat → Prop} {s t u : State}

theorem Moves.one (h : Move L s t) : Moves L s t := .single h

theorem Moves.reply (h : Moves L s t) (who : Agent) (res : Result) (ev : Event) :
    Moves L s (t.reply who res ev) := h.tail (.told _ _ _ _)

theorem Moves.cancel (h : Moves L s t) (who : Agent) (res : Result) : Moves L s (t.cancel who res) :=
  Moves.reply (h.tail (.stop _ _)) _ _ _

/-! ## Put and get -/

theorem stored_moves {rb : RingId} {r : Ring} {who : Agent} {d : List Byte} (hL : L (chainOf rb))
    (hr : s.ring? rb = some r) (hd : d.length ≤ r.spaceLen) : Moves L s (s.stored rb r who d) :=
  Moves.one (.store _ _ _ hL hr hd)

theorem pollingPut_moves {who : Agent} {rb : RingId} {d : List Byte} (hL : L (chainOf rb))
    (h : pollingPut who rb d s = .next t) : Moves L s t := by
  obtain ⟨r, hr, rfl⟩ := pollingPut_next h
  exact stored_moves hL hr (by rw [List.length_take]; omega)

theorem blockingPut_moves {who : Agent} {rb : RingId} {d : List Byte} (hL : L (chainOf rb))
    (h : blockingPut who rb d s = .next t) : Moves L s t := by
  obtain ⟨r, hr, ⟨h1, rfl⟩ | ⟨-, -, rfl⟩ | ⟨-, h2, rfl⟩⟩ := blockingPut_next h
  · exact stored_moves hL hr h1
  · exact Moves.cancel .refl _ _
  · exact Moves.one (.hold hL hr h2 rfl)

theorem put_moves {who : Agent} {rb : RingId} {d : List Byte} (hL : L (chainOf rb))
    (h : put who rb d s = .next t) : Moves L s t :=
  (put_next h).elim (pollingPut_moves hL) (blockingPut_moves hL)

theorem pollingGet_moves {who : Agent} {rb : RingId} {n : Nat} (hL : L (chainOf rb))
    (h : pollingGet who rb n s = .next t) : Moves L s t := by
  obtain ⟨r, hr, out, r', ho, rfl⟩ := pollingGet_next h
  exact Moves.one (.take _ _ _ hL hr (Nat.min_le_right _ _) ho)

theorem blockingGet_moves {who : Agent} {rb : RingId} {n : Nat} (hL : L (chainOf rb))
    (h : blockingGet who rb n s = .next t) : Moves L s t := by
  obtain ⟨r, hr, ⟨h1, out, r', ho, rfl⟩ | ⟨-, -, rfl⟩ | ⟨-, h2, rfl⟩⟩ := blockingGet_next h
  · exact Moves.one (.take _ _ _ hL hr h1 ho)
  · exact Moves.cancel .refl _ _
  · exact Moves.one (.hold hL hr h2 rfl)

theorem get_moves {who : Agent} {rb : RingId} {n : Nat} (hL : L (chainOf rb))
    (h : get who rb n s = .next t) : Moves L s t :=
  (get_next h).elim (pollingGet_moves hL) (blockingGet_moves hL)

/-! ## Streams -/

theorem send_moves {who : Agent} {c : Nat} {f : List Byte} (hL : L (some c))
    (h : send who c f .nothing s = .next t) : Moves L s t := by
  obtain ⟨ch, hc, ha, n, -, rfl⟩ := send_next h
  exact Moves.reply (Moves.one (.stream (ch := ch) ch.rxs _ _ hL hc ha)) _ _ _

theorem arrive_moves {c : Nat} {b : List Byte} (hL : L (some c)) (h : arrive c b s = .next t) :
    Moves L s t := by
  obtain ⟨ch, hc, ha, rfl⟩ := arrive_next h
  exact Moves.one (.stream (ch := ch) _ ch.txs ch.sendAnswers hL hc ha)

theorem ioctl_moves {who : Agent} {c : Nat} {op addr : Byte} {p : List Byte} (hL : L (some c))
    (h : ioctl who c op addr p s = .next t) : Moves L s t := by
  obtain ⟨ch, -, -, h⟩ := onChain_next h
  split at h
  · cases h
  · exact send_moves hL h

/-! ## The pipeline -/

theorem chainOf_outRing (w : Which) (c : Nat) : chainOf (outRing w c) = some c := by cases w <;> rfl

theorem txTake_moves {c : Nat} {w : Which} (hL : L (some c)) (h : txTake c w s = .next t) :
    Moves L s t := by
  have hL' : L (chainOf (outRing w c)) := by rwa [chainOf_outRing]
  obtain ⟨r, hr, ⟨h1, image, r', f, ho, -, h⟩ | ⟨-, -, rfl⟩ | ⟨-, h2, rfl⟩⟩ := txTake_next h
  · obtain ⟨ch, hc, ha, n, -, rfl⟩ := send_next h
    rw [← setChain_reply]
    exact (Moves.one (.take _ _ _ hL' hr h1 ho)).tail (.stream (ch := ch) ch.rxs _ _ hL hc ha)
  · exact Moves.cancel .refl _ _
  · exact Moves.one (.hold hL' hr h2 (by simp [Held.inPlace]))

theorem dsp_moves {c : Nat} (hL : L (some c)) (h : dsp c s = .next t) : Moves L s t := by
  obtain ⟨ch, hc, ha, -, rfl | ⟨n, p, ev, hw, hn, hp, h⟩⟩ := dsp_next h
  · exact .refl
  · have m1 := Moves.reply (Moves.one (.parse (rxs := ch.rxs.drop n) hL hc ha hw
      (by rw [List.length_take]; omega) hp)) (.rx c) .none ev
    rcases route_next h with rfl | ⟨rb, d, hrb, h⟩
    · exact m1
    · exact m1.trans (put_moves (by rcases hrb with rfl | rfl <;> exact hL) h)

theorem dspTimes_moves {c : Nat} (hL : L (some c)) {k : Nat} (h : dspTimes c k s = .next t) :
    Moves L s t := by
  induction k generalizing s with
  | zero => cases h; exact .refl
  | succ k ih =>
    obtain ⟨u, h1, h2⟩ := andThen_next.1 h
    exact (dsp_moves hL h1).trans (ih h2)

theorem receive_moves {c : Nat} {b : List Byte} (hL : L (some c)) (h : receive c b s = .next t) :
    Moves L s t := by
  obtain ⟨u, h1, h2⟩ := andThen_next.1 h
  obtain ⟨ch, -, -, h2⟩ := onChain_next h2
  exact (arrive_moves hL h1).trans (dspTimes_moves hL h2)

/-! ## Held requests -/

/-- The places a held request may touch when it goes on. -/
def Held.allowed (L : Option Nat → Prop) : Held → Prop
  | .txGet c _ => L (some c)
  | _ => True

theorem rerun_moves {rb : RingId} {h : Held} (hL : L (chainOf rb)) (hh : h.allowed L)
    (hn : rerun rb h s = .next t) : Moves L s t := by
  cases h with
  | put who d => exact blockingPut_moves hL hn
  | get who n => exact blockingGet_moves hL hn
  | txGet c w => exact txTake_moves hh hn

theorem resume_moves {rb : RingId} {k : Nat} (hL : L (chainOf rb))
    (hh : ∀ r, s.ring? rb = some r → ∀ h ∈ r.pending, h.allowed L) (hn : resume rb k s = .next t) :
    Moves L s t := by
  unfold resume at hn
  split at hn
  · cases hn; exact .refl
  · rename_i r hr
    split at hn
    · cases hn; exact .refl
    · rename_i h hk
      split at hn
      · exact (Moves.one (.release k hL hr)).trans
          (rerun_moves hL (hh r hr h (List.mem_of_getElem? hk)) hn)
      · cases hn; exact .refl

/-- An instance that is shut down keeps its `SHUT` and what is held in it while a held request is run again: it never holds
(40_ringbuffer.md R97). -/
theorem rerun_shut {rb rb' : RingId} {h : Held} {r : Ring} (hr : s.ring? rb = some r)
    (hs : r.shut = true) (hn : rerun rb' h s = .next t) :
    ∃ r', t.ring? rb = some r' ∧ r'.shut = true ∧ r'.pending = r.pending := by
  have put' : ∀ {who d}, blockingPut who rb' d s = .next t →
      ∃ r', t.ring? rb = some r' ∧ r'.shut = true ∧ r'.pending = r.pending := by
    intro who d hn
    obtain ⟨q, hq, ⟨-, rfl⟩ | ⟨-, -, rfl⟩ | ⟨-, h2, rfl⟩⟩ := blockingPut_next hn
    · by_cases e : rb = rb'
      · subst e
        obtain rfl : r = q := Option.some.inj (hr.symm.trans hq)
        exact ⟨_, ring?_setRing_same (named_of_ring? hr), by simpa using hs, by simp⟩
      · exact ⟨r, (ring?_setRing_other e).trans hr, hs, rfl⟩
    · exact ⟨r, by simpa [State.cancel] using hr, hs, rfl⟩
    · have e : rb ≠ rb' := by
        rintro rfl
        obtain rfl : r = q := Option.some.inj (hr.symm.trans hq)
        rw [hs] at h2; cases h2
      exact ⟨r, (ring?_setRing_other e).trans hr, hs, rfl⟩
  have keep : ∀ {rb' : RingId} {q q' : Ring} {k : Nat} {out : List Byte}, s.ring? rb' = some q →
      rbLoad q k = some (out, q') →
      ∃ r', (s.setRing rb' q').ring? rb = some r' ∧ r'.shut = true ∧ r'.pending = r.pending := by
    intro rb' q q' k out hq ho
    obtain ⟨-, -, -, -, -, h1, h2⟩ := rbLoad_keeps ho
    by_cases e : rb = rb'
    · subst e
      obtain rfl : r = q := Option.some.inj (hr.symm.trans hq)
      exact ⟨_, ring?_setRing_same (named_of_ring? hr), h1.trans hs, h2⟩
    · exact ⟨r, (ring?_setRing_other e).trans hr, hs, rfl⟩
  have cancel' : ∀ who res, ∃ r', (s.cancel who res).ring? rb = some r' ∧ r'.shut = true ∧
      r'.pending = r.pending := fun who res => ⟨r, by simpa [State.cancel] using hr, hs, rfl⟩
  have hold' : ∀ {rb' : RingId} {q : Ring} (g : Held), s.ring? rb' = some q → q.shut = false →
      ∃ r', (s.hold rb' q g).ring? rb = some r' ∧ r'.shut = true ∧ r'.pending = r.pending := by
    intro rb' q g hq h2
    have e : rb ≠ rb' := by
      rintro rfl
      obtain rfl : r = q := Option.some.inj (hr.symm.trans hq)
      rw [hs] at h2; cases h2
    exact ⟨r, (ring?_setRing_other e).trans hr, hs, rfl⟩
  cases h with
  | put who d => exact put' hn
  | get who n =>
    obtain ⟨q, hq, ⟨-, out, q', ho, rfl⟩ | ⟨-, -, rfl⟩ | ⟨-, h2, rfl⟩⟩ := blockingGet_next hn
    · exact keep hq ho
    · exact cancel' _ _
    · exact hold' _ hq h2
  | txGet c w =>
    obtain ⟨q, hq, ⟨-, image, q', f, ho, -, hn⟩ | ⟨-, -, rfl⟩ | ⟨-, h2, rfl⟩⟩ := txTake_next hn
    · obtain ⟨ch, hch, -, n, -, rfl⟩ := send_next hn
      obtain ⟨r', h1, h2, h3⟩ := keep hq ho
      refine ⟨r', ?_, h2, h3⟩
      rw [reply_ring?]
      by_cases hc : chainOf rb = some c
      · rw [ring?_setChain_same hc hch, ← h1, ring?_of_chain hc hch]; cases rb <;> rfl
      · rw [ring?_setChain_other hc]; exact h1
    · exact cancel' _ _
    · exact hold' _ hq h2

/-- Releasing everything an instance that is shut down holds empties its `PENDING` (R96). -/
theorem releaseHeld_next {rb : RingId} {n : Nat} {r : Ring} (hL : L (chainOf rb))
    (hr : s.ring? rb = some r) (hs : r.shut = true) (hp : r.pending.length = n)
    (hh : ∀ h ∈ r.pending, h.allowed L) (hn : releaseHeld rb n s = .next t) :
    Moves L s t ∧ ∃ r', t.ring? rb = some r' ∧ r'.shut = true ∧ r'.pending = [] := by
  induction n generalizing s r with
  | zero =>
    cases hn
    exact ⟨.refl, r, hr, hs, List.length_eq_zero_iff.1 hp⟩
  | succ n ih =>
    unfold releaseHeld at hn
    rw [hr] at hn
    obtain ⟨u, h1, h2⟩ := andThen_next.1 hn
    have m0 : Moves L s { s with releaseOrder := s.releaseOrder.tail } :=
      Moves.one (.idle rfl rfl rfl rfl)
    have m1 : Moves L s u := m0.trans (resume_moves hL (fun q hq => by
      obtain rfl : r = q := Option.some.inj (hr.symm.trans hq)
      exact hh) h1)
    have hk : s.releaseOrder.headD 0 % r.pending.length < r.pending.length :=
      Nat.mod_lt _ (by omega)
    unfold resume at h1
    rw [ring?_releaseOrder, hr] at h1
    simp only [List.getElem?_eq_getElem hk, Held.enabled, hs, Bool.or_true, if_true] at h1
    obtain ⟨r1, hr1, hs1, hp1⟩ := rerun_shut (rb := rb)
      (r := { r with pending := r.pending.eraseIdx (s.releaseOrder.headD 0 % r.pending.length) })
      (by rw [ring?_setRing_same (by exact named_of_ring? hr)]; simp [hs]) hs h1
    have hp1' : r1.pending = r.pending.eraseIdx (s.releaseOrder.headD 0 % r.pending.length) := hp1
    obtain ⟨m2, h3⟩ := ih hr1 hs1 (by rw [hp1', List.length_eraseIdx_of_lt hk]; omega)
      (fun h hm => hh h (by rw [hp1'] at hm; exact List.mem_of_mem_eraseIdx hm)) h2
    exact ⟨m1.trans m2, h3⟩

/-- The outcomes of `RB.SHUTDOWN` (R96): `SHUT` is set, then held requests are released until none is left. -/
theorem shutdown_next {rb : RingId} (hL : L (chainOf rb))
    (hh : ∀ r, s.ring? rb = some r → ∀ h ∈ r.pending, h.allowed L)
    (hn : execRbShutdown rb s = .next t) :
    ∃ r, s.ring? rb = some r ∧
      Moves L ((s.setRing rb { r with shut := true }).reply s.who .none .none) t ∧
      ∃ r', t.ring? rb = some r' ∧ r'.shut = true ∧ r'.pending = [] := by
  obtain ⟨r, hr, hn⟩ := onRing_next hn
  exact ⟨r, hr, releaseHeld_next (r := { r with shut := true }) hL
    (by rw [reply_ring?, ring?_setRing_same (named_of_ring? hr)]) rfl rfl (hh r hr) hn⟩

/-! ## Every instruction -/

/-- Every next state of every instruction but `RB.SHUTDOWN` is reached by moves at its place. -/
theorem exec_moves {i : Instr} (hL : ∀ p, place i = some p → L p) (hi : ∀ rb, i ≠ .rbShutdown rb)
    (h : exec i s = .next t) : Moves L s t := by
  have reply1 : ∀ {who res ev}, Host.Outcome.next (s.reply who res ev) =
      (Host.Outcome.next t : Answer) → Moves L s t := by
    rintro who res ev ⟨⟩
    exact Moves.reply .refl _ _ _
  cases i with
  | rbInit rb n m =>
    unfold exec execRbInit at h
    dsimp only at h
    split_ifs at h with h1 ha h2 h3
    cases h
    exact Moves.reply (Moves.one (.make (hL _ rfl) (by simpa using h1) (by simpa using ha)
      (by simpa using h2) h3)) _ _ _
  | rbPutPolling rb d => exact put_moves (hL _ rfl) h
  | rbPutBlocking rb d => exact put_moves (hL _ rfl) h
  | rbGetPolling rb n => exact get_moves (hL _ rfl) h
  | rbGetBlocking rb n => exact get_moves (hL _ rfl) h
  | rbPutForce rb d =>
    obtain ⟨r, hr, h⟩ := onRing_next h
    split at h
    · cases h
    · cases h
      exact Moves.one (.force _ _ _ (hL _ rfl) hr (by omega))
  | rbDataLen rb => obtain ⟨r, hr, h⟩ := onRing_next h; exact reply1 h
  | rbSpaceLen rb => obtain ⟨r, hr, h⟩ := onRing_next h; exact reply1 h
  | rbStatus rb => obtain ⟨r, hr, h⟩ := onRing_next h; exact reply1 h
  | rbShutdown rb => exact absurd rfl (hi rb)
  | fcPack op a p =>
    change execFcPack op a p s = _ at h
    unfold execFcPack at h; split at h
    · exact reply1 h
    · cases h
  | fcStamp f =>
    change execFcStamp f s = _ at h
    unfold execFcStamp at h; split at h
    · exact reply1 h
    · cases h
  | fcParse f b => exact reply1 h
  | psRx c b =>
    obtain ⟨ch, hc, ha, -, h⟩ := onParser_next h
    dsimp only at h
    split_ifs at h with h1 h2 h3
    · exact reply1 h
    · cases h
      exact Moves.reply (Moves.one (.parse (rxs := ch.rxs.drop b.length) (hL _ rfl) hc ha rfl
        (by omega) rfl)) _ _ _
  | psReset c =>
    obtain ⟨ch, hc, ha, h⟩ := onChain_next h
    cases h
    exact Moves.reply (Moves.one (.reset (hL _ rfl) hc ha)) _ _ _
  | psWant c =>
    obtain ⟨ch, hc, -, -, h⟩ := onParser_next h
    exact reply1 h
  | dspStep c => exact dsp_moves (hL _ rfl) h
  | txStep c w =>
    obtain ⟨ch, hc, -, h⟩ := onChain_next h
    split at h
    · cases h; exact .refl
    · exact txTake_moves (hL _ rfl) h
  | _ => exact receive_moves (hL _ rfl) h

/-- What one step can do: moves, or `RB.SHUTDOWN`. -/
theorem step_moves (h : step s = .next t) :
    Moves (fun _ => True) s t ∨ ∃ s' rb, Moves (fun _ => True) s s' ∧ execRbShutdown rb s' = .next t := by
  have any : ∀ (h : Held), h.allowed fun _ => True := fun h => by cases h <;> trivial
  unfold step at h
  split at h
  · rename_i i s' hf
    have m : Moves (fun _ => True) s s' := by
      unfold fetch at hf
      split at hf <;> try cases hf
      split at hf <;> cases hf
      exact Moves.one (.idle rfl rfl rfl rfl)
    by_cases hi : ∃ rb, i = .rbShutdown rb
    · obtain ⟨rb, rfl⟩ := hi
      exact .inr ⟨s', rb, m, h⟩
    · exact .inl (m.trans (exec_moves (fun _ _ => trivial) (fun rb e => hi ⟨rb, e⟩) h))
  · rename_i a hf
    left
    subst h
    have m : ∀ {l w}, Moves (fun _ => True) s { s with turns := l, who := w } :=
      fun {l w} => Moves.one (.idle rfl rfl rfl rfl)
    have m' : ∀ {l}, Moves (fun _ => True) s { s with turns := l } :=
      fun {l} => Moves.one (.idle rfl rfl rfl rfl)
    unfold fetch at hf
    split at hf
    · cases hf; exact .refl
    · split at hf
      · cases hf
      · rename_i e _
        injection hf with hf
        unfold undecoded at hf
        split at hf
        · exact m.trans (receive_moves trivial hf)
        · cases hf
    · injection hf with hf
      exact m'.trans (resume_moves trivial (fun _ _ h _ => any h) hf)
    · injection hf with hf
      exact m'.trans (arrive_moves trivial hf)
    · injection hf with hf
      exact m.trans (ioctl_moves trivial hf)

/-- A property that every move keeps, and that setting a `SHUT` keeps, is kept by every step. -/
theorem step_keeps {P : State → Prop} (hm : ∀ s t, Move (fun _ => True) s t → P s → P t)
    (hs : ∀ s rb r, s.ring? rb = some r → P s → P (s.setRing rb { r with shut := true }))
    (hp : P s) (h : step s = .next t) : P t := by
  have hms : ∀ {s t}, Moves (fun _ => True) s t → P s → P t := by
    intro s t m hp
    induction m with
    | refl => exact hp
    | tail _ m ih => exact hm _ _ m ih
  rcases step_moves h with m | ⟨s', rb, m, h⟩
  · exact hms m hp
  · obtain ⟨r, hr, m', -⟩ := shutdown_next (L := fun _ => True) trivial
      (fun _ _ h _ => by cases h <;> trivial) h
    exact hms m' (hm (s'.setRing rb { r with shut := true }) _ (.told _ _ _ _)
      (hs s' rb r hr (hms m hp)))

end Sys2Proof.Machine
end

