-- ==== Sys2Proof/Laws/Answers.lean ====
section
/-! SUPPORT. What each shared operation answers, said once: a copy-in and a copy-out of bytes that fit, a put, a read unit, a step of the RX agent, and what each leaves of a chain. -/

namespace Sys2Proof.Machine

/-! ## Chains -/

/-- Replacing a ring leaves the rest of its chain. -/
theorem setRing_chain_keeps {s : State} {rb : RingId} {r : Ring} {c : Nat} {ch : Chain}
    (hc : s.chains[c]? = some ch) :
    ∃ ch', (s.setRing rb r).chains[c]? = some ch' ∧ ch'.parser = ch.parser ∧ ch'.rxs = ch.rxs ∧
      ch'.txs = ch.txs ∧ ch'.sendAnswers = ch.sendAnswers ∧ ch'.rxStopped = ch.rxStopped ∧
      ch'.workStopped = ch.workStopped ∧ ch'.dlStopped = ch.dlStopped ∧ ch'.aborted = ch.aborted := by
  by_cases h : chainOf rb = some c
  · exact ⟨_, setRing_chains_same h hc, by simp⟩
  · exact ⟨ch, (setRing_chains_other h).trans hc, by simp⟩

/-- Stopping an agent leaves the parser and the streams of its chain. -/
theorem stopAgent_chain_keeps {s : State} {who : Agent} {c : Nat} {ch : Chain}
    (h : s.chains[c]? = some ch) :
    ∃ ch', (s.stopAgent who).chains[c]? = some ch' ∧ ch'.parser = ch.parser ∧ ch'.rxs = ch.rxs ∧
      ch'.txs = ch.txs ∧ ch'.sendAnswers = ch.sendAnswers ∧ ch'.aborted = ch.aborted := by
  rcases stopAgent_chains s who h with e | ⟨-, e⟩
  · exact ⟨_, e, by simp⟩
  · exact ⟨_, e, by simp⟩

/-- A chain has been shut down when every one of its rings exists and is shut down (70_reset_and_hazards.md R183). -/
theorem shutDown_iff {ch : Chain} (c : Nat) :
    ch.shutDown = true ↔ ∀ rb, chainOf rb = some c → ∃ r, ch.ring? rb = some r ∧ r.shut = true := by
  have one : ∀ o : Option Ring, Option.any Ring.shut o = true ↔ ∃ r, o = some r ∧ r.shut = true := by
    intro o; cases o <;> simp
  have all : ch.shutDown = (Option.any Ring.shut ch.nonce && (Option.any Ring.shut ch.reg &&
      (Option.any Ring.shut ch.work && (Option.any Ring.shut ch.dl && true)))) := by
    obtain ⟨p, n, r, w, d⟩ := ch
    cases n <;> cases r <;> cases w <;> cases d <;> rfl
  rw [all]
  simp only [Bool.and_true, Bool.and_eq_true, one]
  constructor
  · rintro ⟨a, b, x, d⟩ rb h
    cases rb with
    | nonce => exact a
    | reg => exact b
    | work => exact x
    | dl => exact d
    | pmon => cases h
  · intro h
    exact ⟨h (.nonce c) rfl, h (.reg c) rfl, h (.work c) rfl, h (.dl c) rfl⟩

/-! ## Copy-in and copy-out -/

/-- A copy-in of bytes that fit, whole (20_memory.md R45). -/
theorem rbStore_stored {r : Ring} (h : r.Wf) {d : List Byte} (hk : d.length ≤ r.spaceLen) :
    r.Stored (rbStore r d) d := by
  have hks : d.length ≤ r.size := hk.trans r.spaceLen_le
  refine ⟨⟨by simp, by simp, by simp, by simp, by simp, by simp⟩, rbStore_wi h.inBounds hks, ?_,
    fun j hj => rbStore_read h.inBounds hks hj, fun a ha => rbStore_read_untouched h.inBounds hks ha,
    rbStore_content h hk, rbStore_dataLen h hk⟩
  rw [rbStore_wm h.inBounds]
  by_cases c : r.size ≤ r.wi.toNat + d.length
  · simp [c, show ¬ r.wi.toNat + d.length < r.size by omega]
  · simp [c, show r.wi.toNat + d.length < r.size by omega]

/-- A copy-out of bytes that are there, whole (20_memory.md R46). -/
theorem advance_taken {r : Ring} (h : r.Wf) {k : Nat} (hk : k ≤ r.dataLen) {out : List Byte}
    (ho : out.map some = r.content.take k) : r.Taken (r.advance k) k out := by
  refine ⟨⟨rfl, rfl, rfl, rfl, rfl, rfl, rfl⟩, Ring.advance_ri h k, ?_, ho, ?_,
    Ring.advance_content h hk, Ring.advance_dataLen h hk⟩
  · show (r.rm ^^ decide (r.size ≤ r.ri.toNat + k)) = _
    by_cases c : r.size ≤ r.ri.toNat + k
    · simp [c, show ¬ r.ri.toNat + k < r.size by omega]
    · simp [c, show r.ri.toNat + k < r.size by omega]
  · have := congrArg List.length ho
    simpa [Nat.min_eq_left hk] using this

/-- Taking bytes that are there succeeds, and goes on with them. -/
theorem taken_all {s : State} {rb : RingId} {r : Ring} {k : Nat} (h : r.Wf) (hk : k ≤ r.dataLen) :
    ∃ r' out, r.Taken r' k out ∧ ∀ f, s.taken rb r k f = f out (s.setRing rb r') := by
  obtain ⟨out, ho, hc⟩ := rbLoad_spec h hk
  refine ⟨_, out, advance_taken h hk hc, fun f => ?_⟩
  unfold State.taken; rw [ho]

/-! ## Put -/

/-- A ring operation without its instance (40_ringbuffer.md R84). -/
theorem onRing_none {s : State} {rb : RingId} (h : s.ring? rb = none) (f : Ring → Answer) :
    s.onRing rb f = .refused (if s.named rb = true then .noSuchInstance else .noSuchChain) := by
  unfold State.onRing; rw [h]; dsimp only; split <;> rfl

/-- A put completes, under the policy of its instance (40_ringbuffer.md R85, R86, R89). -/
theorem put_answer {s : State} {rb r} (who : Agent) (d : List Byte) (h : s.ring? rb = some r) (hw : r.Wf) :
    ∃ t, put who rb d s = .next t ∧ PutAnswer who rb r d s t := by
  rw [put_of_mode h]
  unfold PutAnswer
  cases hm : r.mode with
  | polling =>
    have hl : (d.take (min d.length r.spaceLen)).length = min d.length r.spaceLen := by simp
    refine ⟨_, onRing_some h _, _, rbStore_stored hw (d := d.take (min d.length r.spaceLen)) (by rw [hl]; omega), ?_⟩
    unfold State.stored; rw [hl]
  | blocking =>
    dsimp only
    unfold blockingPut; rw [onRing_some h]
    split_ifs with h1 h2
    · exact ⟨_, rfl, _, rbStore_stored hw h1, rfl⟩
    · exact ⟨_, rfl, rfl⟩
    · exact ⟨_, rfl, by rw [← hm]; rfl⟩

/-- A put leaves the parser and the inbound stream of every chain. -/
theorem put_chain_keeps {who : Agent} {rb : RingId} {d : List Byte} {s t : State}
    (h : put who rb d s = .next t) {c : Nat} {ch : Chain} (hc : s.chains[c]? = some ch) :
    ∃ ch', t.chains[c]? = some ch' ∧ ch'.parser = ch.parser ∧ ch'.rxs = ch.rxs ∧
      ch'.aborted = ch.aborted := by
  have set' : ∀ r', ∃ ch', (s.setRing rb r').chains[c]? = some ch' ∧ ch'.parser = ch.parser ∧
      ch'.rxs = ch.rxs ∧ ch'.aborted = ch.aborted := fun r' => by
    obtain ⟨c1, e1, b1, b2, -, -, -, -, -, b3⟩ := setRing_chain_keeps (rb := rb) (r := r') hc
    exact ⟨c1, e1, b1, b2, b3⟩
  rcases put_next h with h | h
  · obtain ⟨r, -, rfl⟩ := pollingPut_next h
    exact set' _
  · obtain ⟨r, -, ⟨-, rfl⟩ | ⟨-, -, rfl⟩ | ⟨-, -, rfl⟩⟩ := blockingPut_next h
    · exact set' _
    · obtain ⟨c1, e1, b1, b2, -, -, b3⟩ := stopAgent_chain_keeps (who := who) hc
      exact ⟨c1, e1, b1, b2, b3⟩
    · exact set' _

/-! ## The parser -/

/-- A transition keeps the configuration, and the error count never falls. -/
theorem parserStep_keeps {params : Params} {p q : Parser} {b : List Byte} {ev : Event}
    (h : parserStep params p b = (q, ev)) :
    q.fmt = p.fmt ∧ q.chainId = p.chainId ∧ p.protoErr ≤ q.protoErr ∧ q.ready = p.ready := by
  have fin : ∀ {p : Parser}, finish params p = (q, ev) →
      q.fmt = p.fmt ∧ q.chainId = p.chainId ∧ p.protoErr ≤ q.protoErr ∧ q.ready = p.ready := by
    intro p h
    rw [finish_spec rfl] at h
    injection h with h; subst h; exact ⟨rfl, rfl, Nat.le_add_right _ _, rfl⟩
  unfold parserStep at h
  split at h
  · split at h <;> (injection h with h; subst h; exact ⟨rfl, rfl, Nat.le_refl _, rfl⟩)
  · split at h <;> (injection h with h; subst h; exact ⟨rfl, rfl, Nat.le_refl _, rfl⟩)
  · dsimp only at h
    split at h
    · exact fin (p := p.accumulate _ _ _) h
    · injection h with h; subst h; exact ⟨rfl, rfl, Nat.le_refl _, rfl⟩
  · exact fin (p := p.accumulate _ _ _) h

/-- An emitted frame is a nonce record or a register record (42_parser.md R115). -/
theorem parserStep_kind {params : Params} {p q : Parser} {b r : List Byte} {k : Kind}
    (h : parserStep params p b = (q, .frame k r)) : k = .nonce ∨ k = .regack := by
  have fin : ∀ p, finish params p = (q, .frame k r) → k = .nonce ∨ k = .regack := by
    intro p h
    rw [finish_spec rfl] at h
    injection h with _ h
    unfold judge at h
    split_ifs at h <;> (injection h with h; subst h; simp)
  unfold parserStep at h
  split at h
  · split at h <;> (injection h with _ h; cases h)
  · split at h <;> (injection h with _ h; cases h)
  · dsimp only at h
    split at h
    · exact fin _ h
    · injection h with _ h; cases h
  · exact fin _ h

/-- `PS.RX` on a read unit of `WANT` bytes that stands at the front of the stream (42_parser.md R109). -/
theorem psRx_eq {s : State} {c : Nat} {ch : Chain} {bytes rest : List Byte}
    (hc : s.chains[c]? = some ch) (ha : ch.aborted = false) (hr : ch.parser.ready = true)
    (hw : ch.parser.want = bytes.length) (hx : ch.rxs = bytes ++ rest) :
    exec (.psRx c bytes) s =
      let out := parserStep s.params ch.parser bytes
      .next ((s.setChain c { ch with parser := out.1, rxs := rest }).reply s.who .none out.2) := by
  show execPsRx c bytes s = _
  unfold execPsRx
  rw [onParser_some hc ha hr]; dsimp only; rw [hw]
  have hl : ¬ (bytes.length < bytes.length ∨ ch.rxs.length < bytes.length) := by
    rw [hx, List.length_append]; omega
  rw [if_neg (by omega), if_neg hl, if_pos (by simp [hx])]
  exact congrArg (fun x => Host.Outcome.next ((s.setChain c { ch with
    parser := (parserStep s.params ch.parser bytes).1, rxs := x }).reply s.who .none
      (parserStep s.params ch.parser bytes).2)) (by rw [hx]; simp)

/-- `PS.RX` on such a read unit, where the transition is known. -/
theorem psRx_ok {s : State} {c : Nat} {ch : Chain} {bytes rest : List Byte} {p : Parser} {ev : Event}
    (hc : s.chains[c]? = some ch) (ha : ch.aborted = false) (hr : ch.parser.ready = true)
    (hw : ch.parser.want = bytes.length) (hx : ch.rxs = bytes ++ rest)
    (hp : parserStep s.params ch.parser bytes = (p, ev)) :
    exec (.psRx c bytes) s =
      .next ((s.setChain c { ch with parser := p, rxs := rest }).reply s.who .none ev) := by
  rw [psRx_eq hc ha hr hw hx, hp]

/-! ## The RX agent -/

/-- The RX agent takes one read unit and routes its event (43_pipeline.md R127, R128). -/
theorem dsp_eq {s : State} {c : Nat} {ch : Chain} {w : Nat} {p : Parser} {ev : Event}
    (hc : s.chains[c]? = some ch) (ha : ch.aborted = false) (hr : ch.parser.ready = true)
    (hs : ch.rxHalted = false) (hh : ch.holds (.rx c) = false) (hw : ch.parser.want = w)
    (hl : w ≤ ch.rxs.length) (hp : parserStep s.params ch.parser (ch.rxs.take w) = (p, ev)) :
    dsp c s = route c ev ((s.setChain c { ch with parser := p, rxs := ch.rxs.drop w }).reply
      (.rx c) .none ev) := by
  unfold dsp
  rw [onParser_some hc ha hr, if_neg (by simp [hs, hh])]; dsimp only
  rw [hw, if_neg (by omega), hp]

/-- The RX agent waits (R127, R128, 70_reset_and_hazards.md R183). -/
theorem dsp_wait {s : State} {c : Nat} {ch : Chain} {w : Nat} (hc : s.chains[c]? = some ch)
    (ha : ch.aborted = false) (hr : ch.parser.ready = true) (hw : ch.parser.want = w)
    (h : ch.rxs.length < w ∨ ch.holds (.rx c) = true ∨ ch.rxHalted = true) : dsp c s = .next s := by
  unfold dsp
  rw [onParser_some hc ha hr]; dsimp only; rw [hw]
  by_cases k : ch.rxHalted || ch.holds (.rx c)
  · rw [if_pos k]
  · rw [if_neg k, if_pos]
    simp at k
    rcases h with h | h | h
    · exact h
    · simp [k] at h
    · simp [k] at h

/-- An RX agent that waits goes on waiting. -/
theorem dspTimes_idle {c k : Nat} {t : State} (h : dsp c t = .next t) : dspTimes c k t = .next t := by
  induction k with
  | zero => rfl
  | succ k ih => unfold dspTimes; rw [h, next_andThen, ih]

end Sys2Proof.Machine
end

