-- ==== Sys2Proof/Laws/Boot.lean ====
section
/-! SUPPORT. What each part of the initialisation does, said once: a made ring, the rings of a chain, its parser, its transport, and each of them over all the chains. -/

namespace Sys2Proof.Machine

variable {s : State} {rb : RingId} {n : Nat} {m : Mode}

/-! ## `RB.INIT` -/

theorem rbInit_ok (h1 : s.named rb = true) (h2 : s.abortedAt rb = false) (h3 : s.ring? rb = none)
    (h4 : ¬ BadSize (roundSize s.params n)) :
    execRbInit rb n m s =
      .next ((s.setRing rb (Ring.fresh (roundSize s.params n) m)).reply s.who .none .none) := by
  unfold execRbInit; dsimp only
  rw [if_neg (by simp [h1]), if_neg (by simp [h2]), if_neg (by simp [h3]), if_neg h4]

theorem rbInit_bad (h1 : s.named rb = true) (h2 : s.abortedAt rb = false) (h3 : s.ring? rb = none)
    (h4 : BadSize (roundSize s.params n)) : execRbInit rb n m s = .refused .badSize := by
  unfold execRbInit; dsimp only
  rw [if_neg (by simp [h1]), if_neg (by simp [h2]), if_neg (by simp [h3]), if_pos h4]

theorem abortedAt_of_chain {c : Nat} {ch : Chain} (hc : chainOf rb = some c)
    (h : s.chains[c]? = some ch) : s.abortedAt rb = ch.aborted := by
  simp [State.abortedAt, hc, h]

/-! ## The rings of a list -/

/-- A chain given fresh rings by a list of requests. -/
def withRings (p : Params) (l : List (RingId × Nat × Mode)) (ch : Chain) : Chain :=
  l.foldl (fun ch x => ch.setRing x.1 (Ring.fresh (roundSize p x.2.1) x.2.2)) ch

/-- Step 2 on rings of one chain that do not exist yet, each named once: they are all made, or one has a bad size. -/
theorem initRings_eq {c : Nat} {l : List (RingId × Nat × Mode)} {ch : Chain}
    (h : s.chains[c]? = some ch) (ha : ch.aborted = false) (hn : (l.map Prod.fst).Nodup)
    (hl : ∀ x ∈ l, chainOf x.1 = some c ∧ ch.ring? x.1 = none) :
    ((∀ x ∈ l, ¬ BadSize (roundSize s.params x.2.1)) ∧
      ∃ reps, initRings l s = .next { s.setChain c (withRings s.params l ch) with replies := reps }) ∨
    ((¬ ∀ x ∈ l, ¬ BadSize (roundSize s.params x.2.1)) ∧ initRings l s = .refused .badSize) := by
  induction l generalizing s ch with
  | nil =>
    left
    refine ⟨(fun x hx => by cases hx), s.replies, ?_⟩
    show Host.Outcome.next s = .next { s.setChain c ch with replies := s.replies }
    rw [setChain_self h]
  | cons x l ih =>
    obtain ⟨rb, n, m⟩ := x
    obtain ⟨hc, hr⟩ := hl _ (List.mem_cons_self ..)
    have h1 : s.named rb = true := named_iff.2 (.inr ⟨c, ch, hc, h⟩)
    have h2 : s.abortedAt rb = false := (abortedAt_of_chain hc h).trans ha
    have h3 : s.ring? rb = none := (ring?_of_chain hc h).trans hr
    obtain ⟨hx, hn⟩ := List.nodup_cons.1 hn
    unfold initRings
    by_cases hb : BadSize (roundSize s.params n)
    · right
      rw [rbInit_bad h1 h2 h3 hb]
      exact ⟨fun hh => hh _ (List.mem_cons_self ..) hb, rfl⟩
    · rw [rbInit_ok h1 h2 h3 hb, next_andThen, setRing_of_chain hc h]
      have step := ih (s := (s.setChain c (ch.setRing rb (Ring.fresh (roundSize s.params n) m))).reply s.who
        .none .none) (ch := ch.setRing rb (Ring.fresh (roundSize s.params n) m))
        (setChain_chains_same h) (by simp [ha]) hn (fun y hy => by
          obtain ⟨h4, h5⟩ := hl y (List.mem_cons_of_mem _ hy)
          refine ⟨h4, ?_⟩
          rw [Chain.ring?_setRing_other hc h4, h5]
          rintro e
          exact hx (e ▸ List.mem_map_of_mem hy))
      rcases step with ⟨hg, reps, e⟩ | ⟨hg, e⟩
      · left
        refine ⟨?_, reps, ?_⟩
        · rintro y hy
          rcases List.mem_cons.1 hy with rfl | hy
          · exact hb
          · exact hg y hy
        · rw [e, setChain_reply, setChain_setChain]; rfl
      · right
        exact ⟨fun hh => hg fun y hy => hh y (List.mem_cons_of_mem _ hy), e⟩

/-! ## The parts of the sequence, for one chain -/

/-- The sizes of a chain's rings are legal. -/
def sizesOk (p : Params) (k : ChainConfig) : Prop :=
  ∀ x ∈ chainRings p k 0, ¬ BadSize (roundSize p x.2.1)

/-- A chain whose rings have been made. -/
def Chain.ringed (p : Params) (k : ChainConfig) : Chain := withRings p (chainRings p k 0) (Chain.blank k.chainId)

/-- A chain after the initialisation: started, or aborted because its transport did not open. -/
def Chain.started (p : Params) (k : ChainConfig) : Chain :=
  if k.opens then Chain.reset p k else { Chain.blank k.chainId with aborted := true }

theorem initChain_eq {c : Nat} {k : ChainConfig} (h : s.chains[c]? = some (Chain.blank k.chainId)) :
    (sizesOk s.params k ∧
      ∃ reps, initChain c k s = .next { s.setChain c (Chain.ringed s.params k) with replies := reps }) ∨
    (¬ sizesOk s.params k ∧ initChain c k s = .refused .badSize) := by
  have e : (∀ x ∈ chainRings s.params k c, ¬ BadSize (roundSize s.params x.2.1)) ↔ sizesOk s.params k := by
    simp [sizesOk, chainRings]
  rw [← e]
  refine initRings_eq (l := chainRings s.params k c) h rfl ?_ ?_
  · simp [chainRings]
  · simp only [chainRings, List.mem_cons, List.not_mem_nil, or_false]
    rintro x (rfl | rfl | rfl | rfl) <;> exact ⟨rfl, rfl⟩

theorem initParser_eq {c : Nat} {k : ChainConfig} (h : s.chains[c]? = some (Chain.ringed s.params k)) :
    ∃ reps, initParser c k s =
      .next { s.setChain c (Chain.reset s.params k) with replies := reps } := by
  unfold initParser
  rw [onChain_some h rfl]
  unfold execPsReset
  rw [onChain_some (setChain_chains_same h) rfl, setChain_setChain]
  exact ⟨_, rfl⟩

theorem openChain_eq {c : Nat} {k : ChainConfig} (h : s.chains[c]? = some (Chain.reset s.params k)) :
    ∃ reps, openChain c k s =
      .next { s.setChain c (Chain.started s.params k) with replies := reps } := by
  unfold openChain Chain.started
  split
  · exact ⟨s.replies, by rw [setChain_self h]⟩
  · exact ⟨s.replies, rfl⟩

/-! ## Over all the chains -/

/-- A part of the sequence that, chain by chain, either turns one form of a chain into another or refuses: over all the chains it
turns them all, or refuses. -/
theorem forChains_eq {f : Nat → ChainConfig → State → Answer} {a b : ChainConfig → Chain}
    {good : ChainConfig → Prop} {p : Params} {e : Refusal}
    (hf : ∀ (s : State) (c : Nat) (k : ChainConfig), s.params = p → s.chains[c]? = some (a k) →
      (good k ∧ ∃ reps, f c k s = .next { s.setChain c (b k) with replies := reps }) ∨
      (¬ good k ∧ f c k s = .refused e))
    {ks : List ChainConfig} {pre : List Chain} (hp : s.params = p) (h : s.chains = pre ++ ks.map a) :
    ((∀ k ∈ ks, good k) ∧ ∃ reps, forChains f pre.length ks s =
      .next { s with chains := pre ++ ks.map b, replies := reps }) ∨
    ((¬ ∀ k ∈ ks, good k) ∧ forChains f pre.length ks s = .refused e) := by
  induction ks generalizing s pre with
  | nil =>
    left
    refine ⟨(fun k hk => by cases hk), s.replies, ?_⟩
    show Host.Outcome.next s = .next { s with chains := pre ++ List.map b [], replies := s.replies }
    rw [List.map_nil, ← List.map_nil (f := a), ← h]
  | cons k ks ih =>
    have hc : s.chains[pre.length]? = some (a k) := by rw [h]; simp
    unfold forChains
    rcases hf s pre.length k hp hc with ⟨hg, reps, e1⟩ | ⟨hg, e1⟩
    · rw [e1, next_andThen]
      have := ih (s := { s.setChain pre.length (b k) with replies := reps }) (pre := pre ++ [b k]) hp
        (by simp [State.setChain, h])
      rw [List.length_append, List.length_singleton] at this
      rcases this with ⟨hg', reps', e2⟩ | ⟨hg', e2⟩
      · left
        refine ⟨?_, reps', ?_⟩
        · rintro x hx
          rcases List.mem_cons.1 hx with rfl | hx
          · exact hg
          · exact hg' x hx
        · rw [e2]; simp [State.setChain]
      · right
        exact ⟨fun hh => hg' fun x hx => hh x (List.mem_cons_of_mem _ hx), e2⟩
    · right
      rw [e1]
      exact ⟨fun hh => hg (hh k (List.mem_cons_self ..)), rfl⟩

end Sys2Proof.Machine
end

