-- ==== Sys2Proof/Laws/Frames.lean ====
section
/-! SUPPORT. Laws of whole frames: what `FC.PACK` and `FC.STAMP` return, and the run of a parser over one frame from its reset condition. -/

namespace Sys2Proof.Machine

/-! ## The pack side -/

/-- The frame `FC.PACK` returns, field by field (41_framecodec_pack.md R103). -/
theorem cmdFrame_eq (ck : CkSel) (op addr : Byte) (p : List Byte) :
    cmdFrame ck op addr p = [0x55#8, 0xAA#8, op, addr, BitVec.ofNat 8 p.length,
      CkSel.eval ck ([0x55#8, 0xAA#8, op, addr, BitVec.ofNat 8 p.length, 0#8] ++ p)] ++ p := rfl

/-- `FC.PACK` on a payload that fits (R103). -/
theorem pack_ok {ck : CkSel} {op addr : Byte} {p : List Byte} (h : p.length ≤ 255) :
    pack ck op addr p = .ok (cmdFrame ck op addr p) := by
  unfold pack; rw [if_neg (by have : Config.caps.lenFieldMax = 255 := rfl; omega)]

/-- `FC.PACK` on a payload that does not (R104). -/
theorem pack_err {ck : CkSel} {op addr : Byte} {p : List Byte} (h : 255 < p.length) :
    pack ck op addr p = .error .payloadTooLong := by
  unfold pack; rw [if_pos (by have : Config.caps.lenFieldMax = 255 := rfl; omega)]

/-- When `FC.PACK` returns a frame, and which. -/
theorem pack_inv {ck : CkSel} {op addr : Byte} {p f : List Byte} (h : pack ck op addr p = .ok f) :
    p.length ≤ 255 ∧ f = cmdFrame ck op addr p := by
  by_cases c : p.length ≤ 255
  · rw [pack_ok c] at h; injection h with h; exact ⟨c, h.symm⟩
  · rw [pack_err (by omega)] at h; cases h

/-- A packed frame is valid (R105 a). -/
theorem cmdFrame_valid (ck : CkSel) (op addr : Byte) {p : List Byte} (h : p.length ≤ 255) :
    FrameValid ck .cmd (cmdFrame ck op addr p) := by
  rw [cmdFrame_eq]
  refine ⟨by simp [Fmt.headerLen, Config.caps], rfl, rfl, ?_, rfl⟩
  show _ = 6 + (BitVec.ofNat 8 p.length).toNat
  rw [BitVec.toNat_ofNat, Nat.mod_eq_of_lt (by omega)]; simp; omega

/-- `FC.STAMP` packs the opcode, the address and the payload of an image (R106). -/
theorem stamp_ok {ck : CkSel} {im : List Byte} (h : 6 ≤ im.length) :
    stamp ck im = pack ck (im.getD 2 0#8) (im.getD 3 0#8) (im.drop 6) := by
  match im, h with
  | a :: b :: c :: d :: e :: f :: l, _ => rfl

/-! ## Bytes at an offset -/

theorem getD_set_ne {l : List Byte} {i j x} (h : i ≠ j) : (l.set i x).getD j 0#8 = l.getD j 0#8 := by
  simp [List.getElem?_set_ne h]

theorem getD_set_eq {l : List Byte} {i x} (h : i < l.length) : (l.set i x).getD i 0#8 = x := by
  simp [h]

/-! ## Checksums that notice a change of one byte -/

theorem sum8_set_inj {l : List Byte} {i : Nat} (h : i < l.length) {x y : Byte}
    (e : sum8 (l.set i x) = sum8 (l.set i y)) : x = y := by
  induction l generalizing i with
  | nil => simp at h
  | cons b l ih =>
    cases i with
    | zero => simp only [List.set_cons_zero, sum8] at e; exact (BitVec.add_left_inj _).1 e
    | succ i => simp only [List.set_cons_succ, sum8] at e; exact ih (by simpa using h) ((BitVec.add_right_inj _).1 e)

theorem xor8_set_inj {l : List Byte} {i : Nat} (h : i < l.length) {x y : Byte}
    (e : xor8 (l.set i x) = xor8 (l.set i y)) : x = y := by
  induction l generalizing i with
  | nil => simp at h
  | cons b l ih =>
    cases i with
    | zero => simp only [List.set_cons_zero, xor8] at e; exact (BitVec.xor_left_inj _).1 e
    | succ i => simp only [List.set_cons_succ, xor8] at e; exact ih (by simpa using h) ((BitVec.xor_right_inj _).1 e)

theorem flip_bit_ne (b : Byte) (j : Fin 8) : b ^^^ (1#8 <<< j.val) ≠ b := by
  intro h
  have : b ^^^ (1#8 <<< j.val) = b ^^^ 0#8 := by rw [h]; simp
  have k := (BitVec.xor_right_inj _).1 this
  exact absurd k ((by decide : ∀ j : Fin 8, 1#8 <<< j.val ≠ 0#8) j)

theorem set_getD_self {l : List Byte} {i : Nat} (h : i < l.length) : l.set i (l.getD i 0#8) = l := by
  rw [getD_eq_getElem h]; simp

/-! ## Frames -/

/-- A frame of a format is its preamble, the rest of its header, and its payload (30_encoding.md R65). -/
theorem split_frame {fmt : Fmt} {f : List Byte} (h : fmt.headerLen ≤ f.length)
    (h0 : f.getD 0 0#8 = fmt.p1) (h1 : f.getD 1 0#8 = fmt.p2)
   (hl : f.length = fmt.headerLen + (f.getD fmt.lenOff 0#8).toNat) :
    ∃ hd pl, f = [fmt.p1, fmt.p2] ++ hd ++ pl ∧ hd.length = fmt.headerLen - 2 ∧
      pl.length = (([fmt.p1, fmt.p2] ++ hd).getD fmt.lenOff 0#8).toNat := by
  have h6 := fmt.headerLen_pos
  have ho := fmt.lenOff_lt; have ho' := fmt.ckOff_lt
  match f, h with
  | [], h => simp at h; omega
  | [_], h => simp at h; omega
  | a :: b :: l, h =>
    have ea : a = fmt.p1 := h0
    have eb : b = fmt.p2 := h1
    subst ea; subst eb
    have e : (fmt.p1 :: fmt.p2 :: l) = [fmt.p1, fmt.p2] ++ l.take (fmt.headerLen - 2) ++ l.drop (fmt.headerLen - 2) := by simp
    refine ⟨l.take (fmt.headerLen - 2), l.drop (fmt.headerLen - 2), e, by simp at h ⊢; omega, ?_⟩
    rw [e, getD_append_left (by simp at h ⊢; omega)] at hl
    simp at hl h ⊢; omega

/-- What `FC.PARSE` keeps of a frame with a good checksum (42_parser.md R120). -/
theorem parsedOf_judge {params : Params} {fmt id f}
    (h : f.getD fmt.ckOff 0#8 = CkSel.eval params.ck (zeroed fmt f)) :
    parsedOf (judge params fmt id f) = [(kindOf params.opmap (f.getD fmt.opOff 0#8), f)] := by
  unfold judge kindOf
  rw [if_neg (not_not.2 h.symm)]
  split_ifs <;> simp [parsedOf]

/-- A valid frame is judged by its opcode alone (R115). -/
theorem judge_valid {params fmt id f} (h : FrameValid params.ck fmt f) : judge params fmt id f =
  if f.getD fmt.opOff 0#8 = params.opmap.returnNonce then .frame .nonce (f ++ [id])
  else if f.getD fmt.opOff 0#8 ∈ params.opmap.recognized then .frame .regack (f ++ [id])
  else .unknownOpcode f := by
  unfold judge; rw [if_neg (not_not.2 h.2.2.2.2.symm)]

/-- The bytes of a frame with these fields, in parts. -/
theorem frameBytes_parts (fmt : Fmt) (op addr ack cksum) {pl : List Byte} (h : pl.length ≤ 255) :
    ∃ hd, frameBytes fmt op addr ack cksum pl = [fmt.p1, fmt.p2] ++ hd ++ pl ∧
      hd.length = fmt.headerLen - 2 ∧ pl.length = (([fmt.p1, fmt.p2] ++ hd).getD fmt.lenOff 0#8).toNat := by
  have e : pl.length = (BitVec.ofNat 8 pl.length).toNat := by rw [BitVec.toNat_ofNat, Nat.mod_eq_of_lt (by omega)]
  cases fmt
  · exact ⟨[op, addr, BitVec.ofNat 8 pl.length, cksum], rfl, rfl, e⟩
  · exact ⟨[op, addr, ack, BitVec.ofNat 8 pl.length, cksum], rfl, rfl, e⟩

theorem frameBytes_op (fmt : Fmt) (op addr ack cksum) (pl : List Byte) :
    (frameBytes fmt op addr ack cksum pl).getD fmt.opOff 0#8 = op := by cases fmt <;> rfl

/-- A wire row is the arrival of its frame. -/
theorem exec_wire (fmt : Fmt) (n : OpName) (c addr ack cksum pl) (s : State) :
    exec (wireInstr fmt n c addr ack cksum pl) s = receive c (frameBytes fmt (s.params.opmap.byteOf n) addr ack cksum pl) s := by
  cases fmt <;> cases n <;> rfl

theorem exec_unknown (fmt : Fmt) (op) (c addr ack cksum pl) (s : State) :
    exec (unknownInstr fmt c op addr ack cksum pl) s = receive c (frameBytes fmt op addr ack cksum pl) s := by
  cases fmt <;> rfl

/-! ## A parser's run over one frame -/

/-- A read unit of `WANT` bytes keeps the invariant of a parser (10_state.md R30). -/
theorem parserStep_wf {params} {p q : Parser} {u ev} (hw : p.Wf) (h : p.want = u.length)
    (hs : parserStep params p u = (q, ev)) : q.Wf := by
  obtain ⟨q', ev', e, hq, -⟩ := parserStep_total (params := params) hw h.symm
  rw [hs] at e; injection e with e1 e2; subst e1; exact hq

/-- Read units that report nothing: the parser before, their bytes, their number, the parser after. -/
inductive QuietRun (params : Params) : Parser → List Byte → Nat → Parser → Prop
  | nil (p : Parser) : QuietRun params p [] 0 p
  | cons {p p' q : Parser} {u b : List Byte} {n : Nat} : p.want = u.length → 1 ≤ u.length →
      parserStep params p u = (p', .none) → QuietRun params p' b n q → QuietRun params p (u ++ b) (n + 1) q

/-- From its reset condition a parser takes a whole frame in two or three quiet read units and a last one in which it judges the
frame (42_parser.md R110 to R116). -/
theorem frame_run {params : Params} {p : Parser} (hw : p.Wf) (hp : p.ps = .p1) {hd pl : List Byte}
    (hh : hd.length = p.fmt.headerLen - 2)
    (hl : pl.length = (([p.fmt.p1, p.fmt.p2] ++ hd).getD p.fmt.lenOff 0#8).toNat) :
    let f := [p.fmt.p1, p.fmt.p2] ++ hd ++ pl
    ∃ q b u, f = b ++ u ∧ 1 ≤ u.length ∧ QuietRun params p b (quietSteps pl) q ∧ q.want = u.length ∧
      parserStep params q u = (p.judged (Scr.writeList p.scr 0 f) (judge params p.fmt p.chainId f),
        judge params p.fmt p.chainId f) := by
  have h6 := p.fmt.headerLen_pos
  -- step 1
  let q1 : Parser := { p.accumulate 0 [p.fmt.p1] 1 with ps := .p2 }
  have w0 : p.want = [p.fmt.p1].length := by unfold Parser.want; rw [hp]; rfl
  have s0 : parserStep params p [p.fmt.p1] = (q1, .none) := by rw [parserStep_p1 hp, if_pos rfl]
  obtain ⟨x, ev, e, hw1, -, -⟩ := parserStep_total (params := params) hw w0.symm
  rw [s0] at e; injection e with e1 _; subst e1
  -- step 2
  let q2 : Parser := { q1.accumulate 1 [p.fmt.p2] 2 with ps := .hdr }
  have w1 : q1.want = [p.fmt.p2].length := rfl
  have s1 : parserStep params q1 [p.fmt.p2] = (q2, .none) := by rw [parserStep_p2 rfl]; exact if_pos rfl
  obtain ⟨x, ev, e, hw2, -, -⟩ := parserStep_total (params := params) hw1 w1.symm
  rw [s1] at e; injection e with e1 _; subst e1
  -- step 3
  have w2 : q2.want = hd.length := by show p.fmt.headerLen - 2 = _; rw [hh]
  have s2 := parserStep_hdr (params := params) (p := q2) hw2 rfl (bytes := hd) hh
  have hq : QuietRun params p ([p.fmt.p1] ++ ([p.fmt.p2] ++ [])) 2 q2 := .cons w0 (by simp) s0 (.cons w1 (by simp) s1 (.nil q2))
  obtain ⟨hf, hpl⟩ := plen_accumulate (p := q2) hw2 rfl (bytes := hd) hh
  dsimp only at s2 ⊢
  by_cases hz : pl = []
  · subst hz
    have hz : ([p.fmt.p1, p.fmt.p2] ++ hd).getD p.fmt.lenOff 0#8 = 0#8 := BitVec.eq_of_toNat_eq (by rw [← hl]; rfl)
    have hz' : ([q2.fmt.p1, q2.fmt.p2] ++ hd).getD q2.fmt.lenOff 0#8 = 0#8 := hz
    rw [if_pos hz'] at s2
    refine ⟨q2, _, hd, ?_, by omega, hq, w2, ?_⟩
    · simp
    · rw [s2, List.append_nil]; rfl
  · have hz' : ¬ ([q2.fmt.p1, q2.fmt.p2] ++ hd).getD q2.fmt.lenOff 0#8 = 0#8 := by
      intro e
      have e' : ([p.fmt.p1, p.fmt.p2] ++ hd).getD p.fmt.lenOff 0#8 = 0#8 := e
      rw [e'] at hl; exact hz (List.length_eq_zero_iff.1 hl)
    rw [if_neg hz'] at s2
    let q3 : Parser := { q2.accumulate 2 hd q2.fmt.headerLen with ps := .body }
    have w3 : q3.want = pl.length := hpl.trans hl.symm
    have s3 := parserStep_body (params := params) (p := q3) rfl hf
      (by simp; show _ = p.fmt.headerLen; omega) (bytes := pl)
      (by rw [hl]; have := (([p.fmt.p1, p.fmt.p2] ++ hd).getD p.fmt.lenOff 0#8).isLt; omega)
    refine ⟨q3, [p.fmt.p1] ++ ([p.fmt.p2] ++ (hd ++ [])), pl, ?_, List.length_pos_iff.2 hz, ?_, w3, ?_⟩
    · simp
    · unfold quietSteps; rw [if_neg hz]
      exact .cons w0 (by simp) s0 (.cons w1 (by simp) s1 (.cons w2 (by omega) s2 (.nil q3)))
    · rw [s3]
      have e : Scr.writeList p.scr 0 ([p.fmt.p1, p.fmt.p2] ++ hd ++ pl) =
          Scr.writeList q3.scr p.fmt.headerLen pl := by
        rw [Scr.writeList_append, show 0 + ([p.fmt.p1, p.fmt.p2] ++ hd).length = p.fmt.headerLen by
          simp; omega]
        rfl
      rw [e]; rfl

end Sys2Proof.Machine
end

