-- ==== Sys2Proof/Laws/Invariant.lean ====
section
/-! SUPPORT. The block's invariant in terms of names: what it says of each chain and of each instance, and how an update of one place is checked against it. -/

namespace Sys2Proof.Machine

/-- What a chain's rings are called. -/
theorem mem_rings {ch : Chain} {c : Nat} {x : RingId × Option Ring} :
    x ∈ ch.rings c ↔ chainOf x.1 = some c ∧ x.2 = ch.ring? x.1 := by
  obtain ⟨rb, o⟩ := x
  simp only [Chain.rings, List.mem_cons, List.not_mem_nil, or_false, Prod.mk.injEq]
  constructor
  · rintro (⟨rfl, rfl⟩ | ⟨rfl, rfl⟩ | ⟨rfl, rfl⟩ | ⟨rfl, rfl⟩) <;> exact ⟨rfl, rfl⟩
  · rintro ⟨h, rfl⟩
    cases rb <;> simp_all [chainOf, Chain.ring?]

/-- The invariant, instance by instance and parser by parser. -/
theorem State.wf_iff {s : State} : s.Wf ↔
    (∀ (c : Nat) (ch : Chain), s.chains[c]? = some ch → ch.parser.Wf) ∧
    ∀ (rb : RingId) (r : Ring), s.ring? rb = some r → r.Wf ∧ r.HeldInPlace rb := by
  constructor
  · rintro ⟨h1, h2⟩
    refine ⟨fun c ch hc => ?_, fun rb r hr => ?_⟩
    · obtain ⟨hlt, rfl⟩ := List.getElem?_eq_some_iff.1 hc
      exact (h1 c hlt).1
    · rcases named_iff.1 (named_of_ring? hr) with hc | ⟨c, ch, hc, hch⟩
      · have : rb = .pmon := by cases rb <;> cases hc; rfl
        subst this
        exact h2 r hr
      · rw [ring?_of_chain hc hch] at hr
        obtain ⟨hlt, rfl⟩ := List.getElem?_eq_some_iff.1 hch
        exact (h1 c hlt).2 (rb, some r) (mem_rings.2 ⟨hc, hr.symm⟩) r rfl
  · rintro ⟨h1, h2⟩
    refine ⟨fun c hlt => ⟨h1 c _ (List.getElem?_eq_getElem hlt), fun x hx r hr => ?_⟩,
      fun r hr => h2 .pmon r hr⟩
    obtain ⟨hc, ho⟩ := mem_rings.1 hx
    refine h2 x.1 r ?_
    rw [ring?_of_chain hc (List.getElem?_eq_getElem hlt), ← ho]; exact hr

/-- An instance that meets the invariant may be put in the place of any. -/
theorem State.wf_setRing {s : State} {rb : RingId} {r : Ring} (h : s.Wf) (hr : r.Wf)
    (hp : r.HeldInPlace rb) : (s.setRing rb r).Wf := by
  obtain ⟨h1, h2⟩ := State.wf_iff.1 h
  refine State.wf_iff.2 ⟨fun c ch hc => ?_, fun rb' r' hr' => ?_⟩
  · by_cases hcr : chainOf rb = some c
    · cases hch : s.chains[c]? with
      | none =>
        rw [State.setRing, hcr] at hc; simp only [hch] at hc; cases hc
      | some ch0 =>
        rw [setRing_chains_same hcr hch] at hc
        injection hc with hc; subst hc
        simpa using h1 c ch0 hch
    · rw [setRing_chains_other hcr] at hc; exact h1 c ch hc
  · by_cases e : rb' = rb
    · subst e
      cases hn : s.named rb' with
      | true =>
        rw [ring?_setRing_same hn] at hr'
        injection hr' with hr'; subst hr'; exact ⟨hr, hp⟩
      | false =>
        have := named_of_ring? hr'
        rw [setRing_named, hn] at this; cases this
    · rw [ring?_setRing_other e] at hr'; exact h2 rb' r' hr'

/-- A chain whose rings are as before and whose parser meets the invariant may be put in the place of one. -/
theorem State.wf_setChain {s : State} {c : Nat} {ch ch' : Chain} (h : s.Wf) (hc : s.chains[c]? = some ch)
    (hp : ch'.parser.Wf) (hr : ∀ rb, ch'.ring? rb = ch.ring? rb) : (s.setChain c ch').Wf := by
  obtain ⟨h1, h2⟩ := State.wf_iff.1 h
  refine State.wf_iff.2 ⟨fun d dh hd => ?_, fun rb r hrb => ?_⟩
  · by_cases e : d = c
    · subst e
      rw [setChain_chains_same hc] at hd
      injection hd with hd; subst hd; exact hp
    · rw [setChain_chains_other e] at hd; exact h1 d dh hd
  · refine h2 rb r ?_
    by_cases e : chainOf rb = some c
    · rw [ring?_setChain_same e hc, hr, ← ring?_of_chain e hc] at hrb; exact hrb
    · rwa [ring?_setChain_other e] at hrb

/-- Fields that no instance or chain depends on do not matter to the invariant. -/
theorem State.wf_congr {s t : State} (hc : t.chains = s.chains) (hp : t.pmon = s.pmon) (h : s.Wf) : t.Wf := by
  have hr : ∀ rb, t.ring? rb = s.ring? rb := fun rb => by unfold State.ring?; rw [hc, hp]
  obtain ⟨h1, h2⟩ := State.wf_iff.1 h
  exact State.wf_iff.2 ⟨fun c ch => by rw [hc]; exact h1 c ch, fun rb r => by rw [hr]; exact h2 rb r⟩

/-- A fresh instance of a legal size meets the invariant. -/
theorem Ring.fresh_wf {n : Nat} {m : Mode} (h : ¬ BadSize n) : (Ring.fresh n m).Wf := by
  have h' : ¬ (n = 0 ∨ n > 32767) := h
  have hd : (Ring.fresh n m).dataLen = 0 := by simp [Ring.dataLen, Ring.fresh, Ring.ew, Ring.er]
  refine ⟨⟨?_, ?_⟩, ⟨?_, ?_⟩, fun _ => rfl, fun c => ?_, ⟨?_, ?_⟩, fun i hi => ?_⟩
  · show 1 ≤ n; omega
  · show n ≤ 32767; omega
  · show 0 < n; omega
  · show 0 < n; omega
  · exact absurd c (Nat.lt_irrefl 0)
  · exact List.Pairwise.nil
  · intro e he; cases he
  · rw [hd] at hi; omega

/-- Under the invariant a copy-out leaves a ring that meets it. -/
theorem rbLoad_wf {r r' : Ring} {k : Nat} {out : List Byte} (h : r.Wf) (hk : k ≤ r.dataLen)
    (ho : rbLoad r k = some (out, r')) : r' = r.advance k ∧ r'.Wf := by
  obtain ⟨out', ho', -⟩ := rbLoad_spec h hk
  rw [ho] at ho'
  injection ho' with ho'
  injection ho' with _ e
  subst e
  exact ⟨rfl, Ring.advance_wf h hk⟩

end Sys2Proof.Machine
end

