-- ==== Sys2Proof/Laws/PerInstr.lean ====
section
/-! SUPPORT. One family of laws, instruction by instruction: the line of an instruction carries the bits that spec/opcode_table.json
gives its row (30_encoding.md R72, R74), the bytes of the names being those of the default `OPMAP` (R68). -/

namespace Sys2Proof.Laws.TableRow

/-- The fixed bits of a row of the opcode table. -/
inductive Row
  /-- the 4-bit selector of an operation -/
  | selector (sel : BitVec 4)
  /-- the first three bytes of a frame -/
  | frame (p1 p2 opcode : Byte)
  /-- the two preamble bytes, the opcode byte open -/
  | preamble (p1 p2 : Byte)

/-- A line carries the fixed bits of a row. -/
def Row.On : Row → Line → Prop
  | .selector sel, line => ∃ args, line = .op sel args
  | .frame p1 p2 opcode, line => ∃ c rest, line = .wire c (p1 :: p2 :: opcode :: rest)
  | .preamble p1 p2, line => ∃ c rest, line = .wire c (p1 :: p2 :: rest)

/-- The row of an instruction, its bits as the table writes them. -/
def row : Instr → Row
  | .initCmd _ _ _ _ => .frame 0x55#8 0xAA#8 0x00#8
  | .initAck _ _ _ _ _ => .frame 0xAA#8 0x55#8 0x00#8
  | .setNonceDiffCmd _ _ _ _ => .frame 0x55#8 0xAA#8 0x01#8
  | .setNonceDiffAck _ _ _ _ _ => .frame 0xAA#8 0x55#8 0x01#8
  | .setSeedCmd _ _ _ _ => .frame 0x55#8 0xAA#8 0x02#8
  | .setSeedAck _ _ _ _ _ => .frame 0xAA#8 0x55#8 0x02#8
  | .setMessageCmd _ _ _ _ => .frame 0x55#8 0xAA#8 0x03#8
  | .setMessageAck _ _ _ _ _ => .frame 0xAA#8 0x55#8 0x03#8
  | .returnNonceCmd _ _ _ _ => .frame 0x55#8 0xAA#8 0x04#8
  | .returnNonceAck _ _ _ _ _ => .frame 0xAA#8 0x55#8 0x04#8
  | .setNonceRegionCmd _ _ _ _ => .frame 0x55#8 0xAA#8 0x05#8
  | .setNonceRegionAck _ _ _ _ _ => .frame 0xAA#8 0x55#8 0x05#8
  | .firmwareUpdateCmd _ _ _ _ => .frame 0x55#8 0xAA#8 0x06#8
  | .firmwareUpdateAck _ _ _ _ _ => .frame 0xAA#8 0x55#8 0x06#8
  | .firmwareUpdateEndCmd _ _ _ _ => .frame 0x55#8 0xAA#8 0x07#8
  | .firmwareUpdateEndAck _ _ _ _ _ => .frame 0xAA#8 0x55#8 0x07#8
  | .testCmd _ _ _ _ => .frame 0x55#8 0xAA#8 0x08#8
  | .testAck _ _ _ _ _ => .frame 0xAA#8 0x55#8 0x08#8
  | .getBoardTempCmd _ _ _ _ => .frame 0x55#8 0xAA#8 0x09#8
  | .getBoardTempAck _ _ _ _ _ => .frame 0xAA#8 0x55#8 0x09#8
  | .getChipTempCmd _ _ _ _ => .frame 0x55#8 0xAA#8 0x0A#8
  | .getChipTempAck _ _ _ _ _ => .frame 0xAA#8 0x55#8 0x0A#8
  | .readMemCmd _ _ _ _ => .frame 0x55#8 0xAA#8 0x0B#8
  | .readMemAck _ _ _ _ _ => .frame 0xAA#8 0x55#8 0x0B#8
  | .writeMemCmd _ _ _ _ => .frame 0x55#8 0xAA#8 0x0C#8
  | .writeMemAck _ _ _ _ _ => .frame 0xAA#8 0x55#8 0x0C#8
  | .setChipAddressCmd _ _ _ _ => .frame 0x55#8 0xAA#8 0x0D#8
  | .setChipAddressAck _ _ _ _ _ => .frame 0xAA#8 0x55#8 0x0D#8
  | .unknownOpcodeCmd _ _ _ _ _ => .preamble 0x55#8 0xAA#8
  | .unknownOpcodeAck _ _ _ _ _ _ => .preamble 0xAA#8 0x55#8
  | .rbInit _ _ _ => .selector 0x0#4
  | .rbPutPolling _ _ => .selector 0x1#4
  | .rbPutBlocking _ _ => .selector 0x1#4
  | .rbGetPolling _ _ => .selector 0x2#4
  | .rbGetBlocking _ _ => .selector 0x2#4
  | .rbPutForce _ _ => .selector 0x3#4
  | .rbDataLen _ => .selector 0x4#4
  | .rbSpaceLen _ => .selector 0x5#4
  | .rbStatus _ => .selector 0x6#4
  | .rbShutdown _ => .selector 0x7#4
  | .fcPack _ _ _ => .selector 0x8#4
  | .fcStamp _ => .selector 0x9#4
  | .psRx _ _ => .selector 0xA#4
  | .psReset _ => .selector 0xB#4
  | .psWant _ => .selector 0xC#4
  | .fcParse _ _ => .selector 0xD#4
  | .dspStep _ => .selector 0xE#4
  | .txStep _ _ => .selector 0xF#4

/-- An instruction's line carries the bits of its row. -/
def Statement (i : Instr) : Prop := (row i).On (encode Config.defaultOpMap i)

theorem initCmd (chain : Nat) (addr cksum : Byte) (payload : List Byte) :
    Statement (.initCmd chain addr cksum payload) := ⟨_, _, rfl⟩
theorem initAck (chain : Nat) (addr ack cksum : Byte) (payload : List Byte) :
    Statement (.initAck chain addr ack cksum payload) := ⟨_, _, rfl⟩
theorem setNonceDiffCmd (chain : Nat) (addr cksum : Byte) (payload : List Byte) :
    Statement (.setNonceDiffCmd chain addr cksum payload) := ⟨_, _, rfl⟩
theorem setNonceDiffAck (chain : Nat) (addr ack cksum : Byte) (payload : List Byte) :
    Statement (.setNonceDiffAck chain addr ack cksum payload) := ⟨_, _, rfl⟩
theorem setSeedCmd (chain : Nat) (addr cksum : Byte) (payload : List Byte) :
    Statement (.setSeedCmd chain addr cksum payload) := ⟨_, _, rfl⟩
theorem setSeedAck (chain : Nat) (addr ack cksum : Byte) (payload : List Byte) :
    Statement (.setSeedAck chain addr ack cksum payload) := ⟨_, _, rfl⟩
theorem setMessageCmd (chain : Nat) (addr cksum : Byte) (payload : List Byte) :
    Statement (.setMessageCmd chain addr cksum payload) := ⟨_, _, rfl⟩
theorem setMessageAck (chain : Nat) (addr ack cksum : Byte) (payload : List Byte) :
    Statement (.setMessageAck chain addr ack cksum payload) := ⟨_, _, rfl⟩
theorem returnNonceCmd (chain : Nat) (addr cksum : Byte) (payload : List Byte) :
    Statement (.returnNonceCmd chain addr cksum payload) := ⟨_, _, rfl⟩
theorem returnNonceAck (chain : Nat) (addr ack cksum : Byte) (payload : List Byte) :
    Statement (.returnNonceAck chain addr ack cksum payload) := ⟨_, _, rfl⟩
theorem setNonceRegionCmd (chain : Nat) (addr cksum : Byte) (payload : List Byte) :
    Statement (.setNonceRegionCmd chain addr cksum payload) := ⟨_, _, rfl⟩
theorem setNonceRegionAck (chain : Nat) (addr ack cksum : Byte) (payload : List Byte) :
    Statement (.setNonceRegionAck chain addr ack cksum payload) := ⟨_, _, rfl⟩
theorem firmwareUpdateCmd (chain : Nat) (addr cksum : Byte) (payload : List Byte) :
    Statement (.firmwareUpdateCmd chain addr cksum payload) := ⟨_, _, rfl⟩
theorem firmwareUpdateAck (chain : Nat) (addr ack cksum : Byte) (payload : List Byte) :
    Statement (.firmwareUpdateAck chain addr ack cksum payload) := ⟨_, _, rfl⟩
theorem firmwareUpdateEndCmd (chain : Nat) (addr cksum : Byte) (payload : List Byte) :
    Statement (.firmwareUpdateEndCmd chain addr cksum payload) := ⟨_, _, rfl⟩
theorem firmwareUpdateEndAck (chain : Nat) (addr ack cksum : Byte) (payload : List Byte) :
    Statement (.firmwareUpdateEndAck chain addr ack cksum payload) := ⟨_, _, rfl⟩
theorem testCmd (chain : Nat) (addr cksum : Byte) (payload : List Byte) :
    Statement (.testCmd chain addr cksum payload) := ⟨_, _, rfl⟩
theorem testAck (chain : Nat) (addr ack cksum : Byte) (payload : List Byte) :
    Statement (.testAck chain addr ack cksum payload) := ⟨_, _, rfl⟩
theorem getBoardTempCmd (chain : Nat) (addr cksum : Byte) (payload : List Byte) :
    Statement (.getBoardTempCmd chain addr cksum payload) := ⟨_, _, rfl⟩
theorem getBoardTempAck (chain : Nat) (addr ack cksum : Byte) (payload : List Byte) :
    Statement (.getBoardTempAck chain addr ack cksum payload) := ⟨_, _, rfl⟩
theorem getChipTempCmd (chain : Nat) (addr cksum : Byte) (payload : List Byte) :
    Statement (.getChipTempCmd chain addr cksum payload) := ⟨_, _, rfl⟩
theorem getChipTempAck (chain : Nat) (addr ack cksum : Byte) (payload : List Byte) :
    Statement (.getChipTempAck chain addr ack cksum payload) := ⟨_, _, rfl⟩
theorem readMemCmd (chain : Nat) (addr cksum : Byte) (payload : List Byte) :
    Statement (.readMemCmd chain addr cksum payload) := ⟨_, _, rfl⟩
theorem readMemAck (chain : Nat) (addr ack cksum : Byte) (payload : List Byte) :
    Statement (.readMemAck chain addr ack cksum payload) := ⟨_, _, rfl⟩
theorem writeMemCmd (chain : Nat) (addr cksum : Byte) (payload : List Byte) :
    Statement (.writeMemCmd chain addr cksum payload) := ⟨_, _, rfl⟩
theorem writeMemAck (chain : Nat) (addr ack cksum : Byte) (payload : List Byte) :
    Statement (.writeMemAck chain addr ack cksum payload) := ⟨_, _, rfl⟩
theorem setChipAddressCmd (chain : Nat) (addr cksum : Byte) (payload : List Byte) :
    Statement (.setChipAddressCmd chain addr cksum payload) := ⟨_, _, rfl⟩
theorem setChipAddressAck (chain : Nat) (addr ack cksum : Byte) (payload : List Byte) :
    Statement (.setChipAddressAck chain addr ack cksum payload) := ⟨_, _, rfl⟩
theorem unknownOpcodeCmd (chain : Nat) (opcode addr cksum : Byte) (payload : List Byte) :
    Statement (.unknownOpcodeCmd chain opcode addr cksum payload) := ⟨_, _, rfl⟩
theorem unknownOpcodeAck (chain : Nat) (opcode addr ack cksum : Byte) (payload : List Byte) :
    Statement (.unknownOpcodeAck chain opcode addr ack cksum payload) := ⟨_, _, rfl⟩
theorem rbInit (rb : RingId) (sizeReq : Nat) (mode : Mode) :
    Statement (.rbInit rb sizeReq mode) := ⟨_, rfl⟩
theorem rbPutPolling (rb : RingId) (data : List Byte) :
    Statement (.rbPutPolling rb data) := ⟨_, rfl⟩
theorem rbPutBlocking (rb : RingId) (data : List Byte) :
    Statement (.rbPutBlocking rb data) := ⟨_, rfl⟩
theorem rbGetPolling (rb : RingId) (n : Nat) :
    Statement (.rbGetPolling rb n) := ⟨_, rfl⟩
theorem rbGetBlocking (rb : RingId) (n : Nat) :
    Statement (.rbGetBlocking rb n) := ⟨_, rfl⟩
theorem rbPutForce (rb : RingId) (data : List Byte) :
    Statement (.rbPutForce rb data) := ⟨_, rfl⟩
theorem rbDataLen (rb : RingId) :
    Statement (.rbDataLen rb) := ⟨_, rfl⟩
theorem rbSpaceLen (rb : RingId) :
    Statement (.rbSpaceLen rb) := ⟨_, rfl⟩
theorem rbStatus (rb : RingId) :
    Statement (.rbStatus rb) := ⟨_, rfl⟩
theorem rbShutdown (rb : RingId) :
    Statement (.rbShutdown rb) := ⟨_, rfl⟩
theorem fcPack (opcode addr : Byte) (payload : List Byte) :
    Statement (.fcPack opcode addr payload) := ⟨_, rfl⟩
theorem fcStamp (image : List Byte) :
    Statement (.fcStamp image) := ⟨_, rfl⟩
theorem psRx (chain : Nat) (bytes : List Byte) :
    Statement (.psRx chain bytes) := ⟨_, rfl⟩
theorem psReset (chain : Nat) :
    Statement (.psReset chain) := ⟨_, rfl⟩
theorem psWant (chain : Nat) :
    Statement (.psWant chain) := ⟨_, rfl⟩
theorem fcParse (fmt : Fmt) (bytes : List Byte) :
    Statement (.fcParse fmt bytes) := ⟨_, rfl⟩
theorem dspStep (chain : Nat) :
    Statement (.dspStep chain) := ⟨_, rfl⟩
theorem txStep (chain : Nat) (which : Which) :
    Statement (.txStep chain which) := ⟨_, rfl⟩

end Sys2Proof.Laws.TableRow
end

