-- ==== Sys2Proof/Tests/Slice0.lean ====
section
/-! SUPPORT. Tests of the model: ill-formed instructions are refused, words written out from the encoding tables decode to their instructions, single steps give what the vectors of 95_test_vectors.md say, and the hypotheses of every obligation are met somewhere. -/

set_option maxRecDepth 8000
set_option synthInstance.maxSize 2000

namespace Sys2Proof.Tests

open Sys2Proof Sys2Proof.Machine

/-! ## Small states -/

/-- A ring of 16 bytes that holds some bytes from index 0 on. -/
def ring16 (m : Mode) (bytes : List Byte) : Ring :=
  { Ring.fresh 16 m with buf := Mem.writeList [] 0 bytes, wi := BitVec.ofNat 15 bytes.length }

/-- A ring of 8 bytes that holds some bytes from index 0 on. -/
def ring8 (m : Mode) (bytes : List Byte) : Ring := { ring16 m bytes with size := 8 }

/-- A state with one ring, `PMON_RING`, and no chain. -/
def withRing (r : Ring) : State := { State.blank Config.params [] with pmon := some r }

/-- The bytes 00 to 09. -/
def ten : List Byte := [0x00, 0x01, 0x02, 0x03, 0x04, 0x05, 0x06, 0x07, 0x08, 0x09]

/-- A chain with a parser and waiting bytes; its inbound rings hold 16 bytes, its outbound rings 16. -/
def chainWith (p : Parser) (rxs : List Byte) : Chain :=
  { Chain.blank 2 with
    parser := p, nonce := some (Ring.fresh 16 .blocking), reg := some (Ring.fresh 16 .polling),
    work := some (Ring.fresh 16 .blocking), dl := some (Ring.fresh 16 .blocking), rxs := rxs }

/-- A state with one chain and no `PMON_RING`. -/
def withChain (ch : Chain) : State := { State.blank Config.params [] with chains := [ch] }

/-- A parser of a format after some bytes of a frame. -/
def parserAt (fmt : Fmt) (ps : PState) (bytes : List Byte) : Parser :=
  { Parser.fresh fmt 2 with ps := ps, acc := BitVec.ofNat 10 bytes.length, scr := Scr.writeList [] 0 bytes }

/-- The head of A1 of the vectors: the header of a return-nonce frame with four payload bytes. -/
def headA1 : List Byte := [0xAA, 0x55, 0x04, 0x03, 0x00, 0x04, 0x42]

/-- What the last requester was told. -/
def told : Answer → Option (Result × Event)
  | .next s => s.replies.head?.map fun r => (r.result, r.event)
  | _ => none

/-- What an answer leaves of `PMON_RING`. -/
def pmonOf : Answer → Option Ring
  | .next s => s.pmon
  | _ => none

/-- What an answer leaves of chain 0. -/
def chainOf0 : Answer → Option Chain
  | .next s => s.chains[0]?
  | _ => none

/-- The cursors and mirrors of a ring. -/
def cursors (r : Ring) : Nat × Bool × Nat × Bool := (r.ri.toNat, r.rm, r.wi.toNat, r.wm)

/-- An answer is a next state. -/
def isNext : Answer → Bool
  | .next _ => true
  | _ => false

theorem next_of_isNext {a : Answer} (h : isNext a = true) : ∃ t, a = .next t := by
  cases a with
  | next s => exact ⟨s, rfl⟩
  | _ => cases h

/-! ## Ill-formed instructions (each check of WellFormed) -/

theorem test_refuses_long_cmd_payload : ¬ WellFormed Ctx.atReset (.initCmd 0 0 0 (List.replicate 256 0)) := by
  decide
theorem test_refuses_long_ack_payload : ¬ WellFormed Ctx.atReset (.testAck 0 0 0 0 (List.replicate 256 0)) := by
  decide
theorem test_accepts_longest_payload : WellFormed Ctx.atReset (.initCmd 0 0 0 (List.replicate 255 0)) := by
  decide
theorem test_refuses_known_opcode_as_unknown : ¬ WellFormed Ctx.atReset (.unknownOpcodeCmd 0 0x0D 0 0 []) ∧
    ¬ WellFormed Ctx.atReset (.unknownOpcodeAck 0 0x04 0 0 0 []) := by decide
theorem test_refuses_row_of_other_mode : ¬ WellFormed Ctx.atReset (.rbPutPolling (.work 0) []) ∧
    ¬ WellFormed Ctx.atReset (.rbPutBlocking .pmon []) ∧
    ¬ WellFormed Ctx.atReset (.rbGetPolling (.nonce 2) 1) ∧
    ¬ WellFormed Ctx.atReset (.rbGetBlocking (.reg 3) 1) := by decide

/-! ## Words of every constructor -/

/-- The CMD rows: 55 AA, opcode, address 80, length 01, checksum, payload 10 (R57, R68). -/
theorem test_decode_cmd_rows :
    decode Ctx.atReset (.wire 1 [0x55, 0xAA, 0x00, 0x80, 0x01, 0x90, 0x10]) =
      .ok (.initCmd 1 0x80 0x90 [0x10]) ∧
    decode Ctx.atReset (.wire 1 [0x55, 0xAA, 0x01, 0x80, 0x01, 0x91, 0x10]) =
      .ok (.setNonceDiffCmd 1 0x80 0x91 [0x10]) ∧
    decode Ctx.atReset (.wire 1 [0x55, 0xAA, 0x02, 0x80, 0x01, 0x92, 0x10]) =
      .ok (.setSeedCmd 1 0x80 0x92 [0x10]) ∧
    decode Ctx.atReset (.wire 1 [0x55, 0xAA, 0x03, 0x80, 0x01, 0x93, 0x10]) =
      .ok (.setMessageCmd 1 0x80 0x93 [0x10]) ∧
    decode Ctx.atReset (.wire 1 [0x55, 0xAA, 0x04, 0x80, 0x01, 0x94, 0x10]) =
      .ok (.returnNonceCmd 1 0x80 0x94 [0x10]) ∧
    decode Ctx.atReset (.wire 1 [0x55, 0xAA, 0x05, 0x80, 0x01, 0x95, 0x10]) =
      .ok (.setNonceRegionCmd 1 0x80 0x95 [0x10]) ∧
    decode Ctx.atReset (.wire 1 [0x55, 0xAA, 0x06, 0x80, 0x01, 0x96, 0x10]) =
      .ok (.firmwareUpdateCmd 1 0x80 0x96 [0x10]) ∧
    decode Ctx.atReset (.wire 1 [0x55, 0xAA, 0x07, 0x80, 0x01, 0x97, 0x10]) =
      .ok (.firmwareUpdateEndCmd 1 0x80 0x97 [0x10]) ∧
    decode Ctx.atReset (.wire 1 [0x55, 0xAA, 0x08, 0x80, 0x01, 0x98, 0x10]) =
      .ok (.testCmd 1 0x80 0x98 [0x10]) ∧
    decode Ctx.atReset (.wire 1 [0x55, 0xAA, 0x09, 0x80, 0x01, 0x99, 0x10]) =
      .ok (.getBoardTempCmd 1 0x80 0x99 [0x10]) ∧
    decode Ctx.atReset (.wire 1 [0x55, 0xAA, 0x0A, 0x80, 0x01, 0x9A, 0x10]) =
      .ok (.getChipTempCmd 1 0x80 0x9A [0x10]) ∧
    decode Ctx.atReset (.wire 1 [0x55, 0xAA, 0x0B, 0x80, 0x01, 0x9B, 0x10]) =
      .ok (.readMemCmd 1 0x80 0x9B [0x10]) ∧
    decode Ctx.atReset (.wire 1 [0x55, 0xAA, 0x0C, 0x80, 0x01, 0x9C, 0x10]) =
      .ok (.writeMemCmd 1 0x80 0x9C [0x10]) ∧
    decode Ctx.atReset (.wire 1 [0x55, 0xAA, 0x0D, 0x80, 0x01, 0x9D, 0x10]) =
      .ok (.setChipAddressCmd 1 0x80 0x9D [0x10]) ∧
    decode Ctx.atReset (.wire 1 [0x55, 0xAA, 0x0E, 0x80, 0x00, 0x77]) =
      .ok (.unknownOpcodeCmd 1 0x0E 0x80 0x77 []) := by
  decide

/-- The ACK rows: AA 55, opcode, address 01, status 06, length 02, checksum, payload 12 34 (R58, R68). -/
theorem test_decode_ack_rows :
    decode Ctx.atReset (.wire 2 [0xAA, 0x55, 0x00, 0x01, 0x06, 0x02, 0x4E, 0x12, 0x34]) =
      .ok (.initAck 2 0x01 0x06 0x4E [0x12, 0x34]) ∧
    decode Ctx.atReset (.wire 2 [0xAA, 0x55, 0x01, 0x01, 0x06, 0x02, 0x4F, 0x12, 0x34]) =
      .ok (.setNonceDiffAck 2 0x01 0x06 0x4F [0x12, 0x34]) ∧
    decode Ctx.atReset (.wire 2 [0xAA, 0x55, 0x02, 0x01, 0x06, 0x02, 0x50, 0x12, 0x34]) =
      .ok (.setSeedAck 2 0x01 0x06 0x50 [0x12, 0x34]) ∧
    decode Ctx.atReset (.wire 2 [0xAA, 0x55, 0x03, 0x01, 0x06, 0x02, 0x51, 0x12, 0x34]) =
      .ok (.setMessageAck 2 0x01 0x06 0x51 [0x12, 0x34]) ∧
    decode Ctx.atReset (.wire 2 [0xAA, 0x55, 0x04, 0x01, 0x06, 0x02, 0x52, 0x12, 0x34]) =
      .ok (.returnNonceAck 2 0x01 0x06 0x52 [0x12, 0x34]) ∧
    decode Ctx.atReset (.wire 2 [0xAA, 0x55, 0x05, 0x01, 0x06, 0x02, 0x53, 0x12, 0x34]) =
      .ok (.setNonceRegionAck 2 0x01 0x06 0x53 [0x12, 0x34]) ∧
    decode Ctx.atReset (.wire 2 [0xAA, 0x55, 0x06, 0x01, 0x06, 0x02, 0x54, 0x12, 0x34]) =
      .ok (.firmwareUpdateAck 2 0x01 0x06 0x54 [0x12, 0x34]) ∧
    decode Ctx.atReset (.wire 2 [0xAA, 0x55, 0x07, 0x01, 0x06, 0x02, 0x55, 0x12, 0x34]) =
      .ok (.firmwareUpdateEndAck 2 0x01 0x06 0x55 [0x12, 0x34]) ∧
    decode Ctx.atReset (.wire 2 [0xAA, 0x55, 0x08, 0x01, 0x06, 0x02, 0x56, 0x12, 0x34]) =
      .ok (.testAck 2 0x01 0x06 0x56 [0x12, 0x34]) ∧
    decode Ctx.atReset (.wire 2 [0xAA, 0x55, 0x09, 0x01, 0x06, 0x02, 0x57, 0x12, 0x34]) =
      .ok (.getBoardTempAck 2 0x01 0x06 0x57 [0x12, 0x34]) ∧
    decode Ctx.atReset (.wire 2 [0xAA, 0x55, 0x0A, 0x01, 0x06, 0x02, 0x58, 0x12, 0x34]) =
      .ok (.getChipTempAck 2 0x01 0x06 0x58 [0x12, 0x34]) ∧
    decode Ctx.atReset (.wire 2 [0xAA, 0x55, 0x0B, 0x01, 0x06, 0x02, 0x59, 0x12, 0x34]) =
      .ok (.readMemAck 2 0x01 0x06 0x59 [0x12, 0x34]) ∧
    decode Ctx.atReset (.wire 2 [0xAA, 0x55, 0x0C, 0x01, 0x06, 0x02, 0x5A, 0x12, 0x34]) =
      .ok (.writeMemAck 2 0x01 0x06 0x5A [0x12, 0x34]) ∧
    decode Ctx.atReset (.wire 2 [0xAA, 0x55, 0x0D, 0x01, 0x06, 0x02, 0x5B, 0x12, 0x34]) =
      .ok (.setChipAddressAck 2 0x01 0x06 0x5B [0x12, 0x34]) ∧
    decode Ctx.atReset (.wire 2 [0xAA, 0x55, 0xFF, 0x01, 0x06, 0x00, 0x77]) =
      .ok (.unknownOpcodeAck 2 0xFF 0x01 0x06 0x77 []) := by
  decide

/-- The selectors of R72 with their operands. -/
theorem test_decode_operations :
    decode Ctx.atReset (.op 0x0 [.ring (.nonce 1), .nat 64, .mode .blocking]) = .ok (.rbInit (.nonce 1) 64 .blocking) ∧
    decode Ctx.atReset (.op 0x1 [.ring (.nonce 3), .bytes [7]]) = .ok (.rbPutPolling (.nonce 3) [7]) ∧
    decode Ctx.atReset (.op 0x1 [.ring (.dl 2), .bytes [7]]) = .ok (.rbPutBlocking (.dl 2) [7]) ∧
    decode Ctx.atReset (.op 0x2 [.ring .pmon, .nat 5]) = .ok (.rbGetPolling .pmon 5) ∧
    decode Ctx.atReset (.op 0x2 [.ring (.reg 1), .nat 5]) = .ok (.rbGetBlocking (.reg 1) 5) ∧
    decode Ctx.atReset (.op 0x3 [.ring (.reg 0), .bytes [1, 2]]) = .ok (.rbPutForce (.reg 0) [1, 2]) ∧
    decode Ctx.atReset (.op 0x4 [.ring (.work 0)]) = .ok (.rbDataLen (.work 0)) ∧
    decode Ctx.atReset (.op 0x5 [.ring (.work 1)]) = .ok (.rbSpaceLen (.work 1)) ∧
    decode Ctx.atReset (.op 0x6 [.ring (.dl 0)]) = .ok (.rbStatus (.dl 0)) ∧
    decode Ctx.atReset (.op 0x7 [.ring .pmon]) = .ok (.rbShutdown .pmon) ∧
    decode Ctx.atReset (.op 0x8 [.byte 1, .byte 0x80, .bytes [0x10]]) = .ok (.fcPack 1 0x80 [0x10]) ∧
    decode Ctx.atReset (.op 0x9 [.bytes [0, 0, 0x0C, 5, 0, 0, 1]]) = .ok (.fcStamp [0, 0, 0x0C, 5, 0, 0, 1]) ∧
    decode Ctx.atReset (.op 0xA [.chain 1, .bytes [0xAA]]) = .ok (.psRx 1 [0xAA]) ∧
    decode Ctx.atReset (.op 0xB [.chain 2]) = .ok (.psReset 2) ∧
    decode Ctx.atReset (.op 0xC [.chain 0]) = .ok (.psWant 0) ∧
    decode Ctx.atReset (.op 0xD [.fmt .cmd, .bytes [0x55]]) = .ok (.fcParse .cmd [0x55]) ∧
    decode Ctx.atReset (.op 0xE [.chain 1]) = .ok (.dspStep 1) ∧
    decode Ctx.atReset (.op 0xF [.chain 1, .which .dl]) = .ok (.txStep 1 .dl) := by
  decide

/-- What is no instruction is refused by name. -/
theorem test_decode_refuses :
    decode Ctx.atReset (.wire 0 [0x55]) = .error .truncatedHeader ∧
    decode Ctx.atReset (.wire 0 [0x55, 0x55, 0x01, 0x80, 0x00, 0x80]) = .error .badPreamble ∧
    decode Ctx.atReset (.wire 0 [0x55, 0xAA, 0x01, 0x80, 0x02, 0x91, 0x10]) = .error .lengthMismatch ∧
    decode Ctx.atReset (.op 0x0 [.ring .pmon]) = .error (.wrongOperands 0x0) := by
  decide

/-! ## Single steps from the vectors of 95_test_vectors.md -/

/-- T-RB-4. -/
theorem test_init_rounds_down :
    (pmonOf (exec (.rbInit .pmon 18 .polling) (State.blank Config.params []))).map Ring.size = some 16 ∧
    (pmonOf (exec (.rbInit .pmon 32767 .polling) (State.blank Config.params []))).map Ring.size =
      some 32764 := by decide
theorem test_init_refuses :
    exec (.rbInit .pmon 3 .polling) (State.blank Config.params []) = .refused .badSize ∧
    exec (.rbInit .pmon 32768 .polling) (State.blank Config.params []) = .refused .badSize := by
  exact ⟨rfl, rfl⟩

/-- T-RB-1, second put: six of ten bytes fit, the write index lands on the end. -/
theorem test_polling_put_takes_six :
    let a := exec (.rbPutPolling .pmon ten) (withRing (ring16 .polling ten))
    told a = some (.count 6, .none) ∧ (pmonOf a).map cursors = some (0, false, 0, true) := by decide
/-- T-RB-5: ten more bytes do not fit, and the put is held. -/
theorem test_blocking_put_is_held :
    pmonOf (exec (.rbPutBlocking .pmon ten) (withRing (ring16 .blocking ten))) =
      some { ring16 .blocking ten with pending := [.put (.host 0) ten] } := by decide
/-- T-RB-1: the get that is split at the end of the array. -/
theorem test_polling_get_splits :
    let r : Ring := { ring16 .polling (ten ++ [0x10, 0x11, 0x12, 0x13, 0x14, 0x15]) with
      ri := 4, wi := 4, wm := true }
    let a := exec (.rbGetPolling .pmon 14) (withRing r)
    told a = some (.data [4, 5, 6, 7, 8, 9, 0x10, 0x11, 0x12, 0x13, 0x14, 0x15, 0, 1], .none) ∧
      (pmonOf a).map cursors = some (2, true, 4, true) := by decide
/-- T-RB-5: four bytes of ten. -/
theorem test_blocking_get_takes_four :
    let a := exec (.rbGetBlocking .pmon 4) (withRing (ring16 .blocking ten))
    told a = some (.data [0, 1, 2, 3], .none) ∧ (pmonOf a).map cursors = some (4, false, 10, false) := by
  decide
/-- T-RB-6: a forced put of four bytes into two. -/
theorem test_force_overflows :
    let a := exec (.rbPutForce .pmon [7, 8, 9, 10]) (withRing (ring8 .blocking [1, 2, 3, 4, 5, 6]))
    (pmonOf a).map cursors = some (2, false, 2, true) ∧
      (pmonOf a).map Ring.content = some [some 3, some 4, some 5, some 6, some 7, some 8, some 9, some 10] := by
  decide
/-- T-RB-6: exactly `SPACE_LEN` bytes are no overflow; more than `SIZE` are refused. -/
theorem test_force_fits_or_refuses :
    (pmonOf (exec (.rbPutForce .pmon [7, 8]) (withRing (ring8 .blocking [1, 2, 3, 4, 5, 6])))).map cursors =
      some (0, false, 0, true) ∧
    told (exec (.rbPutForce .pmon ten) (withRing (ring8 .blocking []))) = none := by decide
/-- T-RB-1: what the reads tell of a ring with ten bytes of sixteen. -/
theorem test_status_reads :
    told (exec (.rbDataLen .pmon) (withRing (ring16 .polling ten))) = some (.count 10, .none) ∧
    told (exec (.rbSpaceLen .pmon) (withRing (ring16 .polling ten))) = some (.count 6, .none) ∧
    told (exec (.rbStatus .pmon) (withRing (ring16 .polling ten))) = some (.status .partly, .none) ∧
    told (exec (.rbStatus .pmon) (withRing (Ring.fresh 16 .polling))) = some (.status .empty, .none) ∧
    told (exec (.rbStatus .pmon) (withRing { Ring.fresh 16 .polling with wm := true })) =
      some (.status .full, .none) := by decide
/-- T-RB-5: shutdown releases the held get with no bytes. -/
theorem test_shutdown_releases :
    let a := exec (.rbShutdown .pmon) (withRing { Ring.fresh 16 .blocking with pending := [.get (.host 1) 1] })
    told a = some (.data [], .cancelled) ∧ pmonOf a = some { Ring.fresh 16 .blocking with shut := true } := by
  decide
/-- T-FC-4: the sum carries out of eight bits. -/
theorem test_pack : told (exec (.fcPack 0x03 0xFF [0xA1, 0xA2, 0xA3]) (withRing (ring16 .polling []))) =
    some (.frame [0x55, 0xAA, 0x03, 0xFF, 0x03, 0xEA, 0xA1, 0xA2, 0xA3], .none) := by decide
/-- T-FC-10: wrong preamble, length and checksum are rewritten. -/
theorem test_stamp : told (exec (.fcStamp [0x11, 0x22, 0x03, 0x07, 0x09, 0x99, 0xAA, 0x55])
    (withRing (ring16 .polling []))) =
    some (.frame [0x55, 0xAA, 0x03, 0x07, 0x02, 0x0A, 0xAA, 0x55], .none) := by decide
/-- T-PS-5: the second AA is dropped together with the first. -/
theorem test_rx_drops_stray_preamble :
    let a := exec (.psRx 0 [0xAA]) (withChain (chainWith (parserAt .ack .p2 [0xAA]) [0xAA, 0x55]))
    (chainOf0 a).map (fun ch => (ch.parser.ps, ch.parser.acc, ch.rxs)) = some (.p1, 0, [0x55]) := by
  decide
/-- T-PS-6: the checksum does not match. -/
theorem test_rx_counts_bad_checksum :
    let a := exec (.psRx 0 [0x10, 0x21]) (withChain (chainWith
      (parserAt .ack .body [0xAA, 0x55, 0x0B, 0x80, 0x00, 0x02, 0xBC]) [0x10, 0x21]))
    told a = some (.none, .cksum) ∧ (chainOf0 a).map (fun ch => ch.parser.protoErr) = some 1 := by decide
/-- T-PS-14. -/
theorem test_reset_from_body :
    (chainOf0 (exec (.psReset 0) (withChain (chainWith (parserAt .ack .body headA1) [])))).map
      (fun ch => (ch.parser.ps, ch.parser.acc)) = some (.p1, 0) := by decide
theorem test_want_by_state :
    told (exec (.psWant 0) (withChain (chainWith (parserAt .cmd .hdr [0x55, 0xAA]) []))) =
      some (.count 4, .none) ∧
    told (exec (.psWant 0) (withChain (chainWith (parserAt .ack .body headA1) []))) =
      some (.count 4, .none) := by decide
/-- L1-7; T-CK-3. -/
theorem test_parse : told (exec (.fcParse .cmd [0x55, 0xAA, 0x01, 0x80, 0x01, 0x91, 0x10])
    (withRing (ring16 .polling []))) =
    some (.frames [(.regack, [0x55, 0xAA, 0x01, 0x80, 0x01, 0x91, 0x10])], .none) := by decide
/-- P2, step 6: the payload completes A1, and the record goes to the nonce ring. -/
theorem test_dsp_routes_nonce :
    let a := exec (.dspStep 0) (withChain (chainWith (parserAt .ack .body headA1) [0xDE, 0xAD, 0xBE, 0xEF]))
    told a = some (.count 12, .none) ∧
      (chainOf0 a).map (fun ch => ch.nonce.map Ring.content) =
        some (some ((headA1 ++ [0xDE, 0xAD, 0xBE, 0xEF, 0x02]).map some)) := by decide
/-- P3, step 3: the raw image is stamped and sent. -/
theorem test_tx_sends :
    let ch : Chain := { chainWith (Parser.fresh .ack 2) [] with
      work := some (ring16 .blocking [0x00, 0x00, 0x0C, 0x05, 0x00, 0x00, 0x01, 0x02, 0x03]) }
    (chainOf0 (exec (.txStep 0 .work) (withChain ch))).map Chain.txs =
      some [0x55, 0xAA, 0x0C, 0x05, 0x03, 0x19, 0x01, 0x02, 0x03] := by decide
/-- T-EV-6: the transport takes four bytes, and the caller is told. -/
theorem test_tx_fails :
    let ch : Chain := { chainWith (Parser.fresh .ack 2) [] with
      work := some (ring16 .blocking [0x00, 0x00, 0x0C, 0x05, 0x00, 0x00, 0x01, 0x02, 0x03])
      sendAnswers := [some 4] }
    let a := exec (.txStep 0 .work) (withChain ch)
    told a = some (.none, .txFail 4) ∧ (chainOf0 a).map Chain.txs = some [0x55, 0xAA, 0x0C, 0x05] := by
  decide
/-- Every CMD row, with an empty payload, address 01 and `sum8`, which is the opcode byte (as in T-PS-3): the record, with the
identity byte 02, reaches the nonce ring for `return-nonce` and the register ring otherwise. -/
theorem test_cmd_rows_route : ∀ n ∈ OpName.all,
    let op := Config.defaultOpMap.byteOf n
    let a := exec (Instr.cmd n 0 0x01 op []) (withChain (chainWith (Parser.fresh .cmd 2) []))
    (chainOf0 a).map (fun ch => (ch.nonce.map Ring.content, ch.reg.map Ring.content)) =
      let record := [0x55, 0xAA, op, 0x01, 0x00, op, 0x02].map some
      some (if op = 0x04 then (some record, some []) else (some [], some record)) := by decide
/-- The same of every ACK row. -/
theorem test_ack_rows_route : ∀ n ∈ OpName.all,
    let op := Config.defaultOpMap.byteOf n
    let a := exec (Instr.ack n 0 0x01 0x00 op []) (withChain (chainWith (Parser.fresh .ack 2) []))
    (chainOf0 a).map (fun ch => (ch.nonce.map Ring.content, ch.reg.map Ring.content)) =
      let record := [0xAA, 0x55, op, 0x01, 0x00, 0x00, op, 0x02].map some
      some (if op = 0x04 then (some record, some []) else (some [], some record)) := by decide
/-- T-PS-7, and the same in the CMD format: an unknown opcode reaches no ring. -/
theorem test_unknown_opcode :
    told (exec (.unknownOpcodeAck 0 0x7E 0x01 0x00 0x80 [0x01]) (withChain (chainWith (Parser.fresh .ack 2) []))) =
      some (.none, .unknownOpcode [0xAA, 0x55, 0x7E, 0x01, 0x00, 0x01, 0x80, 0x01]) ∧
    told (exec (.unknownOpcodeCmd 0 0x7E 0x01 0x7E []) (withChain (chainWith (Parser.fresh .cmd 2) []))) =
      some (.none, .unknownOpcode [0x55, 0xAA, 0x7E, 0x01, 0x00, 0x7E]) := by decide
/-- T-EV-4: a bad checksum and an unknown opcode together are a bad checksum. -/
theorem test_checksum_comes_first :
    told (exec (.unknownOpcodeAck 0 0x7E 0x01 0x00 0x81 [0x01]) (withChain (chainWith (Parser.fresh .ack 2) []))) =
      some (.none, .cksum) := by decide
/-- A table word placed where the machine fetches is run by the next step. -/
theorem test_fetch_word :
    isNext (step (State.reset.withFetchWord 24 0xAA5504)) = true ∧
    isNext (step (State.reset.withFetchWord 8 0xC)) = true := by decide

/-! ## The hypotheses of the obligations are met -/

/-- A1 of the vectors: the frame `headA1` begins, whole. -/
def frameA1 : List Byte := headA1 ++ [0xDE, 0xAD, 0xBE, 0xEF]

/-- The turns that are left, and what the operations told of have moved. -/
def told2 : Answer → Option (List Turn × List Moved)
  | .next s => some (s.turns, s.replies.map Reply.moved)
  | _ => none

/-- A ring of 16 bytes with ten held and one request waiting. -/
def ringHolding (h : Held) : Ring := { ring16 .blocking ten with pending := [h] }

/-- The state of `ringHolding` when the held request is about to be looked at. -/
def lookAt (r : Ring) : State := { withRing r with turns := [.resume .pmon 0] }

/-- A chain whose work ring holds an image of nine bytes. -/
def chainToSend (answers : List (Option Nat)) : Chain :=
  { chainWith (Parser.fresh .ack 2) [] with
    work := some (ring16 .blocking [0x00, 0x00, 0x0C, 0x05, 0x00, 0x00, 0x01, 0x02, 0x03])
    sendAnswers := answers }

/-- A chain that was not started: its transport failed to open. -/
def abortedChain : Chain := { Chain.blank 2 with aborted := true }

/-- A chain that has been shut down, with a byte on its stream. -/
def shutChain : Chain :=
  let shut : Ring := { Ring.fresh 16 .blocking with shut := true }
  { chainWith (Parser.fresh .ack 2) [0xAA] with
    nonce := some shut, reg := some shut, work := some shut, dl := some shut }

/-- The configuration at reset, but for the frame length of the work ring, what `PMON_RING` is asked for, and whether the transport
of chain 2 opens. -/
def bootWith (workFrameLen pmonReq : Nat) (opens : Bool) : BootConfig :=
  { Config.boot with
    params := { Config.params with workFrameLen := workFrameLen }
    chains := [Config.chain 0, Config.chain 1, { Config.chain 2 with opens := opens }]
    pmonReq := pmonReq }

/-- A chain whose RX agent has a put held. -/
def chainHolding : Chain :=
  { chainWith (Parser.fresh .ack 2) [] with
    reg := some { Ring.fresh 16 .blocking with pending := [.put (.rx 0) ten] } }

theorem test_witness_DecodeOfEncodeIsTheInstruction : Ctx.atReset.opmap.Injective ∧
    WellFormed Ctx.atReset (.writeMemAck 0 1 2 3 (List.replicate 255 0)) ∧
    WellFormed Ctx.atReset (.unknownOpcodeCmd 0 0x0E 0 0 []) ∧
    WellFormed Ctx.atReset (.rbPutBlocking (.work 0) []) ∧ WellFormed Ctx.atReset (.rbGetPolling .pmon 0) := by
  decide
theorem test_witness_EncodeOfDecodeIsTheLine :
    decode Ctx.atReset (.wire 0 ([0x55, 0xAA, 0x0E, 0x00, 0xFF, 0x00] ++ List.replicate 255 0x00)) =
      .ok (.unknownOpcodeCmd 0 0x0E 0x00 0x00 (List.replicate 255 0x00)) := by decide
theorem test_witness_StepRunsTheDecodedInstruction :
    let s := { State.reset with turns := [.request (.rx 1) (.op 0xE [.chain 1])] }
    let u := { State.reset with turns := [.request (.host 1) (.op 0xE [])] }
    let v := { State.reset with turns := [.request (.host 1) (.wire 0 [0xAA])] }
    let a := { withChain abortedChain with turns := [.arrive 0 [0xAA]] }
    (s.turns = .request (.rx 1) (.op 0xE [.chain 1]) :: [] ∧
      decode s.ctx (.op 0xE [.chain 1]) = .ok (.dspStep 1)) ∧
    (u.turns = .request (.host 1) (.op 0xE []) :: [] ∧
      decode u.ctx (.op 0xE []) = .error (.wrongOperands 0xE)) ∧
    (v.turns = .request (.host 1) (.wire 0 [0xAA]) :: [] ∧
      decode v.ctx (.wire 0 [0xAA]) = .error .truncatedHeader) ∧
    ((State.reset.chains[2]?).map Chain.aborted = some false ∧ State.reset.chains[3]? = none ∧
      a.turns = .arrive 0 [0xAA] :: [] ∧ a.chains[0]? = some abortedChain ∧ abortedChain.aborted = true) ∧
    (∀ r ∈ State.reset.ring? (.work 0), r.pending[0]? = none) ∧ State.reset.turns = [] := by decide
theorem test_witness_InitialisationFillsTheResetTable :
    (∃ s, initialise (bootWith 9 526 false) = .next s) ∧
    ((bootWith 9 526 false).chains[2]?).map ChainConfig.opens = some false ∧
    ((bootWith 9 526 false).chains[1]?).map ChainConfig.opens = some true :=
  ⟨next_of_isNext (by decide), rfl, rfl⟩
theorem test_witness_InitialisationStartsExactlyWhen :
    (∀ n ∈ [6, 261], (bootWith n 4 false).params.WellTyped ∧ (bootWith n 4 false).chains ≠ [] ∧
      FrameLengthOk n ∧ FrameLengthOk (bootWith n 4 false).params.dlFrameLen ∧
      1 ≤ n * 2 / 4 * 4 ∧ n * 2 / 4 * 4 ≤ 32767) ∧
    (1 ≤ 4 / 4 * 4 ∧ 32767 / 4 * 4 ≤ 32767) ∧ (¬ 1 ≤ 3 / 4 * 4 ∧ ¬ 32768 / 4 * 4 ≤ 32767) ∧
    (¬ FrameLengthOk 5 ∧ ¬ FrameLengthOk 262) ∧
    ¬ ({ Config.params with cntW := 0 } : Params).WellTyped ∧
    ¬ ({ Config.params with opmap := { Config.defaultOpMap with init := 0x04 } } : Params).WellTyped ∧
    ¬ ({ Config.params with opmap := { Config.defaultOpMap with setNonceDiff := 0x04, returnNonce := 0x01 } } :
      Params).WellTyped := by decide
/-- The initialisation on the boundary values of the ring size and of the frame length, and with a transport that fails. -/
theorem test_initialise_answers :
    isNext (initialise (bootWith 6 4 true)) = true ∧ isNext (initialise (bootWith 261 32767 false)) = true ∧
    isNext (initialise (bootWith 9 3 true)) = false ∧ isNext (initialise (bootWith 5 526 true)) = false ∧
    isNext (initialise (bootWith 262 526 true)) = false := by decide
theorem test_witness_StepKeepsTheInvariant : State.reset.Wf ∧ ∃ t, step State.reset = .next t :=
  ⟨by decide, _, rfl⟩
theorem test_witness_InvariantMeansNoFault : State.reset.Wf := by decide
theorem test_witness_StepKeepsTheConfiguration : (∃ t, step State.reset = .next t) ∧
    (State.reset.ring? (.work 2)).isSome ∧ (State.reset.chains[2]?).isSome := ⟨⟨_, rfl⟩, by decide⟩
theorem test_witness_OneWayStateNeverGoesBack :
    let r : Ring := { Ring.fresh 16 .polling with shut := true }
    let ch : Chain := { shutChain with rxStopped := true, workStopped := true, dlStopped := true }
    let s := { withChain ch with pmon := some r }
    (∃ t, step s = .next t) ∧ s.ring? .pmon = some r ∧ r.shut = true ∧ s.chains[0]? = some ch ∧
      ch.rxStopped = true ∧ ch.workStopped = true ∧ ch.dlStopped = true ∧ ch.shutDown = true :=
  ⟨⟨_, rfl⟩, rfl, rfl, rfl, rfl, rfl, rfl, rfl⟩
theorem test_witness_ErrorCounterSaturates :
    let full : Parser := { Parser.fresh .ack 2 with protoErr := 2 ^ 32 - 1 }
    let s := withChain (chainWith full [])
    (∃ t, step s = .next t) ∧ s.chains[0]? = some (chainWith full []) ∧
      ((Parser.fresh .ack 2).protoErr < 2 ^ Config.params.cntW ∧
        full.protoErrShown Config.params = 2 ^ Config.params.cntW - 1) :=
  ⟨⟨_, rfl⟩, rfl, by decide, by decide⟩
theorem test_witness_NothingIsHeldAfterShutdown : State.reset.Quiet ∧ ∃ t, step State.reset = .next t := by
  refine ⟨fun rb r h hs => ?_, _, rfl⟩
  exfalso
  cases rb with
  | pmon => cases h; cases hs
  | nonce c | reg c | work c | dl c =>
    match c, h with
    | 0, h | 1, h | 2, h => cases h; cases hs
    | n + 3, h => cases h
theorem test_witness_StepKeepsTheSetOfInstances :
    let s := { withChain abortedChain with pmon := some (Ring.fresh 16 .polling) }
    (State.reset.Complete ∧ (∃ t, step State.reset = .next t)) ∧
    s.Complete ∧ (∃ t, step s = .next t) ∧ s.chains[0]? = some abortedChain ∧ abortedChain.aborted = true :=
  ⟨⟨by decide, _, rfl⟩, by decide, ⟨_, rfl⟩, rfl, rfl⟩
theorem test_witness_ChainsAreIndependent : State.reset.Wf ∧
    (∃ t, exec (.dspStep 0) State.reset = .next t) ∧ place (.dspStep 0) ≠ some (some 1) ∧
    (State.reset.chains[1]?).isSome ∧ place (.dspStep 0) ≠ some none :=
  ⟨by decide, next_of_isNext (by decide), by decide⟩
theorem test_witness_OperationsReadOnlyTheirPlace :
    let ch := chainWith (Parser.fresh .ack 2) [0xAA]
    let s : State := { withChain ch with chains := [ch, shutChain], pmon := none }
    let s' : State := { withChain ch with chains := [ch, abortedChain], pmon := some (Ring.fresh 16 .polling) }
    s.Wf ∧ AgreeAt (place (.dspStep 0)) s s' ∧ s ≠ s' ∧ ∃ t, exec (.dspStep 0) s = .next t :=
  ⟨by decide, ⟨rfl, rfl, rfl, rfl, rfl, rfl, fun c h => by cases h; rfl, fun h => by cases h⟩,
    by decide, next_of_isNext (by decide)⟩
theorem test_witness_SettingAnInstanceLeavesTheRest :
    State.reset.named (.dl 2) = true ∧ State.reset.named .pmon = true := by decide
theorem test_witness_CancelledAgentsStop : (State.reset.chains[2]?).isSome := by decide
theorem test_witness_RbInitMakesAnEmptyInstance :
    (∀ rb ∈ [RingId.pmon, .work 0], (State.blank Config.params [7]).named rb = true ∧
      (State.blank Config.params [7]).abortedAt rb = false ∧ (State.blank Config.params [7]).ring? rb = none) ∧
    Config.params.rbAlign = 4 ∧ (1 ≤ 4 / 4 * 4 ∧ 32767 / 4 * 4 ≤ 32767) ∧
    (3 / 4 * 4 = 0 ∨ 32767 < 3 / 4 * 4) ∧ (32768 / 4 * 4 = 0 ∨ 32767 < 32768 / 4 * 4) := by decide
theorem test_witness_RbInitRefusals :
    let s := State.blank Config.params [7]
    (s.named .pmon = true ∧ s.abortedAt .pmon = false ∧ s.ring? .pmon = none ∧ 3 < s.params.rbAlign ∧
      32767 < 32768 / s.params.rbAlign * s.params.rbAlign) ∧
    State.reset.named (.nonce 0) = true ∧ State.reset.abortedAt (.nonce 0) = false ∧
    (State.reset.ring? (.nonce 0)).isSome := by decide
theorem test_witness_OperationsNeedTheirInstance :
    let s := State.blank Config.params [7]
    let a := withChain abortedChain
    (s.ring? .pmon = none ∧ s.named .pmon = true ∧ s.ring? (.work 1) = none ∧ s.named (.work 1) = false) ∧
    (a.named (.dl 0) = true ∧ a.abortedAt (.dl 0) = true) ∧ s.chains[1]? = none ∧
    (a.chains[0]? = some abortedChain ∧ abortedChain.aborted = true) ∧
    (s.chains[0]? = some (Chain.blank 7) ∧ (Chain.blank 7).aborted = false ∧
      (Chain.blank 7).parser.ready = false) := by decide
/-- On a chain that was not started nothing completes. -/
theorem test_aborted_chain_refuses : ∀ i ∈ [Instr.psReset 0, .psRx 0 [0xAA], .dspStep 0, .txStep 0 .work,
    .initAck 0 0x01 0x00 0x00 [], .rbInit (.work 0) 16 .blocking, .rbPutBlocking (.work 0) [1]],
    isNext (exec i (withChain abortedChain)) = false := by decide
theorem test_witness_PollingPutStoresWhatFits :
    (withRing (ring16 .polling ten)).ring? .pmon = some (ring16 .polling ten) ∧
    (ring16 .polling ten).Wf ∧ (ring16 .polling ten).mode = .polling := by decide
theorem test_witness_BlockingPutIsAllOrNothing :
    let r := ring16 .blocking ten
    let shut : Ring := { r with shut := true }
    ((withRing r).ring? .pmon = some r ∧ r.Wf ∧ r.mode = .blocking ∧ r.spaceLen = 6 ∧ r.shut = false) ∧
    ((withRing shut).ring? .pmon = some shut ∧ shut.Wf ∧ shut.mode = .blocking ∧ shut.spaceLen = 6 ∧
      shut.shut = true) ∧ [1, 2, 3, 4, 5, 6].length ≤ r.spaceLen ∧ r.spaceLen < [1, 2, 3, 4, 5, 6, 7].length := by
  decide
theorem test_witness_PollingGetReturnsWhatIsThere :
    (withRing (ring16 .polling ten)).ring? .pmon = some (ring16 .polling ten) ∧
    (ring16 .polling ten).Wf ∧ (ring16 .polling ten).mode = .polling := by decide
theorem test_witness_BlockingGetIsAllOrNothing :
    let r := ring16 .blocking ten
    let shut : Ring := { r with shut := true }
    ((withRing r).ring? .pmon = some r ∧ r.Wf ∧ r.mode = .blocking ∧ 10 ≤ r.dataLen ∧ r.dataLen < 11 ∧
      r.shut = false) ∧
    (withRing shut).ring? .pmon = some shut ∧ shut.Wf ∧ shut.mode = .blocking ∧ shut.dataLen < 11 ∧
      shut.shut = true := by decide
theorem test_witness_ForcedPutKeepsTheNewest :
    let r := ring8 .blocking [1, 2, 3, 4, 5, 6]
    (withRing r).ring? .pmon = some r ∧ r.Wf ∧ [7, 8].length ≤ r.spaceLen ∧
    (r.spaceLen < [7, 8, 9].length ∧ ten.length - 2 ≤ r.size) ∧ r.size < (ten.take 9).length := by decide
theorem test_witness_StatusReadsTellTheCursors :
    ∀ r ∈ [Ring.fresh 16 .polling, ring16 .polling ten, ring8 .polling [1, 2, 3, 4, 5, 6]],
      (withRing r).ring? .pmon = some r ∧ r.Wf := by decide
theorem test_witness_DataLenUnfoldsByCases :
    (Ring.fresh 16 .polling).Wf ∧ (ring16 .polling ten).Wf ∧ (Ring.fresh 32767 .blocking).Wf := by decide
theorem test_witness_RejectedRemainderStoresNothing :
    let s := withRing (ring16 .polling ten)
    s.ring? .pmon = some (ring16 .polling ten) ∧ (ring16 .polling ten).Wf ∧
    (ring16 .polling ten).mode = .polling ∧ ∃ t, exec (.rbPutPolling .pmon ten) s = .next t :=
  ⟨rfl, by decide, rfl, next_of_isNext (by decide)⟩
theorem test_witness_BytesComeOutInTheOrderTheyWentIn :
    let r := ringHolding (.put (.host 1) ten)
    let s := { withRing r with turns := [.request (.host 2) (.op 0x2 [.ring .pmon, .nat 4]), .resume .pmon 0] }
    s.Wf ∧ s.ring? .pmon = some r ∧ ∃ t, Runs s t ∧ t.turns = [] ∧
      t.replies.map Reply.moved = [.put .pmon ten, .got .pmon [0, 1, 2, 3]] ∧
      ∀ m ∈ t.replies.map Reply.moved, m.unforced .pmon = true := by
  let r := ringHolding (.put (.host 1) ten)
  let s := { withRing r with turns := [.request (.host 2) (.op 0x2 [.ring .pmon, .nat 4]), .resume .pmon 0] }
  have h1 : isNext (step s) = true := by decide
  obtain ⟨u, hu⟩ := next_of_isNext h1
  have h2 : isNext (Answer.andThen (step s) step) = true := by decide
  obtain ⟨t, ht⟩ := next_of_isNext h2
  have both : told2 (Answer.andThen (step s) step) = some ([], [.put .pmon ten, .got .pmon [0, 1, 2, 3]]) := by decide
  rw [ht] at both
  rw [hu] at ht
  injection both with both
  injection both with e1 e2
  refine ⟨by decide, rfl, t, .more (.more .here hu) ht, e1, e2, ?_⟩
  rw [e2]; decide
theorem test_witness_ShutdownReleasesEveryHold :
    (State.reset.Wf ∧ (State.reset.ring? (.work 0)).isSome ∧ State.reset.abortedAt (.work 0) = false ∧
      FrameLengthOk State.reset.params.workFrameLen ∧
      FrameLengthOk State.reset.params.dlFrameLen) ∧
    (let r := ringHolding (.get (.host 1) 11);
      (withRing r).ring? .pmon = some r ∧ r.HeldInPlace .pmon ∧
        ∀ h ∈ r.pending, h.met (frameLen Config.params) r = false) ∧
    (let r : Ring := { ring16 .blocking ten with shut := true };
      (withRing r).ring? .pmon = some r ∧ r.shut = true ∧ r.pending = []) := by decide
theorem test_witness_ChainShutdownHaltsItsAgents :
    let names : List RingId := [.nonce 1, .reg 1, .work 1, .dl 1]
    (State.reset.Wf ∧ (∀ ch ∈ State.reset.chains[1]?, ch.aborted = false ∧ ch.parser.ready = true ∧
      ch.nonce.isSome ∧ ch.reg.isSome ∧ ch.work.isSome ∧ ch.dl.isSome) ∧ (State.reset.chains[1]?).isSome ∧
      FrameLengthOk State.reset.params.workFrameLen ∧ FrameLengthOk State.reset.params.dlFrameLen) ∧
    names.reverse.Perm names ∧
    isNext (execAll (names.reverse.map Instr.rbShutdown) State.reset) = true ∧ ∀ t, Runs t t :=
  ⟨by decide, List.reverse_perm _, by decide, fun _ => .here⟩
/-- After it, a frame on the chain's link stays on the stream, and a frame image in the work ring is not sent. -/
theorem test_shut_chain_is_halted :
    (chainOf0 (exec (.initAck 0 0x01 0x00 0x00 []) (withChain shutChain))).map (fun ch => ch.rxs.length) = some 8 ∧
    (chainOf0 (exec (.txStep 0 .work) (withChain { shutChain with
      work := some { ring16 .blocking ten with shut := true } }))).map Chain.txs = some [] := by decide
theorem test_witness_HeldRequestsGoOnWhenTheyCan :
    (∀ h ∈ [Held.put (.host 1) [1, 2, 3, 4, 5, 6], .get (.host 1) 10, .put (.host 1) [1, 2, 3, 4, 5, 6, 7],
        .get (.rx 0) 11],
      (lookAt (ringHolding h)).turns = .resume .pmon 0 :: [] ∧
      (lookAt (ringHolding h)).ring? .pmon = some (ringHolding h) ∧ (ringHolding h).Wf ∧
      (ringHolding h).pending[0]? = some h ∧ (ringHolding h).spaceLen = 6 ∧ (ringHolding h).dataLen = 10 ∧
      (ringHolding h).shut = false) ∧
    (Held.put (.host 1) [1, 2, 3, 4, 5, 6, 7]).met (frameLen Config.params)
      (ringHolding (.put (.host 1) [1, 2, 3, 4, 5, 6, 7])) = false ∧
    (∀ h ∈ [Held.put (.host 1) [1, 2, 3, 4, 5, 6, 7], .get (.rx 0) 11],
      let r : Ring := { ringHolding h with shut := true }
      (lookAt r).ring? .pmon = some r ∧ r.Wf ∧ r.pending[0]? = some h ∧ r.spaceLen = 6 ∧ r.dataLen = 10 ∧
        r.shut = true) ∧
    (∀ r ∈ [ring16 .blocking (ten.take 9), { ring16 .blocking (ten.take 8) with shut := true }],
      let held : Ring := { r with pending := [.txGet 0 .dl] }
      let ch : Chain := { chainWith (Parser.fresh .ack 2) [] with dl := some held }
      let s := { withChain ch with turns := [.resume (.dl 0) 0] }
      s.turns = .resume (outRing .dl 0) 0 :: [] ∧ s.ring? (.dl 0) = some held ∧ held.Wf ∧
      held.pending[0]? = some (.txGet 0 .dl) ∧ s.chains[0]? = some ch ∧ ch.aborted = false ∧
      FrameLengthOk (frameLen s.params .dl) ∧ frameLen s.params .dl = 9 ∧
      (held.dataLen = 9 ∨ held.dataLen < 9 ∧ held.shut = true)) := by decide
theorem test_witness_OversizedRequestsAreNeverEnabled :
    (ring8 .blocking [1]).Wf ∧ (ring8 .blocking [1]).shut = false ∧
    (ring8 .blocking [1]).size < (ten.take 9).length ∧ (ring8 .blocking [1]).size < 9 := by decide
theorem test_witness_PackBuildsTheFrame : (List.replicate 255 0x00#8).length ≤ 255 ∧
    255 < (List.replicate 256 0x00#8).length := by decide
theorem test_witness_PackLaws :
    pack .sum8 0x01 0x80 [0x10] = .ok [0x55, 0xAA, 0x01, 0x80, 0x01, 0x91, 0x10] ∧
    pack .sum8 0x01 0x80 [] = .ok [0x55, 0xAA, 0x01, 0x80, 0x00, 0x80] := by decide
theorem test_witness_StampRewritesTheHeader :
    (∀ n ∈ [6, 261], 6 ≤ (List.replicate n 0x00#8).length ∧ (List.replicate n 0x00#8).length ≤ 261) ∧
    261 < (List.replicate 262 0x00#8).length ∧ (List.replicate 5 0x00#8).length < 6 := by decide
theorem test_witness_PreambleSearch :
    let one := chainWith (Parser.fresh .ack 2) [0xAA, 0x55]
    let two := chainWith (parserAt .ack .p2 [0xAA]) [0x55, 0x04]
    ((withChain one).chains[0]? = some one ∧ one.aborted = false ∧ one.parser.ready = true ∧ one.parser.ps = .p1 ∧
      one.rxs = 0xAA :: [0x55] ∧ 0xAA#8 = one.parser.fmt.p1 ∧ 0x55#8 ≠ one.parser.fmt.p1) ∧
    (withChain two).chains[0]? = some two ∧ two.aborted = false ∧ two.parser.ready = true ∧ two.parser.ps = .p2 ∧
      two.rxs = 0x55 :: [0x04] ∧ 0x55#8 = two.parser.fmt.p2 ∧ 0xAA#8 ≠ two.parser.fmt.p2 := by decide
theorem test_witness_HeaderUnit :
    ∀ bytes ∈ [[0x04, 0x03, 0x00, 0x04, 0x42], [0x0A, 0x01, 0x00, 0x00, 0x0A]],
      let ch := chainWith (parserAt .ack .hdr [0xAA, 0x55]) (bytes ++ [0xDE])
      (withChain ch).chains[0]? = some ch ∧ ch.aborted = false ∧ ch.parser.ready = true ∧ ch.parser.Wf ∧
      ch.parser.ps = .hdr ∧
      ch.rxs = bytes ++ [0xDE] ∧ bytes.length = ch.parser.fmt.headerLen - 2 ∧
      (([ch.parser.fmt.p1, ch.parser.fmt.p2] ++ bytes).getD ch.parser.fmt.lenOff 0#8 = 0#8 ↔
        bytes = [0x0A, 0x01, 0x00, 0x00, 0x0A]) := by decide
theorem test_witness_BodyUnit :
    ∀ x ∈ [(headA1, [0xDE#8, 0xAD#8, 0xBE#8, 0xEF#8]), ([0xAA, 0x55, 0x0B, 0x80, 0x00, 0x02, 0xBC], [0x10, 0x20]),
        ([0xAA, 0x55, 0x0B, 0x80, 0x00, 0x02, 0xBC], [0x10, 0x21]),
        ([0xAA, 0x55, 0x7E, 0x01, 0x00, 0x01, 0x80], [0x01])],
      let ch := chainWith (parserAt .ack .body x.1) (x.2 ++ [0xAA])
      (withChain ch).chains[0]? = some ch ∧ ch.aborted = false ∧ ch.parser.ready = true ∧ ch.parser.Wf ∧
      ch.parser.ps = .body ∧
      ch.parser.frame = x.1 ∧ ch.rxs = x.2 ++ [0xAA] ∧
      x.2.length = (x.1.getD ch.parser.fmt.lenOff 0#8).toNat ∧
      (sum8 (withByte (x.1 ++ x.2) ch.parser.fmt.ckOff 0#8) = (x.1 ++ x.2).getD ch.parser.fmt.ckOff 0#8 ↔
        x.2 ≠ [0x10, 0x21]) := by decide
theorem test_witness_ShortReadsAndRefusals :
    let ch := chainWith (parserAt .ack .body headA1) [0xDE, 0xAD, 0xBE, 0xEF]
    let short := chainWith (parserAt .ack .body headA1) [0xDE, 0xAD, 0xBE]
    ((withChain ch).chains[0]? = some ch ∧ ch.aborted = false ∧ ch.parser.ready = true ∧
      ch.parser.want = 4) ∧
    ((withChain short).chains[0]? = some short ∧ short.aborted = false ∧ short.parser.ready = true ∧
      short.parser.want = 4 ∧ short.rxs.length < 4) ∧
    [0xDE, 0xAD, 0xBE].length < 4 ∧ [0xDE, 0xAD, 0xBE, 0xEF].length = 4 ∧
    4 < [0xDE, 0xAD, 0xBE, 0xEF, 0xAA].length ∧
    (4 ≤ ch.rxs.length ∧ ¬ [0xDE#8, 0xAD#8, 0xBE#8, 0xEE#8] <+: ch.rxs) := by decide
/-- T-PS-9: while the stream has fewer than `WANT` bytes no step is taken, whatever the operand claims. -/
theorem test_rx_waits_for_the_stream :
    (chainOf0 (exec (.psRx 0 [0xDE, 0xAD, 0xBE, 0xEF])
      (withChain (chainWith (parserAt .ack .body headA1) [0xDE, 0xAD, 0xBE])))) =
      some (chainWith (parserAt .ack .body headA1) [0xDE, 0xAD, 0xBE]) := by decide
theorem test_witness_ParserResetAndWant :
    ∀ p ∈ [Parser.fresh .cmd 0, parserAt .cmd .p2 [0x55], parserAt .ack .hdr [0xAA, 0x55], parserAt .ack .body headA1],
      (withChain (chainWith p [])).chains[0]? = some (chainWith p []) ∧ (chainWith p []).aborted = false ∧
        p.ready = true ∧ p.Wf := by decide
theorem test_witness_ParserIgnoresStaleScratch :
    let p := parserAt .ack .hdr [0xAA, 0x55]
    let q : Parser := { p with scr := Scr.writeList [] 0 headA1, protoErr := 7 }
    p.Wf ∧ q.Wf ∧ q.fmt = p.fmt ∧ q.chainId = p.chainId ∧ q.ps = p.ps ∧ q.frame = p.frame ∧ q ≠ p ∧
    p.want = [0x0A#8, 0x01#8, 0x00#8, 0x00#8, 0x0A#8].length := by decide
/-- `SCR` is total from reset on, and a write of the value at reset leaves no cell (assumption log 29). -/
theorem test_scr_holds_a_value :
    (∀ ch ∈ State.reset.chains, Scr.read ch.parser.scr 0 = 0x00 ∧ Scr.read ch.parser.scr 518 = 0x00) ∧
    Scr.writeList [(2, 0x05#8)] 1 [0xAA, 0x00, 0x55] = [(1, 0xAA#8), (3, 0x55#8)] := by decide
/-- A parser put into `S_BODY` by hand reads `SCR[LEN_OFF]` as it stands: 0x00 at reset. -/
theorem test_want_reads_the_register :
    told (exec (.psWant 0) (withChain (chainWith { Parser.fresh .ack 2 with ps := .body } []))) =
      some (.count 0, .none) := by decide
theorem test_witness_RoundTrip : (List.replicate 255 0x00#8).length ≤ 255 := by decide
theorem test_witness_Resynchronisation :
    let s := withRing (ring16 .polling [])
    exec (.fcParse .ack []) s = .next (s.reply s.who (.frames []) .none) ∧ FrameValid .sum8 .ack frameA1 ∧
    (let bad := frameA1.set 6 0x41#8;
      Fmt.ack.headerLen ≤ bad.length ∧ bad.getD 0 0#8 = Fmt.ack.p1 ∧ bad.getD 1 0#8 = Fmt.ack.p2 ∧
      bad.length = Fmt.ack.headerLen + (bad.getD Fmt.ack.lenOff 0#8).toNat ∧
      bad.getD Fmt.ack.ckOff 0#8 ≠ CkSel.eval .sum8 (bad.set Fmt.ack.ckOff 0#8)) ∧
    0x55#8 ≠ Fmt.ack.p1 ∧ 0xAA#8 = Fmt.ack.p1 ∧ 0xAA#8 ≠ Fmt.ack.p2 := ⟨rfl, by decide⟩
theorem test_witness_ChecksumSensitivity :
    let f : List Byte := [0x55, 0xAA, 0x01, 0x80, 0x01, 0x91, 0x10]
    pack .sum8 0x01 0x80 [0x10] = .ok f ∧ CkBitflip (CkSel.eval .sum8) ∧ (6 < f.length ∧ 6 ≤ 6) ∧
    0x90#8 ≠ f.getD 5 0#8 ∧ [0x10].length < (0x02#8).toNat := by
  refine ⟨by decide, fun l i j h e => ?_, by decide⟩
  exact flip_bit_ne _ j (sum8_set_inj h (e.trans (by rw [set_getD_self h]; rfl)))
theorem test_witness_DspStepTakesOneUnitAndRoutes :
    ∀ p ∈ [Parser.fresh .ack 2, parserAt .ack .body headA1],
      let ch := chainWith p [0xDE, 0xAD, 0xBE, 0xEF]
      (withChain ch).chains[0]? = some ch ∧ ch.aborted = false ∧ p.ready = true ∧ p.Wf ∧ ch.rxHalted = false ∧
      ch.holds (.rx 0) = false ∧ (p.want = 1 ∨ p.want = 4) ∧ 4 ≤ ch.rxs.length ∧
      ((withChain ch).ring? (.nonce 0) = some (Ring.fresh 16 .blocking) ∧ (Ring.fresh 16 .blocking).Wf) := by
  decide
theorem test_witness_DspStepWaits :
    let short := chainWith (parserAt .ack .body headA1) [0xDE, 0xAD, 0xBE]
    let stopped : Chain := { chainWith (Parser.fresh .ack 2) [0xAA] with rxStopped := true }
    (∀ ch ∈ [short, stopped, chainHolding, shutChain], (withChain ch).chains[0]? = some ch ∧
      ch.aborted = false ∧ ch.parser.ready = true ∧ (ch.parser.want = 4 ∨ ch.parser.want = 1)) ∧
    (short.parser.want = 4 ∧ short.rxs.length < 4) ∧ chainHolding.holds (.rx 0) = true ∧
    stopped.rxStopped = true ∧ (shutChain.shutDown = true ∧ 1 ≤ shutChain.rxs.length) := by decide
theorem test_witness_ValidFramesReachTheirRing : ∀ fmt ∈ [Fmt.cmd, Fmt.ack], ∀ n ∈ OpName.all,
    let ch := chainWith (Parser.fresh fmt 2) []
    let op := Config.params.opmap.byteOf n
    (withChain ch).chains[0]? = some ch ∧ ch.parser.Wf ∧ ch.InStep 0 fmt ∧ Config.params.opmap.Injective ∧
    ((withChain ch).ring? (inRing n 0)).isSome ∧
    ((Ring.fresh 16 .blocking).Wf ∧ (Ring.fresh 16 .polling).Wf) ∧
    FrameValid .sum8 fmt (frameBytes fmt op 0x01 0x00 op []) := by decide
theorem test_witness_BadChecksumsAreCountedAndDropped : ∀ fmt ∈ [Fmt.cmd, Fmt.ack],
    let ch := chainWith (Parser.fresh fmt 2) []
    (withChain ch).chains[0]? = some ch ∧ ch.parser.Wf ∧ ch.InStep 0 fmt ∧
    ¬ FrameValid .sum8 fmt (frameBytes fmt 0x0A 0x01 0x00 0x0B []) ∧
    ¬ FrameValid .sum8 fmt (frameBytes fmt 0x7E 0x01 0x00 0x0B []) := by decide
theorem test_witness_UnknownOpcodesAreReportedOnly : ∀ fmt ∈ [Fmt.cmd, Fmt.ack],
    let ch := chainWith (Parser.fresh fmt 2) []
    (withChain ch).chains[0]? = some ch ∧ ch.parser.Wf ∧ ch.InStep 0 fmt ∧
    0x0E#8 ∉ Config.params.opmap.recognized ∧ 0xFF#8 ∉ Config.params.opmap.recognized ∧
    FrameValid .sum8 fmt (frameBytes fmt 0x0E 0x01 0x00 0x0E []) := by decide
theorem test_witness_WireRowsRunUntilTheAgentWaits :
    let ch := chainWith (parserAt .ack .body headA1) [0xDE]
    let idle := chainWith (Parser.fresh .ack 2) []
    let s := { withChain idle with turns := [.request (.host 1) (.wire 0 [0x55, 0x00])] }
    (∀ x ∈ [ch, idle, shutChain, chainHolding], (withChain x).Wf ∧ (withChain x).chains[0]? = some x ∧
      x.aborted = false ∧ x.parser.ready = true ∧ x.nonce.isSome ∧ x.reg.isSome) ∧
    (shutChain.rxHalted = true ∧ chainHolding.holds (.rx 0) = true) ∧
    (s.turns = .request (.host 1) (.wire 0 [0x55, 0x00]) :: [] ∧
      decode s.ctx (.wire 0 [0x55, 0x00]) = .error .badPreamble ∧ s.chains[0]? = some idle) ∧
    idle.InStep 0 .ack ∧ ∀ b ∈ [0x55#8, 0x00#8], b ≠ Fmt.ack.p1 := by decide
theorem test_witness_TxStepSendsOneFrame : ∀ answers ∈ [[], [none], [some 9], [some 8], [some 0]],
    let ch := chainToSend answers
    (withChain ch).chains[0]? = some ch ∧ ch.aborted = false ∧ ch.txHalted .work = false ∧
      ch.holds (.tx 0 .work) = false ∧
    ((withChain ch).ring? (outRing .work 0) = ch.work ∧ ∀ r ∈ ch.work, r.Wf ∧ r.dataLen = 9) ∧
    FrameLengthOk (frameLen Config.params .work) ∧ frameLen Config.params .work = 9 := by decide
theorem test_witness_TxStepWaits :
    let idle := chainWith (Parser.fresh .ack 2) []
    let held : Chain := { idle with dl := some { Ring.fresh 16 .blocking with pending := [.txGet 0 .dl] } }
    let stopped : Chain := { idle with dlStopped := true }
    let short : Chain := { idle with dl := some (ring16 .blocking [1, 2, 3, 4, 5, 6, 7, 8]) }
    (∀ x ∈ [held, stopped, short, shutChain], (withChain x).chains[0]? = some x ∧ x.aborted = false) ∧
    (held.holds (.tx 0 .dl) = true ∧ stopped.txHalted .dl = true ∧ shutChain.txHalted .dl = true) ∧
    (short.txHalted .dl = false ∧
      short.holds (.tx 0 .dl) = false ∧
      (withChain short).ring? (outRing .dl 0) = some (ring16 .blocking [1, 2, 3, 4, 5, 6, 7, 8]) ∧
      (ring16 .blocking [1, 2, 3, 4, 5, 6, 7, 8]).dataLen < frameLen Config.params .dl ∧
      (ring16 .blocking [1, 2, 3, 4, 5, 6, 7, 8]).shut = false) ∧
    ({ Ring.fresh 16 .blocking with shut := true } : Ring).dataLen < frameLen Config.params .dl := by decide
theorem test_witness_IoctlPacksAndSends :
    let ch := chainToSend [some 6]
    let s := { withChain ch with turns := [.ioctl (.host 1) 0 0x01 0x80 [0x10]] }
    s.turns = .ioctl (.host 1) 0 0x01 0x80 [0x10] :: [] ∧ s.chains[0]? = some ch ∧
    ch.aborted = false ∧ [0x10].length ≤ 255 ∧ 255 < (List.replicate 256 0x10#8).length ∧
    pack s.params.ck 0x01 0x80 [0x10] = .ok [0x55, 0xAA, 0x01, 0x80, 0x01, 0x91, 0x10] ∧
    (ch.sendAnswers.headD none = some 6 ∧ 6 < 7) ∧ (chainToSend [some 7]).sendAnswers.headD none = some 7 ∧
    (chainToSend []).sendAnswers.headD none = none := by decide

end Sys2Proof.Tests
end

namespace Sys2Proof.Machine

/-! ## The set of instances (00_scope.md R9, 60_exceptions.md R177) -/

/-- A chain is in use as another is: it was started if and only if the other was, and if not, its parser and its streams are
the other's (60_exceptions.md R177). Its run flags may differ. -/
abbrev Chain.SameUse (ch ch' : Chain) : Prop :=
  ch'.aborted = ch.aborted ∧ (ch.aborted = true →
    ch'.parser = ch.parser ∧ ch'.rxs = ch.rxs ∧ ch'.txs = ch.txs ∧ ch'.sendAnswers = ch.sendAnswers)

/-- Two states with the same set of instances, whose chains are in use alike. -/
structure State.SameInstances (s t : State) : Prop where
  length : t.chains.length = s.chains.length
  ring : ∀ rb, (t.ring? rb).isSome = (s.ring? rb).isSome
  chain : ∀ (c : Nat) (ch : Chain), s.chains[c]? = some ch →
    ∃ ch', t.chains[c]? = some ch' ∧ ch.SameUse ch'

theorem Chain.SameUse.refl (ch : Chain) : ch.SameUse ch := ⟨rfl, fun _ => ⟨rfl, rfl, rfl, rfl⟩⟩

/-- Of a chain that was started only that it was is asked. -/
theorem Chain.SameUse.of_started {ch ch' : Chain} (h : ch.aborted = false) (h' : ch'.aborted = false) :
    ch.SameUse ch' :=
  ⟨h'.trans h.symm, fun ha => absurd (h.symm.trans ha) Bool.false_ne_true⟩

/-- What `State.Complete` asks of one chain, by the names of its rings. -/
theorem Chain.complete_iff {ch : Chain} (c : Nat) :
    (if ch.aborted then
      ch.parser.ready = false ∧ ch.nonce = none ∧ ch.reg = none ∧ ch.work = none ∧ ch.dl = none
    else ch.nonce.isSome ∧ ch.reg.isSome ∧ ch.work.isSome ∧ ch.dl.isSome) ↔
    (∀ rb, chainOf rb = some c → (ch.ring? rb).isSome = !ch.aborted) ∧
      (ch.aborted = true → ch.parser.ready = false) := by
  have byName : (∀ rb, chainOf rb = some c → (ch.ring? rb).isSome = !ch.aborted) ↔
      ch.nonce.isSome = (!ch.aborted) ∧ ch.reg.isSome = (!ch.aborted) ∧
        ch.work.isSome = (!ch.aborted) ∧ ch.dl.isSome = !ch.aborted := by
    constructor
    · intro h
      exact ⟨h (.nonce c) rfl, h (.reg c) rfl, h (.work c) rfl, h (.dl c) rfl⟩
    · rintro ⟨hn, hr, hw, hd⟩ rb hc
      cases rb with
      | nonce => exact hn
      | reg => exact hr
      | work => exact hw
      | dl => exact hd
      | pmon => cases hc
  rw [byName]
  cases ch.aborted <;> simp [and_comm]

/-- The set of instances that the initialisation leaves, by name: a ring exists unless its chain was not started. -/
theorem State.complete_iff {s : State} : s.Complete ↔
    (∀ rb, s.named rb = true → (s.ring? rb).isSome = !s.abortedAt rb) ∧
    ∀ (c : Nat) (ch : Chain), s.chains[c]? = some ch → ch.aborted = true → ch.parser.ready = false := by
  constructor
  · rintro ⟨hp, hch⟩
    refine ⟨fun rb hn => ?_, fun c ch hc =>
      ((Chain.complete_iff c).1 (hch ch (List.mem_of_getElem? hc))).2⟩
    rcases named_iff.1 hn with hc | ⟨c, ch, hc, h⟩
    · simpa [State.ring?, State.abortedAt, hc] using hp
    · rw [ring?_of_chain hc h, abortedAt_of_chain hc h]
      exact ((Chain.complete_iff c).1 (hch ch (List.mem_of_getElem? h))).1 rb hc
  · rintro ⟨hr, hready⟩
    refine ⟨hr .pmon rfl, fun ch hm => ?_⟩
    obtain ⟨c, hc⟩ := List.mem_iff_getElem?.1 hm
    refine (Chain.complete_iff c).2 ⟨fun rb hrb => ?_, hready c ch hc⟩
    rw [← ring?_of_chain hrb hc, ← abortedAt_of_chain hrb hc]
    exact hr rb (named_iff.2 (.inr ⟨c, ch, hrb, hc⟩))

section sameInstances
variable {s t u : State}

theorem State.SameInstances.trans (h : s.SameInstances t) (k : t.SameInstances u) : s.SameInstances u where
  length := k.length.trans h.length
  ring rb := (k.ring rb).trans (h.ring rb)
  chain c ch hc := by
    obtain ⟨ch1, hc1, ha1, hk1⟩ := h.chain c ch hc
    obtain ⟨ch2, hc2, ha2, hk2⟩ := k.chain c ch1 hc1
    refine ⟨ch2, hc2, ha2.trans ha1, fun ha => ?_⟩
    obtain ⟨p1, r1, t1, a1⟩ := hk1 ha
    obtain ⟨p2, r2, t2, a2⟩ := hk2 (ha1.trans ha)
    exact ⟨p2.trans p1, r2.trans r1, t2.trans t1, a2.trans a1⟩

/-- The fields beside the chains and `PMON_RING` do not matter to the set of instances. -/
theorem State.SameInstances.of_eq (hc : t.chains = s.chains) (hp : t.pmon = s.pmon) : s.SameInstances t where
  length := by rw [hc]
  ring rb := by unfold State.ring?; rw [hc, hp]
  chain c ch h := ⟨ch, by rw [hc, h], .refl ch⟩

theorem State.SameInstances.refl (s : State) : s.SameInstances s := .of_eq rfl rfl

theorem State.SameInstances.reply (h : s.SameInstances t) (who : Agent) (res : Result) (ev : Event)
    (m : Moved) : s.SameInstances (t.reply who res ev m) := h.trans (.of_eq rfl rfl)

/-- Replacing a ring that exists makes and removes none. -/
theorem sameInstances_setRing {rb : RingId} {r : Ring} (hr : s.ring? rb = some r) (r' : Ring) :
    s.SameInstances (s.setRing rb r') where
  length := setRing_length s rb r'
  ring rb' := by
    by_cases e : rb' = rb
    · subst e; rw [ring?_setRing_same (named_of_ring? hr), hr]; rfl
    · rw [ring?_setRing_other e]
  chain c ch hc := by
    obtain ⟨ch', hc', hp, hrx, htx, hans, -, -, -, ha⟩ := setRing_chain_keeps (rb := rb) (r := r') hc
    exact ⟨ch', hc', ha, fun _ => ⟨hp, hrx, htx, hans⟩⟩

/-- Stopping an agent sets run flags only. -/
theorem sameInstances_stopAgent (s : State) (who : Agent) : s.SameInstances (s.stopAgent who) where
  length := stopAgent_length s who
  ring rb := by rw [stopAgent_ring?]
  chain c ch hc := by
    obtain ⟨ch', hc', hp, hrx, htx, hans, ha⟩ := stopAgent_chain_keeps (who := who) hc
    exact ⟨ch', hc', ha, fun _ => ⟨hp, hrx, htx, hans⟩⟩

/-- A chain that was started may be replaced by one with the same rings. -/
theorem sameInstances_setChain {c : Nat} {ch ch' : Chain} (hc : s.chains[c]? = some ch)
    (ha : ch.aborted = false) (ha' : ch'.aborted = false) (hr : ∀ rb, ch'.ring? rb = ch.ring? rb) :
    s.SameInstances (s.setChain c ch') where
  length := setChain_length s c ch'
  ring rb := by
    by_cases e : chainOf rb = some c
    · rw [ring?_setChain_same e hc, hr, ring?_of_chain e hc]
    · rw [ring?_setChain_other e]
  chain d dh hd := by
    by_cases e : d = c
    · subst e
      obtain rfl : ch = dh := Option.some.inj (hc.symm.trans hd)
      exact ⟨ch', setChain_chains_same hc, .of_started ha ha'⟩
    · exact ⟨dh, (setChain_chains_other e).trans hd, .refl dh⟩

theorem State.SameInstances.named (h : s.SameInstances t) (rb : RingId) : t.named rb = s.named rb := by
  unfold State.named; rw [h.length]

theorem State.SameInstances.abortedAt (h : s.SameInstances t) {rb : RingId} (hn : s.named rb = true) :
    t.abortedAt rb = s.abortedAt rb := by
  rcases named_iff.1 hn with hc | ⟨c, ch, hc, hch⟩
  · simp [State.abortedAt, hc]
  · obtain ⟨ch', hch', ha, -⟩ := h.chain c ch hch
    rw [abortedAt_of_chain hc hch', abortedAt_of_chain hc hch, ha]

/-- Where the set of instances was what the initialisation leaves, it still is. -/
theorem State.SameInstances.complete (h : s.SameInstances t) (hs : s.Complete) : t.Complete := by
  obtain ⟨hr, hready⟩ := State.complete_iff.1 hs
  refine State.complete_iff.2 ⟨fun rb hn => ?_, fun c ch' hc' ha' => ?_⟩
  · rw [h.named] at hn
    rw [h.ring, h.abortedAt hn, hr rb hn]
  · have hlt : c < s.chains.length := by
      rw [← h.length]; exact (List.getElem?_eq_some_iff.1 hc').1
    obtain ⟨ch1, hc1, ha, hk⟩ := h.chain c _ (List.getElem?_eq_getElem hlt)
    obtain rfl : ch' = ch1 := Option.some.inj (hc'.symm.trans hc1)
    obtain ⟨hp, -⟩ := hk (ha.symm.trans ha')
    rw [hp]
    exact hready c _ (List.getElem?_eq_getElem hlt) (ha.symm.trans ha')

/-- A name that denotes no ring after the initialisation is one of a chain that was not started, so there is nothing
`RB.INIT` could make (40_ringbuffer.md R83, R84). -/
theorem State.Complete.abortedAt_of_ring?_none (hs : s.Complete) {rb : RingId} (hn : s.named rb = true)
    (hr : s.ring? rb = none) : s.abortedAt rb = true := by
  have h := (State.complete_iff.1 hs).1 rb hn
  simpa [hr] using h

/-- One move keeps the set of instances: no move removes a ring, none that makes one applies, and none touches a chain that
was not started. -/
theorem move_sameInstances {L : Option Nat → Prop} (hs : s.Complete) (m : Move L s t) : s.SameInstances t := by
  cases m with
  | idle _ hc hp _ => exact .of_eq hc hp
  | told who res ev => exact (State.SameInstances.refl s).reply _ _ _ _
  | stop who => exact sameInstances_stopAgent s who
  | store who res ev _ hr _ => exact (sameInstances_setRing hr _).reply _ _ _ _
  | take who res ev _ hr _ _ => exact (sameInstances_setRing hr _).reply _ _ _ _
  | hold _ hr _ _ => exact sameInstances_setRing hr _
  | release k _ hr => exact sameInstances_setRing hr _
  | force who res ev _ hr _ => exact (sameInstances_setRing hr _).reply _ _ _ _
  | make _ hn ha hr _ =>
    have ha' := hs.abortedAt_of_ring?_none hn hr
    rw [ha] at ha'
    cases ha'
  | parse _ hc ha _ _ _ => exact sameInstances_setChain hc ha ha fun rb => by cases rb <;> rfl
  | reset _ hc ha => exact sameInstances_setChain hc ha ha fun rb => by cases rb <;> rfl
  | stream rxs txs answers _ hc ha => exact sameInstances_setChain hc ha ha fun rb => by cases rb <;> rfl

/-- Every step keeps the set of instances that the initialisation leaves (00_scope.md R9). -/
theorem step_sameInstances (hs : s.Complete) (h : step s = .next t) : s.SameInstances t := by
  refine step_keeps (P := s.SameInstances) (fun u v m k => ?_) (fun u rb r hr k => ?_) (.refl s) h
  · exact k.trans (move_sameInstances (k.complete hs) m)
  · exact k.trans (sameInstances_setRing hr _)

/-- Where every ring there can be exists, `RB.INIT` is refused on every name (40_ringbuffer.md R83 c, R84). -/
theorem rbInit_refused_of_complete (hs : s.Complete) (rb : RingId) (n : Nat) (m : Mode) :
    exec (.rbInit rb n m) s = .refused
      (if s.named rb = false then .noSuchChain else if s.abortedAt rb = true then .chainAborted
        else .reInit) := by
  show execRbInit rb n m s = _
  unfold execRbInit
  dsimp only
  by_cases hn : s.named rb = false
  · rw [if_pos hn, if_pos hn]
  · rw [if_neg hn, if_neg hn]
    by_cases ha : s.abortedAt rb = true
    · rw [if_pos ha, if_pos ha]
    · have hr : (s.ring? rb).isSome = true := by
        rw [(State.complete_iff.1 hs).1 rb (by simpa using hn)]
        simpa using ha
      rw [if_neg ha, if_neg ha, if_pos hr]

end sameInstances

/-- Settles O16: every step keeps the set of instances, proved move by move along the list of what a step can do. -/
theorem stepKeepsTheSetOfInstances : Obligations.StepKeepsTheSetOfInstances := by
  intro s hs
  refine ⟨fun t h => ?_, rbInit_refused_of_complete hs⟩
  have k := step_sameInstances hs h
  refine ⟨k.complete hs, k.ring, fun c ch hc ha => ?_⟩
  obtain ⟨ch', hc', ha', hk⟩ := k.chain c ch hc
  exact ⟨ch', hc', ha'.trans ha, hk ha⟩

end Sys2Proof.Machine

namespace Sys2Proof.Machine

/-! ## When the initialisation starts the block (70_reset_and_hazards.md R180) -/

@[simp] theorem refused_andThen (e : Refusal) (f : State → Answer) :
    Answer.andThen (.refused e) f = .refused e := rfl

/-- A rounded size is legal (40_ringbuffer.md R83). -/
theorem not_badSize_roundSize {p : Params} {n : Nat} : ¬ BadSize (roundSize p n) ↔
    1 ≤ n / p.rbAlign * p.rbAlign ∧ n / p.rbAlign * p.rbAlign ≤ 32767 := by
  show ¬ (n / p.rbAlign * p.rbAlign = 0 ∨ n / p.rbAlign * p.rbAlign > 32767) ↔ _
  omega

/-- The sizes of a chain's rings are legal, ring by ring. -/
theorem sizesOk_iff {p : Params} {k : ChainConfig} : sizesOk p k ↔
    ¬ BadSize (roundSize p (k.nonceReq.getD (p.nonceRecLen * p.rbMult))) ∧
    ¬ BadSize (roundSize p (k.regReq.getD (p.regRecLen * p.rbMult))) ∧
    ¬ BadSize (roundSize p (k.workReq.getD (p.workFrameLen * p.rbMult))) ∧
    ¬ BadSize (roundSize p (k.dlReq.getD (p.dlFrameLen * p.rbMult))) := by
  simp only [sizesOk, chainRings, ringRequest, List.forall_mem_cons, List.not_mem_nil, false_implies,
    implies_true, and_true]

/-- The rounded size of every ring there is to be is legal. -/
def allSizesOk (b : BootConfig) : Prop :=
  ¬ BadSize (roundSize b.params b.pmonReq) ∧ ∀ k ∈ b.chains, sizesOk b.params k

/-- The block between two parts of the sequence. -/
def State.booting (p : Params) (pmon : Option Ring) (chains : List Chain) (replies : List Reply) : State :=
  { State.blank p [] with chains := chains, pmon := pmon, replies := replies }

section boot
variable {p : Params} {pmon : Option Ring} {chains : List Chain} {reps : List Reply} {ks : List ChainConfig}

/-- Step 2 for the rings of all the chains: they are all made, or one has a bad size. -/
theorem bootRings_eq (p : Params) (ks : List ChainConfig) :
    ((∀ k ∈ ks, sizesOk p k) ∧ ∃ reps, forChains initChain 0 ks (State.blank p (ks.map ChainConfig.chainId)) =
      .next (.booting p none (ks.map (Chain.ringed p)) reps)) ∨
    ((¬ ∀ k ∈ ks, sizesOk p k) ∧
      forChains initChain 0 ks (State.blank p (ks.map ChainConfig.chainId)) = .refused .badSize) :=
  forChains_eq (a := fun k => Chain.blank k.chainId) (pre := []) (p := p)
    (fun s c k hp hc => by rw [← hp]; exact initChain_eq hc) rfl (by simp [State.blank, Function.comp_def])

/-- Step 2 for `PMON_RING`. -/
theorem bootPmon_ok {n : Nat} (m : Mode) (h : ¬ BadSize (roundSize p n)) :
    ∃ reps', execRbInit .pmon n m (.booting p none chains reps) =
      .next (.booting p (some (Ring.fresh (roundSize p n) m)) chains reps') :=
  ⟨_, rbInit_ok rfl rfl rfl h⟩

theorem bootPmon_bad {n : Nat} (m : Mode) (h : BadSize (roundSize p n)) :
    execRbInit .pmon n m (.booting p none chains reps) = .refused .badSize :=
  rbInit_bad rfl rfl rfl h

/-- A part of the sequence that turns one form of a chain into another turns all the chains. -/
theorem boot_forChains {f : Nat → ChainConfig → State → Answer} {a b : Params → ChainConfig → Chain}
    (hf : ∀ (s : State) (c : Nat) (k : ChainConfig), s.chains[c]? = some (a s.params k) →
      ∃ reps, f c k s = .next { s.setChain c (b s.params k) with replies := reps }) :
    ∃ reps', forChains f 0 ks (.booting p pmon (ks.map (a p)) reps) =
      .next (.booting p pmon (ks.map (b p)) reps') := by
  rcases forChains_eq (s := .booting p pmon (ks.map (a p)) reps) (p := p) (f := f) (b := b p)
    (good := fun _ => True) (e := .badParameter) (pre := [])
    (fun s c k hp hc => .inl ⟨trivial, by rw [← hp] at hc ⊢; exact hf s c k hc⟩) rfl rfl with
    ⟨-, h⟩ | ⟨hn, -⟩
  · exact h
  · exact absurd (fun _ _ => trivial) hn

end boot

/-- The initialisation with parameters of their types and frame lengths in their range: it starts the block, every chain started
or aborted as its transport answers, when all sizes are legal; otherwise a size is refused. -/
theorem initialise_eq {b : BootConfig} (ht : b.params.WellTyped ∧ b.chains ≠ [])
    (hl : FrameLengthOk b.params.workFrameLen ∧ FrameLengthOk b.params.dlFrameLen) :
    (allSizesOk b ∧ ∃ reps, initialise b =
      .next (.booting b.params (some (Ring.fresh (roundSize b.params b.pmonReq) b.pmonMode))
        (b.chains.map (Chain.started b.params)) reps)) ∨
    (¬ allSizesOk b ∧ initialise b = .refused .badSize) := by
  unfold initialise
  rw [if_neg (not_not.2 ht), if_neg (not_not.2 hl)]
  rcases bootRings_eq b.params b.chains with ⟨hg, reps1, rings⟩ | ⟨hg, rings⟩
  · rw [rings, next_andThen]
    by_cases hm : BadSize (roundSize b.params b.pmonReq)
    · rw [bootPmon_bad _ hm, refused_andThen, refused_andThen]
      exact .inr ⟨fun h => h.1 hm, rfl⟩
    · obtain ⟨reps2, made⟩ := bootPmon_ok (chains := b.chains.map (Chain.ringed b.params)) (reps := reps1)
        b.pmonMode hm
      obtain ⟨reps3, parsers⟩ := boot_forChains (fun _ _ _ => initParser_eq)
      obtain ⟨reps4, opened⟩ := boot_forChains (fun _ _ _ => openChain_eq)
      rw [made, next_andThen, parsers, next_andThen, opened]
      exact .inl ⟨⟨hm, hg⟩, reps4, rfl⟩
  · rw [rings, refused_andThen, refused_andThen, refused_andThen]
    exact .inr ⟨fun h => hg h.2, rfl⟩

/-- The initialisation refuses a parameter outside its type first (00_scope.md R7, assumption log 22). -/
theorem initialise_badParameter {b : BootConfig} (h : ¬ (b.params.WellTyped ∧ b.chains ≠ [])) :
    initialise b = .refused .badParameter := by
  unfold initialise; rw [if_pos h]

/-- Then a frame length outside its range (41_framecodec_pack.md R107, assumption log 22). -/
theorem initialise_badFrameLength {b : BootConfig} (ht : b.params.WellTyped ∧ b.chains ≠ [])
    (hl : ¬ (FrameLengthOk b.params.workFrameLen ∧ FrameLengthOk b.params.dlFrameLen)) :
    initialise b = .refused .badFrameLength := by
  unfold initialise; rw [if_neg (not_not.2 ht), if_pos hl]

/-- Settles O7: the four answers of the initialisation, one lemma each for the two early refusals and `initialise_eq` for the
sizes. -/
theorem initialisationStartsExactlyWhen : Obligations.InitialisationStartsExactlyWhen := by
  intro b p typed lengths legal sizes
  have sizes_iff : sizes ↔ allSizesOk b := by
    simp only [sizes, legal, p, allSizesOk, sizesOk_iff, not_badSize_roundSize]
  refine ⟨fun ht hl hs => ?_, fun ht hl hs => ?_, initialise_badFrameLength, initialise_badParameter⟩
  · rcases initialise_eq ht hl with ⟨-, reps, h⟩ | ⟨hn, -⟩
    · exact ⟨_, h⟩
    · exact absurd (sizes_iff.1 hs) hn
  · rcases initialise_eq ht hl with ⟨hg, -⟩ | ⟨-, h⟩
    · exact absurd (sizes_iff.2 hg) hs
    · exact h

end Sys2Proof.Machine

namespace Sys2Proof.Machine

/-! ## What a step does with the oldest turn (00_scope.md R8, 20_memory.md R43) -/

section turns
variable {s : State} {rest : List Turn} {who : Agent}

/-- A requested line that decodes is run. -/
theorem step_request_decoded {line : Line} {i : Instr} (h : s.turns = .request who line :: rest)
    (hd : decode s.ctx line = .ok i) : step s = exec i { s with turns := rest, who := who } := by
  unfold step fetch; rw [h]; dsimp only; rw [hd]

/-- A requested line that does not decode is answered by its kind (30_encoding.md R70). -/
theorem step_request_undecoded {line : Line} {e : DecodeError} (h : s.turns = .request who line :: rest)
    (hd : decode s.ctx line = .error e) : step s = undecoded line e { s with turns := rest, who := who } := by
  unfold step fetch; rw [h]; dsimp only; rw [hd]

theorem step_arrive {c : Nat} {bytes : List Byte} (h : s.turns = .arrive c bytes :: rest) :
    step s = arrive c bytes { s with turns := rest } := by
  unfold step fetch; rw [h]

theorem step_resume {rb : RingId} {k : Nat} (h : s.turns = .resume rb k :: rest) :
    step s = resume rb k { s with turns := rest } := by
  unfold step fetch; rw [h]

theorem step_no_turn (h : s.turns = []) : step s = .next s := by
  unfold step fetch; rw [h]

end turns

/-- Bytes that arrive at a chain that was started go behind what waits on its stream (10_state.md R34). -/
theorem arrive_started {s : State} {c : Nat} {ch : Chain} {bytes : List Byte} (hc : s.chains[c]? = some ch)
    (ha : ch.aborted = false) : arrive c bytes s = .next (s.setChain c { ch with rxs := ch.rxs ++ bytes }) :=
  onChain_some hc ha _

/-- Re-examining a held request that there is not changes nothing (20_memory.md R52). -/
theorem resume_absent {s : State} {rb : RingId} {k : Nat}
    (h : ∀ r, s.ring? rb = some r → r.pending[k]? = none) : resume rb k s = .next s := by
  unfold resume
  cases hr : s.ring? rb with
  | none => rfl
  | some r => dsimp only; rw [h r hr]

/-- Settles O5: one lemma for each kind of turn. -/
theorem stepRunsTheDecodedInstruction : Obligations.StepRunsTheDecodedInstruction := by
  refine ⟨fun s who line rest i => step_request_decoded, fun s who sel args rest e => step_request_undecoded,
    fun s who c bytes rest e => step_request_undecoded, fun s c bytes rest h => ?_,
    fun s rb k rest h hr => ?_, fun s => step_no_turn⟩
  · rw [step_arrive h]
    exact ⟨fun ch hc ha => arrive_started hc ha, fun ch hc ha => onChain_aborted hc ha _,
      fun hc => onChain_none hc _⟩
  · rw [step_resume h]
    exact resume_absent hr

end Sys2Proof.Machine

namespace Sys2Proof.Machine

/-! ## Every step keeps the invariant (10_state.md R24, R30) -/

section invariant
variable {L : Option Nat → Prop} {s t : State}

/-- The invariants of a ring do not mention `SHUT` and `PENDING`. -/
theorem Ring.Wf.of_same_store {r r' : Ring} (h : r.Wf) (hsize : r'.size = r.size) (hbuf : r'.buf = r.buf)
    (hri : r'.ri = r.ri) (hwi : r'.wi = r.wi) (hrm : r'.rm = r.rm) (hwm : r'.wm = r.wm) : r'.Wf := by
  obtain ⟨size, mode, buf, ri, wi, rm, wm, shut, pending⟩ := r
  obtain ⟨size', mode', buf', ri', wi', rm', wm', shut', pending'⟩ := r'
  subst hsize hbuf hri hwi hrm hwm
  exact h

theorem Ring.HeldInPlace.of_pending {r r' : Ring} {rb : RingId} (h : r.HeldInPlace rb)
    (hp : r'.pending = r.pending) : r'.HeldInPlace rb := fun x hx => h x (hp ▸ hx)

@[simp] theorem forceInto_size (r : Ring) (d : List Byte) : (forceInto r d).size = r.size := by
  unfold forceInto; dsimp only; split <;> simp
@[simp] theorem forceInto_mode (r : Ring) (d : List Byte) : (forceInto r d).mode = r.mode := by
  unfold forceInto; dsimp only; split <;> simp
@[simp] theorem forceInto_shut (r : Ring) (d : List Byte) : (forceInto r d).shut = r.shut := by
  unfold forceInto; dsimp only; split <;> simp
@[simp] theorem forceInto_pending (r : Ring) (d : List Byte) : (forceInto r d).pending = r.pending := by
  unfold forceInto; dsimp only; split <;> simp

/-- The invariant does not mention the replies. -/
theorem State.Wf.reply (h : s.Wf) (who : Agent) (res : Result) (ev : Event) (m : Moved) :
    (s.reply who res ev m).Wf := State.wf_congr rfl rfl h

/-- The invariant does not mention the run flags. -/
theorem State.Wf.stopAgent (h : s.Wf) (who : Agent) : (s.stopAgent who).Wf := by
  rcases stopAgent_cases s who with e | ⟨c, ch, -, hc, e⟩
  · rw [e]; exact h
  · rw [e]
    exact State.wf_setChain h hc (by simpa using (State.wf_iff.1 h).1 c ch hc)
      (fun rb => Chain.stopped_ring? who ch rb)

/-- One move keeps the invariant. -/
theorem move_wf (hs : s.Wf) (m : Move L s t) : t.Wf := by
  obtain ⟨parsers, rings⟩ := State.wf_iff.1 hs
  cases m with
  | idle _ hc hp _ => exact State.wf_congr hc hp hs
  | told who res ev => exact hs.reply _ _ _ _
  | stop who => exact hs.stopAgent who
  | store who res ev _ hr hd =>
    obtain ⟨hw, hp⟩ := rings _ _ hr
    exact (State.wf_setRing hs (rbStore_wf hw hd) (hp.of_pending (by simp))).reply _ _ _ _
  | take who res ev _ hr hk ho =>
    obtain ⟨hw, hp⟩ := rings _ _ hr
    obtain ⟨rfl, hw'⟩ := rbLoad_wf hw hk ho
    exact (State.wf_setRing hs hw' (hp.of_pending rfl)).reply _ _ _ _
  | hold _ hr _ hplace =>
    obtain ⟨hw, hp⟩ := rings _ _ hr
    refine State.wf_setRing hs (hw.of_same_store rfl rfl rfl rfl rfl rfl) fun x hx => ?_
    rcases List.mem_append.1 hx with hx | hx
    · exact hp x hx
    · rw [List.mem_singleton.1 hx]; exact hplace
  | release k _ hr =>
    obtain ⟨hw, hp⟩ := rings _ _ hr
    exact State.wf_setRing hs (hw.of_same_store rfl rfl rfl rfl rfl rfl)
      fun x hx => hp x (List.mem_of_mem_eraseIdx hx)
  | force who res ev _ hr hd =>
    obtain ⟨hw, hp⟩ := rings _ _ hr
    exact (State.wf_setRing hs (forceInto_wf hw hd) (hp.of_pending (by simp))).reply _ _ _ _
  | make _ _ _ _ hn => exact State.wf_setRing hs (Ring.fresh_wf hn) fun x hx => by cases hx
  | parse _ hc _ hw hb hp =>
    exact State.wf_setChain hs hc (parserStep_wf (parsers _ _ hc) (hw.trans hb.symm) hp)
      fun rb => by cases rb <;> rfl
  | reset _ hc _ =>
    exact State.wf_setChain hs hc (Parser.wf_reset (parsers _ _ hc).1 rfl rfl) fun rb => by cases rb <;> rfl
  | stream rxs txs answers _ hc _ =>
    have hp := parsers _ _ hc
    exact State.wf_setChain hs hc hp fun rb => by cases rb <;> rfl

theorem moves_wf (hs : s.Wf) (m : Moves L s t) : t.Wf := by
  induction m with
  | refl => exact hs
  | tail _ m ih => exact move_wf ih m

/-- Setting `SHUT` keeps the invariant (40_ringbuffer.md R96). -/
theorem State.Wf.setShut {rb : RingId} {r : Ring} (hs : s.Wf) (hr : s.ring? rb = some r) :
    (s.setRing rb { r with shut := true }).Wf := by
  obtain ⟨hw, hp⟩ := (State.wf_iff.1 hs).2 rb r hr
  exact State.wf_setRing hs (hw.of_same_store rfl rfl rfl rfl rfl rfl) hp

theorem step_wf (hs : s.Wf) (h : step s = .next t) : t.Wf :=
  step_keeps (P := State.Wf) (fun _ _ m hw => move_wf hw m) (fun _ _ _ hr hw => hw.setShut hr) hs h

theorem Runs.wf (hs : s.Wf) (h : Runs s t) : t.Wf := by
  induction h with
  | here => exact hs
  | more _ h ih => exact step_wf ih h

end invariant

/-- Settles O10: the invariant is kept move by move; what R24 b and c add follows from it. -/
theorem stepKeepsTheInvariant : Obligations.StepKeepsTheInvariant := by
  intro s t hs h
  have ht : t.Wf := step_wf hs h
  obtain ⟨parsers, rings⟩ := State.wf_iff.1 ht
  refine ⟨ht, fun rb r hr => ?_, fun c ch hc => (parsers c ch hc).want_range⟩
  have hw : r.Wf := (rings rb r hr).1
  have ⟨_, cursors, hlt, hgt, _⟩ := hw
  exact ⟨cursors, hw.dataLen_le, hw.data_add_space, hlt, hgt, hw.written⟩

end Sys2Proof.Machine

namespace Sys2Proof.Machine

/-! ## Under the invariant nothing faults (10_state.md R16, R24 e) -/

/-- An answer that is no fault. -/
def Answer.NoFault (a : Answer) : Prop := ∀ e, a ≠ .fault e

section noFault
variable {s : State} {rb : RingId} {c : Nat}

theorem next_noFault (s : State) : Answer.NoFault (.next s) := nofun

theorem refused_noFault (e : Refusal) : Answer.NoFault (.refused e) := nofun

theorem andThen_noFault {x : Answer} {f : State → Answer} (hx : x.NoFault)
    (hf : ∀ u, x = .next u → (f u).NoFault) : (x.andThen f).NoFault := by
  cases x with
  | next u => exact hf u rfl
  | fault e => exact absurd rfl (hx e)
  | refused e => exact refused_noFault e

theorem onRing_noFault {f : Ring → Answer} (hf : ∀ r, s.ring? rb = some r → (f r).NoFault) :
    (s.onRing rb f).NoFault := fun e h => by
  obtain ⟨r, hr, h⟩ := onRing_fault h
  exact hf r hr e h

theorem onChain_noFault {f : Chain → Answer} (hf : ∀ ch, (f ch).NoFault) : (s.onChain c f).NoFault :=
  fun e h => by
    obtain ⟨ch, -, -, h⟩ := onChain_fault h
    exact hf ch e h

theorem onParser_noFault {f : Chain → Answer} (hf : ∀ ch, (f ch).NoFault) : (s.onParser c f).NoFault :=
  fun e h => by
    obtain ⟨ch, -, -, -, h⟩ := onParser_fault h
    exact hf ch e h

/-- The one place where a fault can arise: it does not where the bytes asked for are held (R24 e). -/
theorem taken_noFault {r : Ring} {k : Nat} {f : List Byte → State → Answer} (hr : r.Wf) (hk : k ≤ r.dataLen)
    (hf : ∀ out u, (f out u).NoFault) : (s.taken rb r k f).NoFault := by
  obtain ⟨out, e, -⟩ := taken_of_wf (s := s) (rb := rb) hr hk f
  rw [e]; exact hf _ _

/-! ### Operations that take no byte out of a ring never fault, whatever the state -/

theorem pollingPut_noFault (who : Agent) (rb : RingId) (d : List Byte) (s : State) :
    (pollingPut who rb d s).NoFault := onRing_noFault fun _ _ => next_noFault _

theorem blockingPut_noFault (who : Agent) (rb : RingId) (d : List Byte) (s : State) :
    (blockingPut who rb d s).NoFault := onRing_noFault fun r _ => by
  split
  · exact next_noFault _
  · split <;> exact next_noFault _

theorem put_noFault (who : Agent) (rb : RingId) (d : List Byte) (s : State) : (put who rb d s).NoFault :=
  onRing_noFault fun r _ => by
    split
    · exact pollingPut_noFault _ _ _ _
    · exact blockingPut_noFault _ _ _ _

theorem send_noFault (who : Agent) (c : Nat) (f : List Byte) (m : Moved) (s : State) :
    (send who c f m s).NoFault := onChain_noFault fun _ => next_noFault _

theorem arrive_noFault (c : Nat) (b : List Byte) (s : State) : (arrive c b s).NoFault :=
  onChain_noFault fun _ => next_noFault _

theorem ioctl_noFault (who : Agent) (c : Nat) (op addr : Byte) (p : List Byte) (s : State) :
    (ioctl who c op addr p s).NoFault := onChain_noFault fun _ => by
  split
  · exact refused_noFault _
  · exact send_noFault _ _ _ _ _

theorem route_noFault (c : Nat) (ev : Event) (s : State) : (route c ev s).NoFault := by
  unfold route
  split
  · exact put_noFault _ _ _ _
  · exact put_noFault _ _ _ _
  · exact next_noFault _

theorem dsp_noFault (c : Nat) (s : State) : (dsp c s).NoFault := onParser_noFault fun ch => by
  split
  · exact next_noFault _
  · dsimp only
    split
    · exact next_noFault _
    · exact route_noFault _ _ _

theorem dspTimes_noFault (c k : Nat) (s : State) : (dspTimes c k s).NoFault := by
  induction k generalizing s with
  | zero => exact next_noFault s
  | succ k ih => exact andThen_noFault (dsp_noFault c s) fun u _ => ih u

theorem receive_noFault (c : Nat) (b : List Byte) (s : State) : (receive c b s).NoFault :=
  andThen_noFault (arrive_noFault c b s) fun _ _ => onChain_noFault fun _ => dspTimes_noFault _ _ _

theorem rbInit_noFault (rb : RingId) (n : Nat) (m : Mode) (s : State) : (execRbInit rb n m s).NoFault := by
  unfold execRbInit
  dsimp only
  split_ifs
  · exact refused_noFault _
  · exact refused_noFault _
  · exact refused_noFault _
  · exact refused_noFault _
  · exact next_noFault _

theorem fcPack_noFault (op addr : Byte) (p : List Byte) (s : State) : (execFcPack op addr p s).NoFault := by
  unfold execFcPack
  split
  · exact next_noFault _
  · exact refused_noFault _

theorem fcStamp_noFault (image : List Byte) (s : State) : (execFcStamp image s).NoFault := by
  unfold execFcStamp
  split
  · exact next_noFault _
  · exact refused_noFault _

theorem psRx_noFault (c : Nat) (bytes : List Byte) (s : State) : (execPsRx c bytes s).NoFault :=
  onParser_noFault fun ch => by
    dsimp only
    split_ifs
    · exact refused_noFault _
    · exact next_noFault _
    · exact next_noFault _
    · exact refused_noFault _

/-! ### Operations that do, under the invariant -/

theorem State.Wf.ring (hs : s.Wf) {r : Ring} (hr : s.ring? rb = some r) : r.Wf :=
  ((State.wf_iff.1 hs).2 rb r hr).1

theorem pollingGet_noFault (hs : s.Wf) (who : Agent) (rb : RingId) (n : Nat) :
    (pollingGet who rb n s).NoFault := onRing_noFault fun _ hr =>
  taken_noFault (hs.ring hr) (Nat.min_le_right _ _) fun _ _ => next_noFault _

theorem blockingGet_noFault (hs : s.Wf) (who : Agent) (rb : RingId) (n : Nat) :
    (blockingGet who rb n s).NoFault := onRing_noFault fun r hr => by
  split
  · exact taken_noFault (hs.ring hr) ‹_› fun _ _ => next_noFault _
  · split <;> exact next_noFault _

theorem get_noFault (hs : s.Wf) (who : Agent) (rb : RingId) (n : Nat) : (get who rb n s).NoFault :=
  onRing_noFault fun r _ => by
    split
    · exact pollingGet_noFault hs _ _ _
    · exact blockingGet_noFault hs _ _ _

theorem txTake_noFault (hs : s.Wf) (c : Nat) (w : Which) : (txTake c w s).NoFault :=
  onRing_noFault fun r hr => by
    split
    · refine taken_noFault (hs.ring hr) ‹_› fun out u => ?_
      split
      · exact refused_noFault _
      · exact send_noFault _ _ _ _ _
    · split <;> exact next_noFault _

theorem rerun_noFault (hs : s.Wf) (rb : RingId) (h : Held) : (rerun rb h s).NoFault := by
  cases h with
  | put who d => exact blockingPut_noFault who rb d s
  | get who n => exact blockingGet_noFault hs who rb n
  | txGet c w => exact txTake_noFault hs c w

/-- A held request that leaves `PENDING` leaves a state that meets the invariant, in which it is run again. -/
theorem resume_noFault (hs : s.Wf) (rb : RingId) (k : Nat) : (resume rb k s).NoFault := by
  unfold resume
  split
  · exact next_noFault s
  · rename_i r hr
    split
    · exact next_noFault s
    · split
      · exact rerun_noFault (move_wf hs (.release (L := fun _ => True) k trivial hr)) rb _
      · exact next_noFault s

theorem resume_wf {t : State} {k : Nat} (hs : s.Wf) (h : resume rb k s = .next t) : t.Wf :=
  moves_wf (L := fun _ => True) hs
    (resume_moves trivial (fun _ _ x _ => by cases x <;> exact trivial) h)

theorem releaseHeld_noFault (hs : s.Wf) (rb : RingId) (n : Nat) : (releaseHeld rb n s).NoFault := by
  induction n generalizing s with
  | zero => exact next_noFault s
  | succ n ih =>
    unfold releaseHeld
    split
    · exact next_noFault s
    · have hs' : State.Wf { s with releaseOrder := s.releaseOrder.tail } := State.wf_congr rfl rfl hs
      exact andThen_noFault (resume_noFault hs' rb _) fun u hu => ih (resume_wf hs' hu)

theorem shutdown_noFault (hs : s.Wf) (rb : RingId) : (execRbShutdown rb s).NoFault :=
  onRing_noFault fun _ hr => releaseHeld_noFault ((hs.setShut hr).reply _ _ _ _) rb _

/-- Under the invariant no meaning faults. -/
theorem exec_noFault (hs : s.Wf) (i : Instr) : Answer.NoFault (exec i s) := by
  cases i with
  | rbInit rb n m => exact rbInit_noFault rb n m s
  | rbPutPolling rb d | rbPutBlocking rb d => exact put_noFault _ _ _ _
  | rbGetPolling rb n | rbGetBlocking rb n => exact get_noFault hs _ _ _
  | rbPutForce rb d =>
    refine onRing_noFault fun r _ => ?_
    split
    · exact refused_noFault _
    · exact next_noFault _
  | rbDataLen rb | rbSpaceLen rb | rbStatus rb => exact onRing_noFault fun _ _ => next_noFault _
  | rbShutdown rb => exact shutdown_noFault hs rb
  | fcPack op a p => exact fcPack_noFault op a p s
  | fcStamp image => exact fcStamp_noFault image s
  | fcParse fmt bytes => exact next_noFault _
  | psRx c bytes => exact psRx_noFault c bytes s
  | psReset c => exact onChain_noFault fun _ => next_noFault _
  | psWant c => exact onParser_noFault fun _ => next_noFault _
  | dspStep c => exact dsp_noFault c s
  | txStep c w =>
    refine onChain_noFault fun ch => ?_
    split
    · exact next_noFault _
    · exact txTake_noFault hs c w
  | _ => exact receive_noFault _ _ _

theorem step_ioctl {rest : List Turn} {who : Agent} {c : Nat} {op addr : Byte} {p : List Byte}
    (h : s.turns = .ioctl who c op addr p :: rest) :
    step s = ioctl who c op addr p { s with turns := rest, who := who } := by
  unfold step fetch; rw [h]

theorem undecoded_noFault (line : Line) (e : DecodeError) (s : State) : (undecoded line e s).NoFault := by
  cases line with
  | wire c bytes => exact receive_noFault c bytes s
  | op sel args => exact refused_noFault _

/-- Under the invariant no step faults, turn by turn. -/
theorem step_noFault (hs : s.Wf) : Answer.NoFault (step s) := by
  cases ht : s.turns with
  | nil => rw [step_no_turn ht]; exact next_noFault s
  | cons turn rest =>
    cases turn with
    | request who line =>
      cases hd : decode s.ctx line with
      | ok i =>
        rw [step_request_decoded ht hd]
        exact exec_noFault (s := { s with turns := rest, who := who }) (State.wf_congr rfl rfl hs) i
      | error e => rw [step_request_undecoded ht hd]; exact undecoded_noFault line e _
    | resume rb k =>
      rw [step_resume ht]
      exact resume_noFault (s := { s with turns := rest }) (State.wf_congr rfl rfl hs) rb k
    | arrive c bytes => rw [step_arrive ht]; exact arrive_noFault c bytes _
    | ioctl who c op addr p => rw [step_ioctl ht]; exact ioctl_noFault who c op addr p _

end noFault

/-- Settles O11: a run keeps the invariant, and under the invariant no step faults. -/
theorem invariantMeansNoFault : Obligations.InvariantMeansNoFault :=
  fun _ hs _ run => step_noFault (run.wf hs)

end Sys2Proof.Machine

namespace Sys2Proof.Machine

/-! ## What no step takes back (10_state.md R14, R15, R22, R25, R31, R32; 70_reset_and_hazards.md R183) -/

/-- A later form of a ring: of the same capacity and policy, and shut down if it was. -/
abbrev Ring.Onward (r r' : Ring) : Prop :=
  r'.size = r.size ∧ r'.mode = r.mode ∧ (r.shut = true → r'.shut = true)

/-- A later form of a chain: of the same configuration, with no fewer protocol errors and no agent running again. -/
structure Chain.Onward (ch ch' : Chain) : Prop where
  fmt : ch'.parser.fmt = ch.parser.fmt
  chainId : ch'.parser.chainId = ch.parser.chainId
  aborted : ch'.aborted = ch.aborted
  protoErr : ch.parser.protoErr ≤ ch'.parser.protoErr
  rxStopped : ch.rxStopped = true → ch'.rxStopped = true
  workStopped : ch.workStopped = true → ch'.workStopped = true
  dlStopped : ch.dlStopped = true → ch'.dlStopped = true

/-- A later state of the block: the same parameters, and a later form of every ring and every chain there was. -/
structure State.Onward (s t : State) : Prop where
  params : t.params = s.params
  length : t.chains.length = s.chains.length
  ring : ∀ (rb : RingId) (r : Ring), s.ring? rb = some r → ∃ r', t.ring? rb = some r' ∧ r.Onward r'
  chain : ∀ (c : Nat) (ch : Chain), s.chains[c]? = some ch → ∃ ch', t.chains[c]? = some ch' ∧ ch.Onward ch'

theorem Ring.Onward.refl (r : Ring) : r.Onward r := ⟨rfl, rfl, id⟩

theorem Ring.Onward.trans {r r' r'' : Ring} (h : r.Onward r') (k : r'.Onward r'') : r.Onward r'' := by
  obtain ⟨hsize, hmode, hshut⟩ := h
  obtain ⟨ksize, kmode, kshut⟩ := k
  exact ⟨ksize.trans hsize, kmode.trans hmode, kshut ∘ hshut⟩

theorem Chain.Onward.refl (ch : Chain) : ch.Onward ch := ⟨rfl, rfl, rfl, Nat.le_refl _, id, id, id⟩

theorem Chain.Onward.trans {ch ch' ch'' : Chain} (h : ch.Onward ch') (k : ch'.Onward ch'') : ch.Onward ch'' where
  fmt := k.fmt.trans h.fmt
  chainId := k.chainId.trans h.chainId
  aborted := k.aborted.trans h.aborted
  protoErr := h.protoErr.trans k.protoErr
  rxStopped := k.rxStopped ∘ h.rxStopped
  workStopped := k.workStopped ∘ h.workStopped
  dlStopped := k.dlStopped ∘ h.dlStopped

theorem rbLoad_onward {r r' : Ring} {k : Nat} {out : List Byte} (h : rbLoad r k = some (out, r')) :
    r.Onward r' := by
  obtain ⟨hsize, hmode, -, -, -, hshut, -⟩ := rbLoad_keeps h
  exact ⟨hsize, hmode, hshut.trans⟩

/-- Replacing a ring of a chain leaves the rest of it. -/
theorem Chain.setRing_onward (ch : Chain) (rb : RingId) (r : Ring) : ch.Onward (ch.setRing rb r) := by
  constructor <;> simp

/-- A run flag is only ever set. -/
theorem Chain.stopped_onward (ch : Chain) (who : Agent) : ch.Onward (ch.stopped who) := by
  match who with
  | .host _ => exact .refl ch
  | .rx _ => exact ⟨rfl, rfl, rfl, Nat.le_refl _, fun _ => rfl, id, id⟩
  | .tx _ .work => exact ⟨rfl, rfl, rfl, Nat.le_refl _, id, fun _ => rfl, id⟩
  | .tx _ .dl => exact ⟨rfl, rfl, rfl, Nat.le_refl _, id, id, fun _ => rfl⟩

section onward
variable {L : Option Nat → Prop} {s t u : State}

theorem State.Onward.trans (h : s.Onward t) (k : t.Onward u) : s.Onward u where
  params := k.params.trans h.params
  length := k.length.trans h.length
  ring rb r hr := by
    obtain ⟨r1, hr1, h1⟩ := h.ring rb r hr
    obtain ⟨r2, hr2, h2⟩ := k.ring rb r1 hr1
    exact ⟨r2, hr2, h1.trans h2⟩
  chain c ch hc := by
    obtain ⟨ch1, hc1, h1⟩ := h.chain c ch hc
    obtain ⟨ch2, hc2, h2⟩ := k.chain c ch1 hc1
    exact ⟨ch2, hc2, h1.trans h2⟩

theorem State.Onward.of_eq (hparams : t.params = s.params) (hc : t.chains = s.chains) (hp : t.pmon = s.pmon) :
    s.Onward t where
  params := hparams
  length := by rw [hc]
  ring rb r hr := ⟨r, by unfold State.ring? at *; rw [hc, hp]; exact hr, .refl r⟩
  chain c ch h := ⟨ch, by rw [hc, h], .refl ch⟩

theorem State.Onward.refl (s : State) : s.Onward s := .of_eq rfl rfl rfl

theorem State.Onward.reply (h : s.Onward t) (who : Agent) (res : Result) (ev : Event) (m : Moved) :
    s.Onward (t.reply who res ev m) := h.trans (.of_eq rfl rfl rfl)

/-- A ring may be made where there was none, or give way to a later form of itself. -/
theorem onward_setRing {rb : RingId} {r' : Ring} (h : ∀ r, s.ring? rb = some r → r.Onward r') :
    s.Onward (s.setRing rb r') where
  params := setRing_params s rb r'
  length := setRing_length s rb r'
  ring rb' r hr := by
    by_cases e : rb' = rb
    · subst e
      exact ⟨r', ring?_setRing_same (named_of_ring? hr), h r hr⟩
    · exact ⟨r, (ring?_setRing_other e).trans hr, .refl r⟩
  chain c ch hc := by
    by_cases e : chainOf rb = some c
    · exact ⟨_, setRing_chains_same e hc, ch.setRing_onward rb r'⟩
    · exact ⟨ch, (setRing_chains_other e).trans hc, .refl ch⟩

theorem onward_setRing_of {rb : RingId} {r r' : Ring} (hr : s.ring? rb = some r) (h : r.Onward r') :
    s.Onward (s.setRing rb r') := onward_setRing fun q hq => by
  obtain rfl : r = q := Option.some.inj (hr.symm.trans hq)
  exact h

/-- A chain may give way to a later form of itself with the same rings. -/
theorem onward_setChain {c : Nat} {ch ch' : Chain} (hc : s.chains[c]? = some ch) (h : ch.Onward ch')
    (hr : ∀ rb, ch'.ring? rb = ch.ring? rb) : s.Onward (s.setChain c ch') where
  params := rfl
  length := setChain_length s c ch'
  ring rb r hrb := by
    refine ⟨r, ?_, .refl r⟩
    by_cases e : chainOf rb = some c
    · rw [ring?_setChain_same e hc, hr, ← ring?_of_chain e hc, hrb]
    · rw [ring?_setChain_other e, hrb]
  chain d dh hd := by
    by_cases e : d = c
    · subst e
      obtain rfl : ch = dh := Option.some.inj (hc.symm.trans hd)
      exact ⟨ch', setChain_chains_same hc, h⟩
    · exact ⟨dh, (setChain_chains_other e).trans hd, .refl dh⟩

theorem onward_stopAgent (s : State) (who : Agent) : s.Onward (s.stopAgent who) := by
  rcases stopAgent_cases s who with e | ⟨c, ch, -, hc, e⟩
  · rw [e]; exact .refl s
  · rw [e]
    exact onward_setChain hc (ch.stopped_onward who) fun rb => Chain.stopped_ring? who ch rb

/-- One move takes nothing back. -/
theorem move_onward (m : Move L s t) : s.Onward t := by
  cases m with
  | idle hparams hc hp _ => exact .of_eq hparams hc hp
  | told who res ev => exact (State.Onward.refl s).reply _ _ _ _
  | stop who => exact onward_stopAgent s who
  | store who res ev _ hr _ =>
    exact (onward_setRing_of hr ⟨by simp, by simp, by simp⟩).reply _ _ _ _
  | take who res ev _ hr _ ho => exact (onward_setRing_of hr (rbLoad_onward ho)).reply _ _ _ _
  | hold _ hr _ _ => exact onward_setRing_of hr ⟨rfl, rfl, id⟩
  | release k _ hr => exact onward_setRing_of hr ⟨rfl, rfl, id⟩
  | force who res ev _ hr _ =>
    exact (onward_setRing_of hr ⟨by simp, by simp, by simp⟩).reply _ _ _ _
  | make _ _ _ hr _ =>
    exact onward_setRing fun r hr' => by rw [hr] at hr'; cases hr'
  | parse _ hc _ _ _ hp =>
    obtain ⟨hfmt, hid, herr, -⟩ := parserStep_keeps hp
    exact onward_setChain hc ⟨hfmt, hid, rfl, herr, id, id, id⟩ fun rb => by cases rb <;> rfl
  | reset _ hc _ =>
    exact onward_setChain hc ⟨rfl, rfl, rfl, Nat.le_refl _, id, id, id⟩ fun rb => by cases rb <;> rfl
  | stream rxs txs answers _ hc _ =>
    exact onward_setChain hc ⟨rfl, rfl, rfl, Nat.le_refl _, id, id, id⟩ fun rb => by cases rb <;> rfl

theorem step_onward (h : step s = .next t) : s.Onward t :=
  step_keeps (P := s.Onward) (fun _ _ m k => k.trans (move_onward m))
    (fun _ _ _ hr k => k.trans (onward_setRing_of hr ⟨rfl, rfl, fun _ => rfl⟩)) (.refl s) h

/-- A chain that has been shut down stays so, since each of its rings does (70_reset_and_hazards.md R183). -/
theorem State.Onward.shutDown (h : s.Onward t) {c : Nat} {ch ch' : Chain} (hc : s.chains[c]? = some ch)
    (hc' : t.chains[c]? = some ch') (hs : ch.shutDown = true) : ch'.shutDown = true := by
  refine (shutDown_iff c).2 fun rb hrb => ?_
  obtain ⟨r, hr, hshut⟩ := (shutDown_iff c).1 hs rb hrb
  obtain ⟨r', hr', -, -, hshut'⟩ := h.ring rb r ((ring?_of_chain hrb hc).trans hr)
  exact ⟨r', (ring?_of_chain hrb hc').symm.trans hr', hshut' hshut⟩

end onward

/-- Settles O12: of what no step takes back, the part that is configuration. -/
theorem stepKeepsTheConfiguration : Obligations.StepKeepsTheConfiguration := by
  intro s t h
  have k := step_onward h
  refine ⟨k.params, k.length, fun rb r hr => ?_, fun c ch hc => ?_⟩
  · obtain ⟨r', hr', hsize, hmode, -⟩ := k.ring rb r hr
    exact ⟨r', hr', hsize, hmode⟩
  · obtain ⟨ch', hc', hch⟩ := k.chain c ch hc
    exact ⟨ch', hc', hch.fmt, hch.chainId, hch.aborted⟩

/-- Settles O13: of what no step takes back, the flags and the error count. -/
theorem oneWayStateNeverGoesBack : Obligations.OneWayStateNeverGoesBack := by
  intro s t h
  have k := step_onward h
  refine ⟨fun rb r hr hs => ?_, fun c ch hc => ?_⟩
  · obtain ⟨r', hr', -, -, hshut⟩ := k.ring rb r hr
    exact ⟨r', hr', hshut hs⟩
  · obtain ⟨ch', hc', hch⟩ := k.chain c ch hc
    exact ⟨ch', hc', hch.protoErr, hch.rxStopped, hch.workStopped, hch.dlStopped, k.shutDown hc hc'⟩

/-- Settles O14: the count never falls, and the read-out is its minimum with the largest number of `CNT_W` bits. -/
theorem errorCounterSaturates : Obligations.ErrorCounterSaturates := by
  intro s t c ch h hc
  have k := step_onward h
  obtain ⟨ch', hc', hch⟩ := k.chain c ch hc
  have hcount := hch.protoErr
  have hpos : 0 < 2 ^ s.params.cntW := Nat.two_pow_pos _
  refine ⟨ch', hc', ?_⟩
  simp only [Parser.protoErrShown, k.params]
  omega

end Sys2Proof.Machine

namespace Sys2Proof.Machine

/-- Settles O30: by the order of the cursors, which under the invariant decides the mirrors unless the cursors are equal. -/
theorem dataLenUnfoldsByCases : Obligations.DataLenUnfoldsByCases := by
  intro r h
  refine ⟨rfl, ?_⟩
  have ⟨_, _, hlt, hgt, _⟩ := h
  rw [Ring.dataLen_cases h.inBounds]
  obtain ⟨-, hri, hwi⟩ := h.inBounds
  rcases Nat.lt_trichotomy r.ri.toNat r.wi.toNat with c | c | c
  · have hne : r.wi ≠ r.ri := fun e => by rw [e] at c; omega
    rw [if_pos (hlt c).symm, if_pos c.le, if_neg hne, if_pos c]
  · rw [if_pos (BitVec.eq_of_toNat_eq c.symm)]
    by_cases m : r.wm = r.rm
    · rw [if_pos m.symm, if_pos c.le, if_pos m]; omega
    · rw [if_neg (Ne.symm m), if_neg m]; omega
  · have hne : r.wi ≠ r.ri := fun e => by rw [e] at c; omega
    rw [if_neg (Ne.symm (hgt c)), if_neg hne, if_neg (by omega)]; omega

end Sys2Proof.Machine

namespace Sys2Proof.Machine

/-! ## What a transition reads of a parser (10_state.md R28, R30 c) -/

/-- A parser without its counters and without the bytes of `SCR` at `ACC` or above. -/
structure Parser.View where
  fmt : Fmt
  chainId : Byte
  ps : PState
  frame : List Byte

/-- What a transition can see of a parser. -/
def Parser.view (p : Parser) : Parser.View := ⟨p.fmt, p.chainId, p.ps, p.frame⟩

/-- The reset condition, in the view. -/
def Parser.View.restart (v : Parser.View) : Parser.View := { v with ps := .p1, frame := [] }

/-- `WANT` (10_state.md R29) from the view. -/
def Parser.View.want (v : Parser.View) : Nat :=
  match v.ps with
  | .p1 => 1
  | .p2 => 1
  | .hdr => v.fmt.headerLen - 2
  | .body => (v.frame.getD v.fmt.lenOff 0#8).toNat

/-- The transitions (42_parser.md R110 to R116) on the view: what they read is the frame under assembly and the read unit. -/
def Parser.View.step (params : Params) (v : Parser.View) (bytes : List Byte) : Parser.View × Event :=
  let f := v.frame ++ bytes
  match v.ps with
  | .p1 => if bytes = [v.fmt.p1] then ({ v with ps := .p2, frame := f }, .none) else (v, .none)
  | .p2 => if bytes = [v.fmt.p2] then ({ v with ps := .hdr, frame := f }, .none) else (v.restart, .none)
  | .hdr =>
    if f.getD v.fmt.lenOff 0#8 = 0#8 then (v.restart, judge params v.fmt v.chainId f)
    else ({ v with ps := .body, frame := f }, .none)
  | .body => (v.restart, judge params v.fmt v.chainId f)

section step
variable (params : Params) (fmt : Fmt) (chainId : Byte) (f : List Byte)

theorem Parser.View.step_p1 (b : Byte) : Parser.View.step params ⟨fmt, chainId, .p1, f⟩ [b] =
    if b = fmt.p1 then (⟨fmt, chainId, .p2, f ++ [b]⟩, .none) else (⟨fmt, chainId, .p1, f⟩, .none) := by
  simp only [Parser.View.step, List.singleton_inj]

theorem Parser.View.step_p2 (b : Byte) : Parser.View.step params ⟨fmt, chainId, .p2, f⟩ [b] =
    if b = fmt.p2 then (⟨fmt, chainId, .hdr, f ++ [b]⟩, .none) else (⟨fmt, chainId, .p1, []⟩, .none) := by
  simp only [Parser.View.step, List.singleton_inj, Parser.View.restart]

theorem Parser.View.step_hdr (bytes : List Byte) : Parser.View.step params ⟨fmt, chainId, .hdr, f⟩ bytes =
    if (f ++ bytes).getD fmt.lenOff 0#8 = 0#8 then
      (⟨fmt, chainId, .p1, []⟩, judge params fmt chainId (f ++ bytes))
    else (⟨fmt, chainId, .body, f ++ bytes⟩, .none) := rfl

end step

theorem Parser.view_eq {p : Parser} {ps : PState} {f : List Byte} (hp : p.ps = ps) (hf : p.frame = f) :
    p.view = ⟨p.fmt, p.chainId, ps, f⟩ := by
  subst hp hf; rfl

/-- Nothing is under assembly where `ACC` is 0. -/
theorem Parser.frame_of_acc_zero {p : Parser} (ha : p.acc = 0#10) : p.frame = [] := by
  unfold Parser.frame
  rw [ha]; rfl

theorem Parser.view_toReset (p : Parser) : p.toReset.view = p.view.restart :=
  Parser.view_eq rfl (Parser.frame_of_acc_zero rfl)

theorem Parser.view_judged (p : Parser) (scr : Scr) (ev : Event) : (p.judged scr ev).view = p.view.restart :=
  Parser.view_eq rfl (Parser.frame_of_acc_zero rfl)

/-- Accumulating at `ACC` appends the read unit to the frame under assembly. -/
theorem Parser.view_accumulate {p : Parser} {f bytes : List Byte} {n : Nat} (ps : PState) (h : p.frame = f)
    (hn : n = f.length + bytes.length) (hb : n < 1024) :
    ({ p.accumulate f.length bytes n with ps := ps } : Parser).view = ⟨p.fmt, p.chainId, ps, f ++ bytes⟩ :=
  Parser.view_eq rfl (frame_accumulate h hn hb)

/-- `WANT` reads nothing outside the view. -/
theorem Parser.Wf.want_view {p : Parser} (h : p.Wf) : p.want = p.view.want := by
  unfold Parser.want Parser.View.want Parser.view
  cases hp : p.ps with
  | p1 | p2 | hdr => rfl
  | body =>
    obtain ⟨-, -, -, hlen, -⟩ := h.frame_body hp
    exact hlen

/-- A transition on a read unit of `WANT` bytes is the transition on the view. -/
theorem parserStep_view {params : Params} {p : Parser} {bytes : List Byte} (h : p.Wf)
    (hb : bytes.length = p.want) :
    ((parserStep params p bytes).1.view, (parserStep params p bytes).2) = p.view.step params bytes := by
  have hh := p.fmt.headerLen_pos
  obtain ⟨-, hw⟩ := h.want_range
  cases hp : p.ps with
  | p1 =>
    obtain ⟨b, rfl⟩ := unit_of_want_one hb (.inl hp)
    have hf := Parser.frame_of_acc_zero (h.2.1 hp)
    rw [parserStep_p1 hp, Parser.view_eq hp hf]
    by_cases c : b = p.fmt.p1
    · rw [if_pos c, Parser.View.step_p1, if_pos c]
      exact Prod.ext (Parser.view_accumulate (f := []) _ hf rfl (by decide)) rfl
    · rw [if_neg c, Parser.View.step_p1, if_neg c]
      exact Prod.ext (Parser.view_eq hp hf) rfl
  | p2 =>
    obtain ⟨b, rfl⟩ := unit_of_want_one hb (.inr hp)
    have hf := h.frame_p2 hp
    rw [parserStep_p2 hp, Parser.view_eq hp hf]
    by_cases c : b = p.fmt.p2
    · rw [if_pos c, Parser.View.step_p2, if_pos c]
      exact Prod.ext (Parser.view_accumulate (f := [p.fmt.p1]) _ hf rfl (by decide)) rfl
    · rw [if_neg c, Parser.View.step_p2, if_neg c]
      exact Prod.ext p.view_toReset rfl
  | hdr =>
    have hb' : bytes.length = p.fmt.headerLen - 2 := hb.trans (by unfold Parser.want; rw [hp])
    have hf := h.frame_hdr hp
    rw [parserStep_hdr h hp hb', Parser.view_eq hp hf]
    dsimp only
    by_cases c : ([p.fmt.p1, p.fmt.p2] ++ bytes).getD p.fmt.lenOff 0#8 = 0#8
    · rw [if_pos c, Parser.View.step_hdr, if_pos c]
      exact Prod.ext (Parser.view_judged _ _ _) rfl
    · rw [if_neg c, Parser.View.step_hdr, if_neg c]
      exact Prod.ext (Parser.view_accumulate (f := [p.fmt.p1, p.fmt.p2]) _ hf (by simp; omega) (by omega)) rfl
  | body =>
    obtain ⟨hlen, -⟩ := h.frame_body hp
    rw [parserStep_body hp rfl hlen (by omega), Parser.view_eq hp rfl]
    exact Prod.ext (Parser.view_judged _ _ _) rfl

/-- Settles O46: two parsers that differ only outside the view want the same bytes and take the same transition on it. -/
theorem parserIgnoresStaleScratch : Obligations.ParserIgnoresStaleScratch := by
  intro params p q bytes hp hq hfmt hid hps hframe hw p' q'
  have hv : q.view = p.view := by unfold Parser.view; rw [hfmt, hid, hps, hframe]
  have hwq : q.want = bytes.length := by rw [hq.want_view, hv, ← hp.want_view, hw]
  have hstep : (q'.1.view, q'.2) = (p'.1.view, p'.2) := by
    rw [parserStep_view hq hwq.symm, parserStep_view hp hw.symm, hv]
  obtain ⟨hview, hev⟩ := Prod.mk.inj hstep
  obtain ⟨hfmt', hid', hps', hframe'⟩ := Parser.View.mk.inj hview
  exact ⟨hwq, hev, hfmt', hid', hps', hframe'⟩

end Sys2Proof.Machine

namespace Sys2Proof.Machine

/-! ## The block after the initialisation (10_state.md R36, 70_reset_and_hazards.md R179, R180) -/

/-- The block that the initialisation leaves, but for its replies. -/
def State.booted (b : BootConfig) (reps : List Reply) : State :=
  .booting b.params (some (Ring.fresh (roundSize b.params b.pmonReq) b.pmonMode))
    (b.chains.map (Chain.started b.params)) reps

/-- Where the initialisation starts the block it leaves this one, and every size was legal. -/
theorem initialise_next {b : BootConfig} {s : State} (h : initialise b = .next s) :
    allSizesOk b ∧ ∃ reps, s = .booted b reps := by
  by_cases ht : b.params.WellTyped ∧ b.chains ≠ []
  · by_cases hl : FrameLengthOk b.params.workFrameLen ∧ FrameLengthOk b.params.dlFrameLen
    · rcases initialise_eq ht hl with ⟨hg, reps, e⟩ | ⟨-, e⟩
      · rw [e] at h; cases h; exact ⟨hg, reps, rfl⟩
      · rw [e] at h; cases h
    · rw [initialise_badFrameLength ht hl] at h; cases h
  · rw [initialise_badParameter ht] at h; cases h

section booted
variable {b : BootConfig} {reps : List Reply} {rb : RingId} {c : Nat} {k : ChainConfig}

theorem Ring.fresh_dataLen (n : Nat) (m : Mode) : (Ring.fresh n m).dataLen = 0 := by
  simp [Ring.dataLen, Ring.fresh, Ring.ew, Ring.er]

theorem Chain.started_of_opens {p : Params} (h : k.opens = true) : Chain.started p k = Chain.reset p k :=
  if_pos h

theorem Chain.started_of_not_opens {p : Params} (h : k.opens = false) :
    Chain.started p k = { Chain.blank k.chainId with aborted := true } := if_neg (by simp [h])

theorem booted_chain (h : b.chains[c]? = some k) :
    (State.booted b reps).chains[c]? = some (Chain.started b.params k) := by
  simp [State.booted, State.booting, h]

theorem booted_chain_inv {ch : Chain} (h : (State.booted b reps).chains[c]? = some ch) :
    ∃ k ∈ b.chains, ch = Chain.started b.params k := by
  obtain ⟨k, hk, rfl⟩ := List.mem_map.1 (List.mem_of_getElem? h)
  exact ⟨k, hk, rfl⟩

/-- A ring of a chain whose transport opened. -/
theorem booted_ring (h : b.chains[c]? = some k) (ho : k.opens = true) (hrb : chainOf rb = some c) :
    (State.booted b reps).ring? rb = (Chain.reset b.params k).ring? rb := by
  rw [ring?_of_chain hrb (booted_chain h), Chain.started_of_opens ho]

/-- The parser of a chain is in its reset condition, whether it was started or not. -/
theorem Chain.started_parser_wf (p : Params) (k : ChainConfig) : (Chain.started p k).parser.Wf := by
  unfold Chain.started
  split
  · exact Parser.wf_reset ⟨List.Pairwise.nil, nofun⟩ rfl rfl
  · exact Parser.wf_reset ⟨List.Pairwise.nil, nofun⟩ rfl rfl

/-- A ring of a chain after the initialisation is as `RB.INIT` made it. -/
theorem Chain.started_ring {p : Params} {r : Ring} (hs : sizesOk p k) (h : (Chain.started p k).ring? rb = some r) :
    ∃ n m, ¬ BadSize n ∧ r = Ring.fresh n m := by
  unfold Chain.started at h
  obtain ⟨hnonce, hreg, hwork, hdl⟩ := sizesOk_iff.1 hs
  split at h
  · cases rb with
    | nonce => cases h; exact ⟨_, _, hnonce, rfl⟩
    | reg => cases h; exact ⟨_, _, hreg, rfl⟩
    | work => cases h; exact ⟨_, _, hwork, rfl⟩
    | dl => cases h; exact ⟨_, _, hdl, rfl⟩
    | pmon => cases h
  · cases rb <;> cases h

/-- Every ring after the initialisation is as `RB.INIT` made it. -/
theorem booted_ring_fresh {r : Ring} (hs : allSizesOk b) (h : (State.booted b reps).ring? rb = some r) :
    ∃ n m, ¬ BadSize n ∧ r = Ring.fresh n m := by
  obtain ⟨hpmon, hchains⟩ := hs
  rcases named_iff.1 (named_of_ring? h) with hc | ⟨c, ch, hc, hch⟩
  · cases rb <;> cases hc
    cases h
    exact ⟨_, _, hpmon, rfl⟩
  · obtain ⟨k, hk, rfl⟩ := booted_chain_inv hch
    rw [ring?_of_chain hc hch] at h
    exact Chain.started_ring (hchains k hk) h

theorem booted_wf (hs : allSizesOk b) : (State.booted b reps).Wf := by
  refine State.wf_iff.2 ⟨fun c ch hc => ?_, fun rb r hr => ?_⟩
  · obtain ⟨k, -, rfl⟩ := booted_chain_inv hc
    exact Chain.started_parser_wf b.params k
  · obtain ⟨n, m, hn, rfl⟩ := booted_ring_fresh hs hr
    exact ⟨Ring.fresh_wf hn, nofun⟩

theorem booted_quiet (hs : allSizesOk b) : (State.booted b reps).Quiet := by
  intro rb r hr _
  obtain ⟨n, m, -, rfl⟩ := booted_ring_fresh hs hr
  rfl

/-- Every ring there can be exists, but for those of a chain whose transport failed to open (60_exceptions.md R177). -/
theorem booted_complete (b : BootConfig) (reps : List Reply) : (State.booted b reps).Complete := by
  refine ⟨rfl, fun ch hch => ?_⟩
  obtain ⟨k, -, rfl⟩ := List.mem_map.1 hch
  cases ho : k.opens with
  | true => rw [Chain.started_of_opens ho]; exact ⟨rfl, rfl, rfl, rfl⟩
  | false => rw [Chain.started_of_not_opens ho]; exact ⟨rfl, rfl, rfl, rfl, rfl⟩

end booted

/-- Settles O6: the table read off the block that the initialisation leaves, for a chain whose transport opened and for one
whose transport did not. -/
theorem initialisationFillsTheResetTable : Obligations.InitialisationFillsTheResetTable := by
  intro b s h made
  obtain ⟨-, reps, rfl⟩ := initialise_next h
  have made_of_fresh : ∀ rb n m, (State.booted b reps).ring? rb = some (Ring.fresh (roundSize b.params n) m) →
      made rb n m := fun rb n m hr =>
    ⟨_, hr, rfl, rfl, rfl, rfl, rfl, rfl, rfl, Ring.fresh_dataLen _ _, rfl, rfl⟩
  refine ⟨rfl, List.length_map .., booted_complete b reps, made_of_fresh .pmon _ _ rfl, fun c k hk => ?_⟩
  refine ⟨Chain.started b.params k, booted_chain hk, fun ho => ?_, fun ho => ?_⟩
  · rw [Chain.started_of_opens ho]
    exact ⟨made_of_fresh (.nonce c) _ _ (booted_ring hk ho rfl), made_of_fresh (.reg c) _ _ (booted_ring hk ho rfl),
      made_of_fresh (.work c) _ _ (booted_ring hk ho rfl), made_of_fresh (.dl c) _ _ (booted_ring hk ho rfl),
      rfl, rfl, rfl, rfl, rfl, rfl, rfl, fun _ _ => rfl, rfl, rfl, rfl⟩
  · rw [Chain.started_of_not_opens ho]
    exact ⟨rfl, rfl, rfl, rfl, rfl, rfl⟩

/-- The sizes that the model's configuration asks for are legal (assumption logs 4 and 5). -/
theorem allSizesOk_boot : allSizesOk Config.boot := by
  simp only [allSizesOk, sizesOk_iff]
  decide

/-- The reset state is the block that the initialisation leaves for the model's configuration. -/
theorem reset_eq_booted : State.reset = .booted Config.boot [] := rfl

/-- Settles O8: the model's configuration is one that the initialisation accepts. -/
theorem resetIsTheInitialisedBlock : Obligations.ResetIsTheInitialisedBlock := by
  rcases initialise_eq (b := Config.boot) (by decide) (by decide) with ⟨-, reps, h⟩ | ⟨hn, -⟩
  · exact ⟨_, h, reset_eq_booted⟩
  · exact absurd allSizesOk_boot hn

/-- Settles O9: what holds of every block that the initialisation leaves. -/
theorem resetMeetsTheInvariant : Obligations.ResetMeetsTheInvariant := by
  unfold Obligations.ResetMeetsTheInvariant
  rw [reset_eq_booted]
  exact ⟨booted_wf allSizesOk_boot, booted_quiet allSizesOk_boot, booted_complete _ _⟩

end Sys2Proof.Machine

namespace Sys2Proof.Machine

/-! ## A ring under new contents (20_memory.md R43) -/

/-- Settles O19: the named ring by `ring?_setRing_same`, the others by `ring?_setRing_other`, and the chains by what
replacing a ring leaves of each. -/
theorem settingAnInstanceLeavesTheRest : Obligations.SettingAnInstanceLeavesTheRest := by
  intro s rb r hn
  refine ⟨ring?_setRing_same hn, ⟨setRing_params s rb r, setRing_who s rb r, setRing_turns s rb r,
    setRing_releaseOrder s rb r, setRing_length s rb r, fun _ hne => ring?_setRing_other hne,
    fun c ch ch' hc hc' => ?_⟩, setRing_replies s rb r⟩
  obtain ⟨ch1, hc1, kept⟩ := setRing_chain_keeps (rb := rb) (r := r) hc
  obtain rfl : ch' = ch1 := Option.some.inj (hc'.symm.trans hc1)
  exact kept

end Sys2Proof.Machine

namespace Sys2Proof.Machine

/-! ## First in, first out (20_memory.md R47, R48; 40_ringbuffer.md R90 c) -/

/-! ### The record of completed operations -/

section moved
variable {rb rb' : RingId} {m : Moved} {content content' : List (Option Byte)}

theorem Moved.after_put_same (d : List Byte) :
    (Moved.put rb d).after rb content = some (content ++ d.map some) := by simp [Moved.after]

theorem Moved.after_put_other (h : rb ≠ rb') (d : List Byte) :
    (Moved.put rb' d).after rb content = some content := by simp [Moved.after, h.symm]

theorem Moved.after_got_same {d : List Byte} (h : content.take d.length = d.map some) :
    (Moved.got rb d).after rb content = some (content.drop d.length) := by simp [Moved.after, h]

theorem Moved.after_got_other (h : rb ≠ rb') (d : List Byte) :
    (Moved.got rb' d).after rb content = some content := by simp [Moved.after, h.symm]

theorem Moved.after_forced_same (d : List Byte) (n : Nat) :
    (Moved.forced rb d n).after rb content = some ((content ++ d.map some).drop n) := by simp [Moved.after]

theorem Moved.after_forced_other (h : rb ≠ rb') (d : List Byte) (n : Nat) :
    (Moved.forced rb' d n).after rb content = some content := by simp [Moved.after, h.symm]

/-- What was held, then what one operation accepted, is what it returned, then what is held. -/
theorem Moved.after_conserves (hu : m.unforced rb = true) (h : m.after rb content = some content') :
    content ++ (m.accepted rb).map some = (m.returned rb).map some ++ content' := by
  cases m with
  | nothing => cases h; simp [Moved.accepted, Moved.returned]
  | put rb' d =>
    by_cases e : rb = rb'
    · subst e
      rw [Moved.after_put_same] at h
      cases h; simp [Moved.accepted, Moved.returned]
    · rw [Moved.after_put_other e] at h
      cases h; simp [Moved.accepted, Moved.returned, Ne.symm e]
  | got rb' d =>
    by_cases e : rb = rb'
    · subst e
      by_cases front : content.take d.length = d.map some
      · rw [Moved.after_got_same front] at h
        cases h
        simp [Moved.accepted, Moved.returned, ← front]
      · rw [Moved.after, if_pos rfl, if_neg front] at h
        cases h
    · rw [Moved.after_got_other e] at h
      cases h; simp [Moved.accepted, Moved.returned, Ne.symm e]
  | forced rb' d n =>
    have e : rb ≠ rb' := (of_decide_eq_true hu).symm
    rw [Moved.after_forced_other e] at h
    cases h; simp [Moved.accepted, Moved.returned]

theorem replay_append (l l' : List Moved) :
    replay rb (l ++ l') content = (replay rb l content).bind (replay rb l') := by
  induction l generalizing content with
  | nil => rfl
  | cons m l ih => simp [replay, ih, Option.bind_assoc]

/-- The same of operations one after another, none of them forced. -/
theorem replay_conserves {l : List Moved} (hu : ∀ m ∈ l, m.unforced rb = true)
    (h : replay rb l content = some content') :
    content ++ (l.flatMap (Moved.accepted rb)).map some =
      (l.flatMap (Moved.returned rb)).map some ++ content' := by
  induction l generalizing content with
  | nil => cases h; simp
  | cons m l ih =>
    obtain ⟨mid, first, later⟩ := Option.bind_eq_some_iff.1 h
    have one := Moved.after_conserves (hu m List.mem_cons_self) first
    have more := ih (fun x hx => hu x (List.mem_cons_of_mem m hx)) later
    simp only [List.flatMap_cons, List.map_append]
    rw [← List.append_assoc, one, List.append_assoc, more, List.append_assoc]

end moved

/-! ### What copy-out and a forced put do to the contents -/

theorem rbLoad_content {r r' : Ring} {k : Nat} {out : List Byte} (h : r.Wf) (hk : k ≤ r.dataLen)
    (ho : rbLoad r k = some (out, r')) :
    r.content.take out.length = out.map some ∧ r'.content = r.content.drop out.length := by
  obtain ⟨out', ho', front⟩ := rbLoad_spec h hk
  obtain rfl : out = out' := congrArg Prod.fst (Option.some.inj (ho.symm.trans ho'))
  obtain ⟨rfl, -⟩ := rbLoad_wf h hk ho
  have hl : out.length = k := by simpa [Nat.min_eq_left hk] using congrArg List.length front
  rw [hl]
  exact ⟨front.symm, Ring.advance_content h hk⟩

/-- A forced put adds its bytes behind, and discards from the front as many as there was no room for (40_ringbuffer.md R91). -/
theorem forceInto_content {r : Ring} (h : r.Wf) {d : List Byte} (hd : d.length ≤ r.size) :
    (forceInto r d).content = (r.content ++ d.map some).drop (d.length - r.spaceLen) := by
  have hsum := h.data_add_space
  by_cases fits : d.length ≤ r.spaceLen
  · rw [forceInto_fits fits, rbStore_content h fits, Nat.sub_eq_zero_of_le fits, List.drop_zero]
  · obtain ⟨-, newest⟩ := forceInto_overflow h hd (Nat.lt_of_not_le fits)
    rw [newest]
    congr 1; omega

/-! ### The record tells the contents -/

/-- From `s` to `t` replies are only added, and what the added ones note, replayed on the contents of the ring `rb`, gives
its contents in `t`. -/
def State.RecordedTo (rb : RingId) (s t : State) : Prop :=
  ∃ new : List Reply, t.replies = new ++ s.replies ∧
    ∀ r, s.ring? rb = some r → ∃ r', t.ring? rb = some r' ∧
      replay rb (new.map Reply.moved).reverse r.content = some r'.content

section recorded
variable {L : Option Nat → Prop} {s t u : State} {rb rb' : RingId}

theorem State.RecordedTo.trans (h : s.RecordedTo rb t) (k : t.RecordedTo rb u) : s.RecordedTo rb u := by
  obtain ⟨new1, e1, h1⟩ := h
  obtain ⟨new2, e2, h2⟩ := k
  refine ⟨new2 ++ new1, by rw [e2, e1, List.append_assoc], fun r hr => ?_⟩
  obtain ⟨r1, hr1, p1⟩ := h1 r hr
  obtain ⟨r2, hr2, p2⟩ := h2 r1 hr1
  refine ⟨r2, hr2, ?_⟩
  rw [List.map_append, List.reverse_append, replay_append, p1, Option.bind_some, p2]

/-- No reply is given, and the contents stay. -/
theorem State.RecordedTo.of_silent (hreplies : t.replies = s.replies)
    (hring : ∀ r, s.ring? rb = some r → ∃ r', t.ring? rb = some r' ∧ r'.content = r.content) :
    s.RecordedTo rb t := by
  refine ⟨[], hreplies, fun r hr => ?_⟩
  obtain ⟨r', hr', e⟩ := hring r hr
  exact ⟨r', hr', congrArg some e.symm⟩

theorem State.RecordedTo.of_ring?_eq (hreplies : t.replies = s.replies) (hring : t.ring? rb = s.ring? rb) :
    s.RecordedTo rb t := .of_silent hreplies fun r hr => ⟨r, hring.trans hr, rfl⟩

theorem State.RecordedTo.refl (s : State) : s.RecordedTo rb s := .of_ring?_eq rfl rfl

/-- A reply that notes nothing. -/
theorem recordedTo_reply (s : State) (who : Agent) (res : Result) (ev : Event) :
    s.RecordedTo rb (s.reply who res ev) :=
  ⟨[⟨who, res, ev, .nothing⟩], rfl, fun r hr => ⟨r, hr, rfl⟩⟩

/-- A ring gets new contents, and the reply notes the operation that made them of the old ones. -/
theorem recordedTo_setRing_reply {r r' : Ring} {m : Moved} (who : Agent) (res : Result) (ev : Event)
    (hr : s.ring? rb' = some r) (same : m.after rb' r.content = some r'.content)
    (other : rb ≠ rb' → ∀ content, m.after rb content = some content) :
    s.RecordedTo rb ((s.setRing rb' r').reply who res ev m) := by
  refine ⟨[⟨who, res, ev, m⟩], by simp, fun q hq => ?_⟩
  have replay_one : ∀ content, replay rb [m] content = m.after rb content := fun content => by
    simp [replay]
  by_cases e : rb = rb'
  · subst e
    obtain rfl : r = q := Option.some.inj (hr.symm.trans hq)
    exact ⟨r', ring?_setRing_same (named_of_ring? hr), (replay_one _).trans same⟩
  · exact ⟨q, (ring?_setRing_other e).trans hq, (replay_one _).trans (other e _)⟩

/-- A ring's registers may change without a reply if its contents do not. -/
theorem recordedTo_setRing {r r' : Ring} (hr : s.ring? rb' = some r) (hc : r'.content = r.content) :
    s.RecordedTo rb (s.setRing rb' r') := by
  refine .of_silent (setRing_replies s rb' r') fun q hq => ?_
  by_cases e : rb = rb'
  · subst e
    obtain rfl : r = q := Option.some.inj (hr.symm.trans hq)
    exact ⟨r', ring?_setRing_same (named_of_ring? hr), hc⟩
  · exact ⟨q, (ring?_setRing_other e).trans hq, rfl⟩

/-- A chain with the same rings in the place of one changes no ring. -/
theorem ring?_setChain_sameRings {c : Nat} {ch ch' : Chain} (hc : s.chains[c]? = some ch)
    (h : ∀ rb, ch'.ring? rb = ch.ring? rb) : (s.setChain c ch').ring? rb = s.ring? rb := by
  by_cases e : chainOf rb = some c
  · rw [ring?_setChain_same e hc, h, ring?_of_chain e hc]
  · exact ring?_setChain_other e

/-- One move is recorded. -/
theorem move_recordedTo (hs : s.Wf) (m : Move L s t) : s.RecordedTo rb t := by
  cases m with
  | idle _ hc hp hreplies => exact .of_ring?_eq hreplies (by unfold State.ring?; rw [hc, hp])
  | told who res ev => exact recordedTo_reply s who res ev
  | stop who => exact .of_ring?_eq (stopAgent_replies s who) (stopAgent_ring? s who rb)
  | store who res ev _ hr hd =>
    exact recordedTo_setRing_reply who res ev hr
      (by rw [Moved.after_put_same, rbStore_content (hs.ring hr) hd])
      fun e _ => Moved.after_put_other e _
  | take who res ev _ hr hk ho =>
    obtain ⟨front, rest⟩ := rbLoad_content (hs.ring hr) hk ho
    exact recordedTo_setRing_reply who res ev hr (by rw [Moved.after_got_same front, rest])
      fun e _ => Moved.after_got_other e _
  | hold _ hr _ _ => exact recordedTo_setRing hr rfl
  | release k _ hr => exact recordedTo_setRing hr rfl
  | force who res ev _ hr hd =>
    exact recordedTo_setRing_reply who res ev hr
      (by rw [Moved.after_forced_same, forceInto_content (hs.ring hr) hd])
      fun e _ => Moved.after_forced_other e _ _
  | @make rb' n mode _ _ _ hr _ =>
    refine .of_silent (setRing_replies s rb' _) fun q hq => ?_
    have e : rb ≠ rb' := by
      rintro rfl
      rw [hr] at hq; cases hq
    exact ⟨q, (ring?_setRing_other e).trans hq, rfl⟩
  | parse _ hc _ _ _ _ => exact .of_ring?_eq rfl (ring?_setChain_sameRings hc fun rb => by cases rb <;> rfl)
  | reset _ hc _ => exact .of_ring?_eq rfl (ring?_setChain_sameRings hc fun rb => by cases rb <;> rfl)
  | stream _ _ _ _ hc _ => exact .of_ring?_eq rfl (ring?_setChain_sameRings hc fun rb => by cases rb <;> rfl)

/-- One step is recorded: its moves are, one after another, and setting `SHUT` moves no byte (40_ringbuffer.md R96). -/
theorem step_recordedTo (hs : s.Wf) (h : step s = .next t) : s.RecordedTo rb t := by
  have kept : t.Wf ∧ s.RecordedTo rb t :=
    step_keeps (P := fun u => u.Wf ∧ s.RecordedTo rb u)
      (fun _ _ m k => ⟨move_wf k.1 m, k.2.trans (move_recordedTo k.1 m)⟩)
      (fun _ _ _ hr k => ⟨k.1.setShut hr, k.2.trans (recordedTo_setRing hr rfl)⟩) ⟨hs, .refl s⟩ h
  exact kept.2

theorem Runs.recordedTo (hs : s.Wf) (h : Runs s t) : s.RecordedTo rb t := by
  induction h with
  | here => exact .refl s
  | more run h ih => exact ih.trans (step_recordedTo (run.wf hs) h)

end recorded

/-- Settles O32: a run is recorded, step by step and move by move, and a replay without forced puts conserves the bytes. -/
theorem bytesComeOutInTheOrderTheyWentIn : Obligations.BytesComeOutInTheOrderTheyWentIn := by
  intro s t rb r hs run hr
  obtain ⟨new, hreplies, contents⟩ := run.recordedTo (rb := rb) hs
  obtain ⟨r', hr', replayed⟩ := contents r hr
  exact ⟨new, r', hreplies, hr', replayed, fun unforced => replay_conserves unforced replayed⟩

end Sys2Proof.Machine

namespace Sys2Proof.Machine

/-! ## Held requests go on when they can (20_memory.md R52; 60_exceptions.md R166, R167) -/

/-! ### What the blocking operations answer on a ring that exists -/

section answers
variable {s : State} {rb : RingId} {r : Ring}

/-- A blocking put with room for all of it completes whole (40_ringbuffer.md R86). -/
theorem blockingPut_fits {d : List Byte} (who : Agent) (hr : s.ring? rb = some r) (hw : r.Wf)
    (hd : d.length ≤ r.spaceLen) : ∃ r', r.Stored r' d ∧
      blockingPut who rb d s = .next ((s.setRing rb r').reply who (.count d.length) .none (.put rb d)) := by
  refine ⟨_, rbStore_stored hw hd, ?_⟩
  unfold blockingPut; rw [onRing_some hr, if_pos hd]; rfl

/-- A blocking put without room is cancelled where the ring is shut down (R86, R97). -/
theorem blockingPut_cancelled {d : List Byte} (who : Agent) (hr : s.ring? rb = some r)
    (hd : r.spaceLen < d.length) (hs : r.shut = true) :
    blockingPut who rb d s = .next (s.cancel who (.count 0)) := by
  unfold blockingPut; rw [onRing_some hr, if_neg (Nat.not_le.2 hd), if_pos hs]

/-- A blocking get of bytes that are there completes whole (R88). -/
theorem blockingGet_fits {n : Nat} (who : Agent) (hr : s.ring? rb = some r) (hw : r.Wf)
    (hn : n ≤ r.dataLen) : ∃ r' out, r.Taken r' n out ∧
      blockingGet who rb n s = .next ((s.setRing rb r').reply who (.data out) .none (.got rb out)) := by
  obtain ⟨r', out, taken, answer⟩ := taken_all (s := s) (rb := rb) hw hn
  refine ⟨r', out, taken, ?_⟩
  unfold blockingGet; rw [onRing_some hr, if_pos hn, answer]

/-- A blocking get of more than is there is cancelled where the ring is shut down (R88, R97). -/
theorem blockingGet_cancelled {n : Nat} (who : Agent) (hr : s.ring? rb = some r) (hn : r.dataLen < n)
    (hs : r.shut = true) : blockingGet who rb n s = .next (s.cancel who (.data [])) := by
  unfold blockingGet; rw [onRing_some hr, if_neg (Nat.not_le.2 hn), if_pos hs]

theorem accepted_all (frame : List Byte) : accepted none frame = frame.length := rfl

theorem accepted_enough {k : Nat} {frame : List Byte} (h : frame.length ≤ k) :
    accepted (some k) frame = frame.length := Nat.min_eq_right h

theorem accepted_short {k : Nat} {frame : List Byte} (h : k < frame.length) : accepted (some k) frame = k :=
  Nat.min_eq_left (Nat.le_of_lt h)

/-- A send on a chain that was started completes as the transport answers it (43_pipeline.md R132). -/
theorem send_answer {c : Nat} {ch : Chain} (who : Agent) (frame : List Byte) (m : Moved)
    (hc : s.chains[c]? = some ch) (ha : ch.aborted = false) :
    ∃ t, send who c frame m s = .next t ∧ SendAnswer who c ch frame m s t := by
  refine ⟨_, onChain_some hc ha _, fun hans => ?_, fun k hans hk => ?_, fun k hans hk => ?_⟩
  · dsimp only
    rw [hans, accepted_all, if_neg (Nat.lt_irrefl _)]
  · dsimp only
    rw [hans, accepted_enough hk, if_neg (Nat.lt_irrefl _)]
  · dsimp only
    rw [hans, accepted_short hk, if_pos hk]

/-- An image of a frame length the initialisation accepts is stamped (41_framecodec_pack.md R106, R107). -/
theorem stamp_frameLength {ck : CkSel} {image : List Byte} (h : FrameLengthOk image.length) :
    ∃ frame, stamp ck image = .ok frame ∧
      pack ck (image.getD 2 0#8) (image.getD 3 0#8) (image.drop 6) = .ok frame := by
  obtain ⟨hmin, hmax⟩ : 6 ≤ image.length ∧ image.length ≤ 6 + 255 := h
  have packed := pack_ok (ck := ck) (op := image.getD 2 0#8) (addr := image.getD 3 0#8)
    (p := image.drop 6) (by rw [List.length_drop]; omega)
  exact ⟨_, (stamp_ok hmin).trans packed, packed⟩

/-- A TX agent whose frame image is there takes it, stamps it and sends it (43_pipeline.md R131). -/
theorem txTake_sends {c : Nat} {w : Which} {ch : Chain} (hr : s.ring? (outRing w c) = some r) (hw : r.Wf)
    (hc : s.chains[c]? = some ch) (ha : ch.aborted = false) (hlen : FrameLengthOk (frameLen s.params w))
    (hn : frameLen s.params w ≤ r.dataLen) :
    ∃ r' image frame t, r.Taken r' (frameLen s.params w) image ∧
      pack s.params.ck (image.getD 2 0#8) (image.getD 3 0#8) (image.drop 6) = .ok frame ∧
      txTake c w s = .next t ∧
      SendAnswer (.tx c w) c (ch.setRing (outRing w c) r') frame (.got (outRing w c) image)
        (s.setRing (outRing w c) r') t := by
  obtain ⟨r', image, taken, answer⟩ := taken_all (s := s) (rb := outRing w c) hw hn
  have ⟨_, _, _, _, himage, _⟩ := taken
  obtain ⟨frame, stamped, packed⟩ := stamp_frameLength (ck := s.params.ck) (himage.symm ▸ hlen)
  obtain ⟨t, sent, ht⟩ := send_answer (.tx c w) frame (.got (outRing w c) image)
    (setRing_chains_same (r := r') (chainOf_outRing w c) hc) (by rw [Chain.setRing_aborted, ha])
  refine ⟨r', image, frame, t, taken, packed, ?_, ht⟩
  unfold txTake; dsimp only
  rw [onRing_some hr, if_pos hn, answer, stamped]
  exact sent

/-- A TX agent whose frame image is not there is cancelled where its ring is shut down (R131). -/
theorem txTake_cancelled {c : Nat} {w : Which} (hr : s.ring? (outRing w c) = some r)
    (hn : r.dataLen < frameLen s.params w) (hs : r.shut = true) :
    txTake c w s = .next (s.cancel (.tx c w) .none) := by
  unfold txTake; dsimp only
  rw [onRing_some hr, if_neg (Nat.not_le.2 hn), if_pos hs]

/-! ### Re-examining a held request -/

/-- The ring after its held request number `k` has left `PENDING`. -/
def Ring.without (r : Ring) (k : Nat) : Ring := { r with pending := r.pending.eraseIdx k }

theorem Ring.without_wf (h : r.Wf) (k : Nat) : (r.without k).Wf :=
  h.of_same_store rfl rfl rfl rfl rfl rfl

/-- An enabled request leaves `PENDING` and its own rule is run again (R167). -/
theorem resume_enabled {k : Nat} {h : Held} (hr : s.ring? rb = some r) (hk : r.pending[k]? = some h)
    (he : h.enabled (frameLen s.params) r = true) :
    resume rb k s = rerun rb h (s.setRing rb (r.without k)) := by
  unfold resume; rw [hr]; dsimp only; rw [hk]; dsimp only; rw [if_pos he]; rfl

/-- A request that is not enabled stays held, and nothing changes (R52). -/
theorem resume_not_enabled {k : Nat} {h : Held} (hr : s.ring? rb = some r) (hk : r.pending[k]? = some h)
    (he : h.enabled (frameLen s.params) r = false) : resume rb k s = .next s := by
  unfold resume; rw [hr]; dsimp only; rw [hk]; dsimp only; rw [if_neg (by simp [he])]

theorem Held.enabled_of_met {fl : Which → Nat} {h : Held} (hm : h.met fl r = true) : h.enabled fl r = true := by
  simp [Held.enabled, hm]

theorem Held.enabled_of_shut {fl : Which → Nat} (h : Held) (hs : r.shut = true) : h.enabled fl r = true := by
  simp [Held.enabled, hs]

end answers

/-- Settles O35: the step re-examines the request; an enabled one is run again on the ring without it, which has the same
cursors, and there the blocking operations answer as they do to a fresh request. -/
theorem heldRequestsGoOnWhenTheyCan : Obligations.HeldRequestsGoOnWhenTheyCan := by
  intro s rb k rest r h hturns hr hw hk s0 r0
  have hr0 : s0.ring? rb = some r := hr
  have hw0 : r0.Wf := Ring.without_wf hw k
  have hs1 : (s0.setRing rb r0).ring? rb = some r0 := ring?_setRing_same (named_of_ring? hr0)
  have run (he : h.enabled (frameLen s0.params) r = true) : step s = rerun rb h (s0.setRing rb r0) :=
    (step_resume hturns).trans (resume_enabled hr0 hk he)
  refine ⟨?put, ?get, ?tx, fun hm hs => ?waits, ?putCancelled, ?getCancelled, ?txCancelled⟩
  case put =>
    rintro who d rfl hd
    obtain ⟨r', stored, answer⟩ := blockingPut_fits who hs1 hw0 hd
    rw [setRing_setRing] at answer
    exact ⟨r', stored, (run (Held.enabled_of_met (by simpa [Held.met] using hd))).trans answer⟩
  case get =>
    rintro who n rfl hn
    obtain ⟨r', out, taken, answer⟩ := blockingGet_fits who hs1 hw0 hn
    rw [setRing_setRing] at answer
    exact ⟨r', out, taken, (run (Held.enabled_of_met (by simpa [Held.met] using hn))).trans answer⟩
  case tx =>
    rintro c w ch rfl rfl hc ha hlen hn
    have hc1 : (s0.setRing (outRing w c) r0).chains[c]? = some (ch.setRing (outRing w c) r0) :=
      setRing_chains_same (chainOf_outRing w c) hc
    obtain ⟨r', image, frame, t, taken, packed, answer, sent⟩ :=
      txTake_sends hs1 hw0 hc1 (by rw [Chain.setRing_aborted, ha]) (by rwa [setRing_params])
        (by rw [setRing_params]; exact hn)
    rw [setRing_params] at taken packed
    rw [setRing_setRing, Chain.setRing_setRing] at sent
    exact ⟨r', image, frame, t, taken, packed,
      (run (Held.enabled_of_met (by simpa [Held.met] using hn))).trans answer, sent⟩
  case waits =>
    rw [step_resume hturns]
    refine resume_not_enabled hr0 hk ?_
    rw [Held.enabled, hs, Bool.or_false]
    exact hm
  case putCancelled =>
    rintro who d rfl hd hs
    exact (run (Held.enabled_of_shut _ hs)).trans (blockingPut_cancelled who hs1 hd hs)
  case getCancelled =>
    rintro who n rfl hn hs
    exact (run (Held.enabled_of_shut _ hs)).trans (blockingGet_cancelled who hs1 hn hs)
  case txCancelled =>
    rintro c w rfl rfl hn hs
    exact (run (Held.enabled_of_shut _ hs)).trans
      (txTake_cancelled hs1 (by rw [setRing_params]; exact hn) hs)

end Sys2Proof.Machine

namespace Sys2Proof.Machine

/-! ## `OPMAP` and the names of its bytes (30_encoding.md R68, 44_wire_opcodes.md R155) -/

theorem OpName.mem_all (n : OpName) : n ∈ OpName.all := by cases n <;> decide

theorem byteOf_mem_recognized (m : OpMap) (n : OpName) : m.byteOf n ∈ m.recognized :=
  List.mem_map_of_mem (OpName.mem_all n)

theorem byteOf_injective {m : OpMap} (hm : m.Injective) : Function.Injective m.byteOf := fun n k =>
  List.inj_on_of_nodup_map hm (OpName.mem_all n) (OpName.mem_all k)

theorem byteOf_of_nameOf {m : OpMap} {b : Byte} {n : OpName} (h : m.nameOf b = some n) : m.byteOf n = b := by
  simpa using List.find?_some h

theorem nameOf_eq_none_iff {m : OpMap} {b : Byte} : m.nameOf b = none ↔ b ∉ m.recognized := by
  simp [OpMap.nameOf, OpMap.recognized]

/-- Under an injective `OPMAP` the byte of a name stands for that name and no other. -/
theorem nameOf_byteOf {m : OpMap} (hm : m.Injective) (n : OpName) : m.nameOf (m.byteOf n) = some n := by
  cases h : m.nameOf (m.byteOf n) with
  | none => exact absurd (byteOf_mem_recognized m n) (nameOf_eq_none_iff.mp h)
  | some k => rw [byteOf_injective hm (byteOf_of_nameOf h)]

/-! ## Frames (30_encoding.md R57, R58, R63, R65) -/

/-- The wire row of an opcode byte, in either format: its name's row, or the catch-all. -/
def frameInstr (m : OpMap) (fmt : Fmt) (c : Nat) (op addr ack cksum : Byte) (payload : List Byte) : Instr :=
  match fmt with
  | .cmd => cmdInstr m c op addr cksum payload
  | .ack => ackInstr m c op addr ack cksum payload

section frames
variable {m : OpMap} {ctx : Ctx} {c : Nat} {op addr ack cksum : Byte} {p : List Byte}

theorem frameInstr_of_name {n : OpName} (fmt : Fmt) (h : m.nameOf op = some n) :
    frameInstr m fmt c op addr ack cksum p = wireInstr fmt n c addr ack cksum p := by
  cases fmt <;> simp only [frameInstr, cmdInstr, ackInstr, wireInstr, h]

theorem frameInstr_of_no_name (fmt : Fmt) (h : m.nameOf op = none) :
    frameInstr m fmt c op addr ack cksum p = unknownInstr fmt c op addr ack cksum p := by
  cases fmt <;> simp only [frameInstr, cmdInstr, ackInstr, unknownInstr, h]

theorem encode_wireInstr (fmt : Fmt) (n : OpName) : encode m (wireInstr fmt n c addr ack cksum p) =
    .wire c (frameBytes fmt (m.byteOf n) addr ack cksum p) := by
  cases fmt <;> cases n <;> rfl

theorem encode_unknownInstr (fmt : Fmt) :
    encode m (unknownInstr fmt c op addr ack cksum p) = .wire c (frameBytes fmt op addr ack cksum p) := by
  cases fmt <;> rfl

theorem wellFormed_wireInstr (fmt : Fmt) (n : OpName) :
    WellFormed ctx (wireInstr fmt n c addr ack cksum p) ↔ PayloadFits p := by
  cases fmt <;> cases n <;> rfl

theorem wellFormed_unknownInstr (fmt : Fmt) :
    WellFormed ctx (unknownInstr fmt c op addr ack cksum p) ↔ PayloadFits p ∧ ctx.Unknown op := by
  cases fmt <;> rfl

theorem encode_frameInstr (fmt : Fmt) :
    encode m (frameInstr m fmt c op addr ack cksum p) = .wire c (frameBytes fmt op addr ack cksum p) := by
  cases h : m.nameOf op with
  | none => rw [frameInstr_of_no_name fmt h, encode_unknownInstr]
  | some n => rw [frameInstr_of_name fmt h, encode_wireInstr, byteOf_of_nameOf h]

theorem wellFormed_frameInstr (fmt : Fmt) (hp : PayloadFits p) :
    WellFormed ctx (frameInstr ctx.opmap fmt c op addr ack cksum p) := by
  cases h : ctx.opmap.nameOf op with
  | none =>
    rw [frameInstr_of_no_name fmt h, wellFormed_unknownInstr]
    exact ⟨hp, nameOf_eq_none_iff.mp h⟩
  | some n => rwa [frameInstr_of_name fmt h, wellFormed_wireInstr]

/-- The length byte of a payload that fits holds the payload's length (R63). -/
theorem toNat_length_byte (hp : PayloadFits p) : (BitVec.ofNat 8 p.length).toNat = p.length :=
  (BitVec.toNat_ofNat ..).trans (Nat.mod_eq_of_lt (Nat.lt_succ_of_le hp))

theorem payloadFits_of_length_byte {len : Byte} (h : p.length = len.toNat) : PayloadFits p :=
  h.trans_le (Nat.le_of_lt_succ len.isLt)

theorem decodeFrame_frameBytes (fmt : Fmt) (hp : PayloadFits p) :
    decodeFrame m c (frameBytes fmt op addr ack cksum p) = .ok (frameInstr m fmt c op addr ack cksum p) := by
  have hlen : p.length = (BitVec.ofNat 8 p.length).toNat := (toNat_length_byte hp).symm
  cases fmt with
  | cmd => exact if_pos hlen
  | ack => exact if_pos hlen

/-- Only whole frames are wire instructions (R65). -/
theorem decodeFrame_ok {f : List Byte} {i : Instr} (h : decodeFrame m c f = .ok i) :
    ∃ fmt op addr ack cksum p, PayloadFits p ∧ f = frameBytes fmt op addr ack cksum p ∧
      i = frameInstr m fmt c op addr ack cksum p := by
  have whole {len : Byte} {p : List Byte} (hlen : p.length = len.toNat) : len = BitVec.ofNat 8 p.length := by
    rw [hlen, BitVec.ofNat_toNat, BitVec.setWidth_eq]
  unfold decodeFrame at h
  split at h
  case h_1 p1 p2 rest =>
    split_ifs at h with hcmd hack
    · obtain ⟨rfl, rfl⟩ := hcmd
      split at h
      · split_ifs at h with hlen
        cases h
        exact ⟨.cmd, _, _, 0, _, _, payloadFits_of_length_byte hlen, by rw [whole hlen]; rfl, rfl⟩
      · cases h
    · obtain ⟨rfl, rfl⟩ := hack
      split at h
      · split_ifs at h with hlen
        cases h
        exact ⟨.ack, _, _, _, _, _, payloadFits_of_length_byte hlen, by rw [whole hlen]; rfl, rfl⟩
      · cases h
  case h_2 => cases h

/-- A wire row is read back from its own frame (R57, R58, R63, R68). -/
theorem decode_encode_wireInstr (hm : ctx.opmap.Injective) (fmt : Fmt) (n : OpName) (hp : PayloadFits p) :
    decode ctx (encode ctx.opmap (wireInstr fmt n c addr ack cksum p)) =
      .ok (wireInstr fmt n c addr ack cksum p) := by
  rw [encode_wireInstr, decode, decodeFrame_frameBytes fmt hp, frameInstr_of_name fmt (nameOf_byteOf hm n)]

/-- A catch-all row is read back from its own frame (R155). -/
theorem decode_encode_unknownInstr (fmt : Fmt) (h : PayloadFits p ∧ ctx.Unknown op) :
    decode ctx (encode ctx.opmap (unknownInstr fmt c op addr ack cksum p)) =
      .ok (unknownInstr fmt c op addr ack cksum p) := by
  rw [encode_unknownInstr, decode, decodeFrame_frameBytes fmt h.1,
    frameInstr_of_no_name fmt (nameOf_eq_none_iff.mpr h.2)]

end frames

/-! ## Requests (30_encoding.md R72) -/

/-- A request that decodes is the encoding of a well-formed operation. -/
theorem decodeOp_ok {ctx : Ctx} {sel : BitVec 4} {args : List Operand} {i : Instr}
    (h : decodeOp ctx sel args = .ok i) : WellFormed ctx i ∧ encode ctx.opmap i = .op sel args := by
  have line {k : Nat} {args : List Operand} (hk : sel.toNat = k) :
      Line.op (BitVec.ofNat 4 k) args = .op sel args := by
    rw [← hk, BitVec.ofNat_toNat, BitVec.setWidth_eq]
  unfold decodeOp at h
  split at h <;> cases h
  case h_2 hsel =>
    split_ifs with hmode
    · exact ⟨hmode, line hsel⟩
    · exact ⟨hmode, line hsel⟩
  case h_3 hsel =>
    split_ifs with hmode
    · exact ⟨hmode, line hsel⟩
    · exact ⟨hmode, line hsel⟩
  all_goals exact ⟨trivial, line ‹_›⟩

/-! ## Decode and encode agree -/

/-- Settles O3, by cases on the instruction: a wire row by the two frame formats, a put or a get by the policy of its ring, and
every other operation by its selector alone. -/
theorem decodeOfEncodeIsTheInstruction : Obligations.DecodeOfEncodeIsTheInstruction := by
  intro ctx i hm hi
  cases i
  case initCmd => exact decode_encode_wireInstr hm .cmd .init (ack := 0) hi
  case initAck => exact decode_encode_wireInstr hm .ack .init hi
  case setNonceDiffCmd => exact decode_encode_wireInstr hm .cmd .setNonceDiff (ack := 0) hi
  case setNonceDiffAck => exact decode_encode_wireInstr hm .ack .setNonceDiff hi
  case setSeedCmd => exact decode_encode_wireInstr hm .cmd .setSeed (ack := 0) hi
  case setSeedAck => exact decode_encode_wireInstr hm .ack .setSeed hi
  case setMessageCmd => exact decode_encode_wireInstr hm .cmd .setMessage (ack := 0) hi
  case setMessageAck => exact decode_encode_wireInstr hm .ack .setMessage hi
  case returnNonceCmd => exact decode_encode_wireInstr hm .cmd .returnNonce (ack := 0) hi
  case returnNonceAck => exact decode_encode_wireInstr hm .ack .returnNonce hi
  case setNonceRegionCmd => exact decode_encode_wireInstr hm .cmd .setNonceRegion (ack := 0) hi
  case setNonceRegionAck => exact decode_encode_wireInstr hm .ack .setNonceRegion hi
  case firmwareUpdateCmd => exact decode_encode_wireInstr hm .cmd .firmwareUpdate (ack := 0) hi
  case firmwareUpdateAck => exact decode_encode_wireInstr hm .ack .firmwareUpdate hi
  case firmwareUpdateEndCmd => exact decode_encode_wireInstr hm .cmd .firmwareUpdateEnd (ack := 0) hi
  case firmwareUpdateEndAck => exact decode_encode_wireInstr hm .ack .firmwareUpdateEnd hi
  case testCmd => exact decode_encode_wireInstr hm .cmd .test (ack := 0) hi
  case testAck => exact decode_encode_wireInstr hm .ack .test hi
  case getBoardTempCmd => exact decode_encode_wireInstr hm .cmd .getBoardTemp (ack := 0) hi
  case getBoardTempAck => exact decode_encode_wireInstr hm .ack .getBoardTemp hi
  case getChipTempCmd => exact decode_encode_wireInstr hm .cmd .getChipTemp (ack := 0) hi
  case getChipTempAck => exact decode_encode_wireInstr hm .ack .getChipTemp hi
  case readMemCmd => exact decode_encode_wireInstr hm .cmd .readMem (ack := 0) hi
  case readMemAck => exact decode_encode_wireInstr hm .ack .readMem hi
  case writeMemCmd => exact decode_encode_wireInstr hm .cmd .writeMem (ack := 0) hi
  case writeMemAck => exact decode_encode_wireInstr hm .ack .writeMem hi
  case setChipAddressCmd => exact decode_encode_wireInstr hm .cmd .setChipAddress (ack := 0) hi
  case setChipAddressAck => exact decode_encode_wireInstr hm .ack .setChipAddress hi
  case unknownOpcodeCmd => exact decode_encode_unknownInstr .cmd (ack := 0) hi
  case unknownOpcodeAck => exact decode_encode_unknownInstr .ack hi
  case rbPutPolling | rbGetPolling => exact congrArg Except.ok (if_neg hi)
  case rbPutBlocking | rbGetBlocking => exact congrArg Except.ok (if_pos hi)
  all_goals rfl

/-- Settles O4: a request is the one line of its operation, and wire bytes that decode are a whole frame. -/
theorem encodeOfDecodeIsTheLine : Obligations.EncodeOfDecodeIsTheLine := by
  intro ctx line i h
  cases line with
  | op sel args => exact decodeOp_ok h
  | wire c f =>
    obtain ⟨fmt, op, addr, ack, cksum, p, hp, rfl, rfl⟩ := decodeFrame_ok h
    exact ⟨wellFormed_frameInstr fmt hp, encode_frameInstr fmt⟩

/-! ## Words of the encoding tables -/

theorem atReset_injective : Ctx.atReset.opmap.Injective := by decide

/-- Settles O1: each word that decodes is the encoding of its instruction under the default `OPMAP`. -/
theorem specWordsDecode : Obligations.SpecWordsDecode := by
  have reads (i : Instr) (hi : WellFormed Ctx.atReset i) :
      decode Ctx.atReset (encode Ctx.atReset.opmap i) = .ok i :=
    decodeOfEncodeIsTheInstruction _ i atReset_injective hi
  exact ⟨reads (.returnNonceAck 2 0x03 0x00 0x42 [0xDE, 0xAD, 0xBE, 0xEF]) (by decide),
    reads (.writeMemCmd 0 0x05 0x19 [0x01, 0x02, 0x03]) (by decide),
    reads (.unknownOpcodeAck 1 0x7E 0x01 0x00 0x80 [0x01]) (by decide),
    reads (.rbInit .pmon 18 .polling) trivial,
    reads (.rbPutBlocking (.work 0) [0x01]) (by decide),
    reads (.rbPutPolling .pmon [0x01]) (by decide),
    reads (.fcPack 0x03 0xFF [0xA1]) trivial,
    reads (.psRx 2 [0xAA]) trivial,
    reads (.txStep 1 .dl) trivial,
    rfl, rfl, rfl⟩

/-- The three low bytes of a number are read off most significant first (R74). -/
theorem beBytes_three (a b c : Byte) : beBytes 3 (a.toNat * 65536 + b.toNat * 256 + c.toNat) = [a, b, c] := by
  simp only [beBytes, List.cons.injEq, and_true]
  refine ⟨?_, ?_, ?_⟩ <;> apply BitVec.eq_of_toNat_eq <;> rw [BitVec.toNat_ofNat] <;> omega

/-- A 24-bit word stands for a frame on chain 0 whose other fields are zero (assumption log 23). -/
theorem tableLine_frame (fmt : Fmt) (op : Byte) :
    tableLine 24 (fmt.p1.toNat * 65536 + fmt.p2.toNat * 256 + op.toNat) =
      .wire 0 (frameBytes fmt op 0 0 0 []) := by
  have raw : beBytes (24 / 8) _ = [fmt.p1, fmt.p2, op] := beBytes_three fmt.p1 fmt.p2 op
  rw [tableLine, if_neg (fun h => absurd h.1 (by decide)), raw]
  cases fmt <;> rfl

theorem decodeTableWord_frame (fmt : Fmt) (op : Byte) :
    decodeTableWord 24 (fmt.p1.toNat * 65536 + fmt.p2.toNat * 256 + op.toNat) =
      some (frameInstr Ctx.atReset.opmap fmt 0 op 0 0 0 []) := by
  have h : decode Ctx.atReset (.wire 0 (frameBytes fmt op 0 0 0 [])) = .ok _ :=
    decodeFrame_frameBytes fmt (Nat.zero_le _)
  rw [decodeTableWord, tableLine_frame, h]

theorem decodeTableWord_wireInstr (fmt : Fmt) (n : OpName) :
    decodeTableWord 24 (fmt.p1.toNat * 65536 + fmt.p2.toNat * 256 + (Ctx.atReset.opmap.byteOf n).toNat) =
      some (wireInstr fmt n 0 0 0 0 []) := by
  rw [decodeTableWord_frame, frameInstr_of_name fmt (nameOf_byteOf atReset_injective n)]

theorem decodeTableWord_unknownInstr (fmt : Fmt) {op : Byte} (h : Ctx.atReset.Unknown op) :
    decodeTableWord 24 (fmt.p1.toNat * 65536 + fmt.p2.toNat * 256 + op.toNat) =
      some (unknownInstr fmt 0 op 0 0 0 []) := by
  rw [decodeTableWord_frame, frameInstr_of_no_name fmt (nameOf_eq_none_iff.mpr h)]

/-- Settles O2: the rows of the names in both formats, and three bytes that no name has. -/
theorem tableWordsDecodeToTheirRows : Obligations.TableWordsDecodeToTheirRows :=
  ⟨fun n => ⟨decodeTableWord_wireInstr .cmd n, decodeTableWord_wireInstr .ack n⟩,
    decodeTableWord_unknownInstr .cmd (op := 0x0E) (by decide),
    decodeTableWord_unknownInstr .ack (op := 0x7E) (by decide),
    decodeTableWord_unknownInstr .cmd (op := 0xFF) (by decide)⟩

end Sys2Proof.Machine

namespace Sys2Proof.Machine

/-! ## What is shut down holds nothing (40_ringbuffer.md R97) -/

/-- The instance of one name, if there is one and it is shut down, holds nothing. -/
def State.QuietAt (s : State) (rb : RingId) : Prop := ∀ r, s.ring? rb = some r → r.Quiet

section quiet
variable {L : Option Nat → Prop} {s t : State} {rb rb' : RingId}

theorem State.QuietAt.of_ring?_eq (h : t.ring? rb = s.ring? rb) (hq : s.QuietAt rb) : t.QuietAt rb :=
  fun r hr => hq r (h.symm.trans hr)

/-- An instance is replaced by one that holds nothing when shut down, if that is so of the one before. -/
theorem State.QuietAt.setRing {r' : Ring} (h : s.QuietAt rb' → r'.Quiet) (hq : s.QuietAt rb) :
    (s.setRing rb' r').QuietAt rb := by
  intro q hr
  by_cases e : rb = rb'
  · subst e
    have hn : s.named rb = true := (setRing_named rb).symm.trans (named_of_ring? hr)
    obtain rfl : r' = q := Option.some.inj ((ring?_setRing_same hn).symm.trans hr)
    exact h hq
  · exact hq q ((ring?_setRing_other e).symm.trans hr)

/-- An instance that is shut down if and only if it was, with no more requests where there were none. -/
theorem State.QuietAt.setRing_of {r r' : Ring} (hr : s.ring? rb' = some r) (hshut : r'.shut = r.shut)
    (hpending : r.pending = [] → r'.pending = []) (hq : s.QuietAt rb) : (s.setRing rb' r').QuietAt rb :=
  hq.setRing fun quiet hs => hpending (quiet r hr (hshut.symm.trans hs))

/-- One move keeps an instance quiet: a request is held only in one that is not shut down. -/
theorem move_quietAt (hq : s.QuietAt rb) (m : Move L s t) : t.QuietAt rb := by
  cases m with
  | idle _ hc hp _ => exact hq.of_ring?_eq (by unfold State.ring?; rw [hc, hp])
  | told who res ev => exact hq
  | stop who => exact hq.of_ring?_eq (stopAgent_ring? s who rb)
  | store who res ev _ hr _ => exact State.QuietAt.setRing_of hr (by simp) (by simp) hq
  | take who res ev _ hr _ ho =>
    obtain ⟨-, -, -, -, -, hshut, hpending⟩ := rbLoad_keeps ho
    exact State.QuietAt.setRing_of hr hshut hpending.trans hq
  | hold _ hr hshut _ => exact hq.setRing fun _ hs => absurd (hshut.symm.trans hs) Bool.false_ne_true
  | release k _ hr => exact hq.setRing_of hr rfl fun e => by simp [e]
  | force who res ev _ hr _ => exact State.QuietAt.setRing_of hr (by simp) (by simp) hq
  | make _ _ _ _ _ => exact hq.setRing fun _ _ => rfl
  | parse _ hc _ _ _ _ => exact hq.of_ring?_eq (ring?_setChain_sameRings hc fun rb => by cases rb <;> rfl)
  | reset _ hc _ => exact hq.of_ring?_eq (ring?_setChain_sameRings hc fun rb => by cases rb <;> rfl)
  | stream _ _ _ _ hc _ => exact hq.of_ring?_eq (ring?_setChain_sameRings hc fun rb => by cases rb <;> rfl)

theorem moves_quietAt (hq : s.QuietAt rb) (m : Moves L s t) : t.QuietAt rb := by
  induction m with
  | refl => exact hq
  | tail _ m ih => exact move_quietAt ih m

/-- `RB.SHUTDOWN` empties the instance it shuts down and holds nothing elsewhere (40_ringbuffer.md R96). -/
theorem shutdown_quiet (hq : s.Quiet) (h : execRbShutdown rb s = .next t) : t.Quiet := by
  obtain ⟨r, -, released, r', hr', -, empty⟩ := shutdown_next (L := fun _ => True) trivial
    (fun _ _ x _ => by cases x <;> trivial) h
  intro rb'
  by_cases e : rb' = rb
  · subst e
    intro q hr _
    obtain rfl : r' = q := Option.some.inj (hr'.symm.trans hr)
    exact empty
  · have before : State.QuietAt ((s.setRing rb { r with shut := true }).reply s.who .none .none) rb' :=
      State.QuietAt.of_ring?_eq (ring?_setRing_other e) (hq rb')
    exact moves_quietAt before released

end quiet

/-- Settles O15: move by move, and by what `RB.SHUTDOWN` leaves of the instance it shuts down. -/
theorem nothingIsHeldAfterShutdown : Obligations.NothingIsHeldAfterShutdown := by
  intro s t hq h
  have kept : ∀ {u}, Moves (fun _ => True) s u → u.Quiet := fun m rb => moves_quietAt (hq rb) m
  rcases step_moves h with m | ⟨u, rb, m, shutdown⟩
  · exact kept m
  · exact shutdown_quiet (kept m) shutdown

end Sys2Proof.Machine

namespace Sys2Proof.Machine

/-! ## `RB.SHUTDOWN` releases what is held (40_ringbuffer.md R96; 60_exceptions.md R161, R166) -/

/-! ### One release -/

section release
variable {s t u : State} {rb : RingId} {r : Ring} {h : Held}

/-- The state in which the environment's next choice has been used up and held request number `k` of the instance `rb`, which
is `r` in `s`, has left `PENDING`. -/
def State.released (s : State) (rb : RingId) (r : Ring) (k : Nat) : State :=
  { s with releaseOrder := s.releaseOrder.tail }.setRing rb (r.without k)

theorem released_ring? (hr : s.ring? rb = some r) (k : Nat) :
    (s.released rb r k).ring? rb = some (r.without k) :=
  ring?_setRing_same (by exact named_of_ring? hr)

/-- While an instance that is shut down holds requests, its release takes out the one the environment names next, runs its
rule again, and goes on (60_exceptions.md R166; assumption log 9). -/
theorem releaseHeld_succ {n : Nat} (hr : s.ring? rb = some r) (hs : r.shut = true)
    (hp : r.pending.length = n + 1) : ∃ (k : Nat) (hk : k < r.pending.length),
      releaseHeld rb (n + 1) s = (rerun rb r.pending[k] (s.released rb r k)).andThen (releaseHeld rb n) := by
  have hk : s.releaseOrder.headD 0 % r.pending.length < r.pending.length := Nat.mod_lt _ (by omega)
  refine ⟨_, hk, ?_⟩
  rw [releaseHeld, hr]
  dsimp only
  rw [resume_enabled (s := { s with releaseOrder := s.releaseOrder.tail }) hr
    (List.getElem?_eq_getElem hk) (Held.enabled_of_shut _ hs)]
  rfl

/-! ### The release completes -/

/-- The instance `r` of name `rb` is shut down, and whatever it holds can be run again: the block meets its invariant, the
chain of the instance was started, and the frame lengths are ones the initialisation accepts. -/
structure State.Releasing (s : State) (rb : RingId) (r : Ring) : Prop where
  wf : s.Wf
  ring : s.ring? rb = some r
  shut : r.shut = true
  started : s.abortedAt rb = false
  frames : ∀ w, FrameLengthOk (frameLen s.params w)

/-- The rule of a held request that runs again completes on an instance that is shut down: it is never held again (R97). -/
theorem rerun_completes (hrel : s.Releasing rb r) (hplace : h.inPlace rb = true) :
    ∃ t, rerun rb h s = .next t := by
  obtain ⟨hwf, hr, hs, hstart, hframes⟩ := hrel
  cases h with
  | put who d =>
    by_cases hd : d.length ≤ r.spaceLen
    · obtain ⟨_, -, answer⟩ := blockingPut_fits who hr (hwf.ring hr) hd
      exact ⟨_, answer⟩
    · exact ⟨_, blockingPut_cancelled who hr (Nat.lt_of_not_le hd) hs⟩
  | get who n =>
    by_cases hn : n ≤ r.dataLen
    · obtain ⟨_, _, -, answer⟩ := blockingGet_fits who hr (hwf.ring hr) hn
      exact ⟨_, answer⟩
    · exact ⟨_, blockingGet_cancelled who hr (Nat.lt_of_not_le hn) hs⟩
  | txGet c w =>
    obtain rfl : rb = outRing w c := of_decide_eq_true hplace
    by_cases hn : frameLen s.params w ≤ r.dataLen
    · rcases named_iff.1 (named_of_ring? hr) with hc | ⟨c', ch, hc, hch⟩
      · rw [chainOf_outRing] at hc; cases hc
      · obtain rfl : c = c' := Option.some.inj ((chainOf_outRing w c).symm.trans hc)
        obtain ⟨_, _, _, t, -, -, answer, -⟩ := txTake_sends hr (hwf.ring hr) hch
          ((abortedAt_of_chain hc hch).symm.trans hstart) (hframes w) hn
        exact ⟨t, answer⟩
    · exact ⟨_, txTake_cancelled hr (Nat.lt_of_not_le hn) hs⟩

theorem State.Onward.abortedAt (k : s.Onward t) (rb : RingId) : t.abortedAt rb = s.abortedAt rb := by
  unfold State.abortedAt
  cases chainOf rb with
  | none => rfl
  | some c =>
    dsimp only
    cases hc : s.chains[c]? with
    | none =>
      have hlen := List.getElem?_eq_none_iff.1 hc
      rw [List.getElem?_eq_none (by rw [k.length]; exact hlen)]
    | some ch =>
      obtain ⟨ch', hc', hch⟩ := k.chain c ch hc
      rw [hc']
      exact hch.aborted

theorem moves_onward {L : Option Nat → Prop} (m : Moves L s t) : s.Onward t := by
  induction m with
  | refl => exact .refl s
  | tail _ m ih => exact ih.trans (move_onward m)

/-- What makes a release possible stays while the block goes on, as long as the instance does. -/
theorem State.Releasing.moves {L : Option Nat → Prop} {r' : Ring} (hrel : s.Releasing rb r) (m : Moves L s t)
    (hr : t.ring? rb = some r') (hs : r'.shut = true) : t.Releasing rb r' := by
  have k := moves_onward m
  exact ⟨moves_wf hrel.wf m, hr, hs, (k.abortedAt rb).trans hrel.started, k.params ▸ hrel.frames⟩

theorem released_moves (hr : s.ring? rb = some r) (k : Nat) : Moves (fun _ => True) s (s.released rb r k) := by
  have named : Moves (fun _ => True) s { s with releaseOrder := s.releaseOrder.tail } :=
    Moves.one (.idle rfl rfl rfl rfl)
  exact named.tail (.release k trivial hr)

theorem Held.allowed_anywhere (h : Held) : h.allowed fun _ => True := by cases h <;> trivial

/-- Releasing what an instance that is shut down holds completes (R96). -/
theorem releaseHeld_completes {n : Nat} (hrel : s.Releasing rb r) (hp : r.pending.length = n) :
    ∃ t, releaseHeld rb n s = .next t := by
  induction n generalizing s r with
  | zero => exact ⟨s, rfl⟩
  | succ n ih =>
    obtain ⟨k, hk, one⟩ := releaseHeld_succ hrel.ring hrel.shut hp
    have hrel1 := hrel.moves (released_moves hrel.ring k) (released_ring? hrel.ring k) hrel.shut
    obtain ⟨-, hplace⟩ := (State.wf_iff.1 hrel.wf).2 rb r hrel.ring
    obtain ⟨u, rerun⟩ := rerun_completes hrel1 (hplace _ (List.getElem_mem hk))
    obtain ⟨r2, hr2, hs2, hp2⟩ := rerun_shut hrel1.ring hrel1.shut rerun
    have hrel2 := hrel1.moves (rerun_moves (L := fun _ => True) trivial (Held.allowed_anywhere _) rerun) hr2 hs2
    obtain ⟨t, rest⟩ := ih hrel2 (by rw [hp2, Ring.without, List.length_eraseIdx_of_lt hk]; omega)
    exact ⟨t, by rw [one, rerun, next_andThen, rest]⟩

/-! ### The release when no held request can complete -/

/-- A held request whose condition fails is cancelled on an instance that is shut down (40_ringbuffer.md R97). -/
theorem rerun_cancelled (hr : s.ring? rb = some r) (hs : r.shut = true) (hplace : h.inPlace rb = true)
    (hm : h.met (frameLen s.params) r = false) :
    rerun rb h s = .next (s.cancel h.who h.cancelled.result) := by
  cases h with
  | put who d => exact blockingPut_cancelled who hr (Nat.lt_of_not_le (of_decide_eq_false hm)) hs
  | get who n => exact blockingGet_cancelled who hr (Nat.lt_of_not_le (of_decide_eq_false hm)) hs
  | txGet c w =>
    obtain rfl : rb = outRing w c := of_decide_eq_true hplace
    exact txTake_cancelled hr (Nat.lt_of_not_le (of_decide_eq_false hm)) hs

/-- From `s` to `t` the replies `new` are given, newest first, and beside them only the instance `rb`, run flags and the
model's own `releaseOrder` may change. -/
structure State.Told (rb : RingId) (new : List Reply) (s t : State) : Prop where
  ring : ∀ rb', rb' ≠ rb → t.ring? rb' = s.ring? rb'
  replies : t.replies = new ++ s.replies
  chain : ∀ (c : Nat) (ch : Chain), s.chains[c]? = some ch → ∃ ch', t.chains[c]? = some ch' ∧
    ch'.parser = ch.parser ∧ ch'.rxs = ch.rxs ∧ ch'.txs = ch.txs
  params : t.params = s.params
  turns : t.turns = s.turns

theorem State.Told.trans {new new' : List Reply} (h : State.Told rb new s t) (k : State.Told rb new' t u) :
    State.Told rb (new' ++ new) s u where
  ring rb' hne := (k.ring rb' hne).trans (h.ring rb' hne)
  replies := by rw [k.replies, h.replies, List.append_assoc]
  chain c ch hc := by
    obtain ⟨ch1, hc1, hp1, hr1, ht1⟩ := h.chain c ch hc
    obtain ⟨ch2, hc2, hp2, hr2, ht2⟩ := k.chain c ch1 hc1
    exact ⟨ch2, hc2, hp2.trans hp1, hr2.trans hr1, ht2.trans ht1⟩
  params := k.params.trans h.params
  turns := k.turns.trans h.turns

theorem told_reply (s : State) (who : Agent) (res : Result) (ev : Event) (m : Moved) :
    State.Told rb [⟨who, res, ev, m⟩] s (s.reply who res ev m) :=
  ⟨fun _ _ => rfl, rfl, fun _ ch hc => ⟨ch, hc, rfl, rfl, rfl⟩, rfl, rfl⟩

theorem told_setRing (s : State) (rb : RingId) (r : Ring) : State.Told rb [] s (s.setRing rb r) where
  ring _ hne := ring?_setRing_other hne
  replies := setRing_replies s rb r
  chain c ch hc := by
    obtain ⟨ch', hc', hp, hrx, htx, -⟩ := setRing_chain_keeps (rb := rb) (r := r) hc
    exact ⟨ch', hc', hp, hrx, htx⟩
  params := setRing_params s rb r
  turns := setRing_turns s rb r

theorem told_released (s : State) (rb : RingId) (r : Ring) (k : Nat) : State.Told rb [] s (s.released rb r k) := by
  obtain ⟨hring, hreplies, hchain, hparams, hturns⟩ :=
    told_setRing { s with releaseOrder := s.releaseOrder.tail } rb (r.without k)
  exact ⟨hring, hreplies, hchain, hparams, hturns⟩

theorem told_stopAgent (s : State) (who : Agent) : State.Told rb [] s (s.stopAgent who) where
  ring rb' _ := stopAgent_ring? s who rb'
  replies := stopAgent_replies s who
  chain c ch hc := by
    obtain ⟨ch', hc', hp, hrx, htx, -⟩ := stopAgent_chain_keeps (who := who) hc
    exact ⟨ch', hc', hp, hrx, htx⟩
  params := stopAgent_params s who
  turns := stopAgent_turns s who

/-- The requester of a cancelled request is told so, and an agent of the block stops (60_exceptions.md R161). -/
theorem told_cancelled (s : State) (h : Held) :
    State.Told rb [h.cancelled] s (s.cancel h.who h.cancelled.result) := by
  have told := (told_stopAgent (rb := rb) s h.who).trans
    (told_reply (s.stopAgent h.who) h.who h.cancelled.result .cancelled .nothing)
  have reply_eq : h.cancelled = ⟨h.who, h.cancelled.result, .cancelled, .nothing⟩ := by cases h <;> rfl
  rw [reply_eq]
  exact told

/-- When no held request can complete, releasing them cancels each, and leaves the registers and bytes of the instance
(40_ringbuffer.md R96). -/
theorem releaseHeld_cancels {n : Nat} (hr : s.ring? rb = some r) (hs : r.shut = true) (hplace : r.HeldInPlace rb)
    (hm : ∀ h ∈ r.pending, h.met (frameLen s.params) r = false) (hp : r.pending.length = n) :
    ∃ t new, releaseHeld rb n s = .next t ∧ t.ring? rb = some { r with pending := [] } ∧
      new.Perm (r.pending.map Held.cancelled) ∧ State.Told rb new s t := by
  induction n generalizing s r with
  | zero =>
    have empty : r.pending = [] := List.length_eq_zero_iff.1 hp
    refine ⟨s, [], rfl, hr.trans (by rw [← empty]), by rw [empty]; exact .refl _, ?_⟩
    exact ⟨fun _ _ => rfl, rfl, fun _ ch hc => ⟨ch, hc, rfl, rfl, rfl⟩, rfl, rfl⟩
  | succ n ih =>
    obtain ⟨k, hk, one⟩ := releaseHeld_succ hr hs hp
    have out := told_released s rb r k
    have hr1 := released_ring? hr k
    have cancelled := rerun_cancelled hr1 hs (hplace _ (List.getElem_mem hk))
      (by rw [out.params]; exact hm _ (List.getElem_mem hk))
    have told := out.trans (told_cancelled (rb := rb) _ r.pending[k])
    obtain ⟨t, new, rest, ht, perm, later⟩ := ih (s := State.cancel _ _ _) (r := r.without k)
      (by simpa [State.cancel] using hr1) hs (fun x hx => hplace x (List.mem_of_mem_eraseIdx hx))
      (fun x hx => by rw [told.params]; exact hm x (List.mem_of_mem_eraseIdx hx))
      (by rw [Ring.without, List.length_eraseIdx_of_lt hk]; omega)
    refine ⟨t, _, by rw [one, cancelled, next_andThen, rest], ht, ?_, told.trans later⟩
    have newest : (new ++ ([r.pending[k].cancelled] ++ [])).Perm (r.pending[k].cancelled :: new) :=
      List.perm_append_singleton _ new
    exact (newest.trans (perm.cons _)).trans ((List.getElem_cons_eraseIdx_perm hk).map Held.cancelled)

end release

/-- Settles O33: once `SHUT` is set, each release goes by the rule of the request it takes out, by induction on how many are
held; that rule completes under the invariant, and cancels where the request's condition fails. -/
theorem shutdownReleasesEveryHold : Obligations.ShutdownReleasesEveryHold := by
  intro s rb r hr
  have hr1 : (State.reply (s.setRing rb { r with shut := true }) s.who .none .none).ring? rb =
      some { r with shut := true } := ring?_setRing_same (named_of_ring? hr)
  have shutdown : exec (.rbShutdown rb) s = releaseHeld rb r.pending.length
      ((s.setRing rb { r with shut := true }).reply s.who .none .none) := onRing_some hr _
  refine ⟨fun hwf hstart hwork hdl => ?completes, fun hplace hm => ?cancels, fun hs hp => ?already⟩
  case completes =>
    have k : s.Onward (s.setRing rb { r with shut := true }) := onward_setRing_of hr ⟨rfl, rfl, fun _ => rfl⟩
    have hframes : ∀ w, FrameLengthOk (frameLen s.params w) := fun w => by
      cases w with
      | work => exact hwork
      | dl => exact hdl
    obtain ⟨t, released⟩ := releaseHeld_completes (r := { r with shut := true })
      ⟨(hwf.setShut hr).reply _ _ _ _, hr1, rfl, (k.abortedAt rb).trans hstart, k.params ▸ hframes⟩ rfl
    have answer := shutdown.trans released
    obtain ⟨-, -, -, r', hr', hs', hp'⟩ := shutdown_next (L := fun _ => True) trivial
      (fun _ _ x _ => Held.allowed_anywhere x) answer
    exact ⟨t, r', answer, hr', hs', hp'⟩
  case cancels =>
    have set := (told_setRing s rb { r with shut := true }).trans (told_reply _ s.who .none .none .nothing)
    obtain ⟨t, new, released, ht, perm, told⟩ := releaseHeld_cancels hr1 rfl hplace
      (by rw [set.params]; exact hm) rfl
    obtain ⟨hring, hreplies, hchain, hparams, hturns⟩ := set.trans told
    exact ⟨t, new, shutdown.trans released, ht, hring, perm, by simpa using hreplies, hchain, hparams, hturns⟩
  case already =>
    have same : s.setRing rb { r with shut := true } = s := setRing_self (hr.trans (by rw [← hs]))
    rw [shutdown, same, hp]
    rfl

end Sys2Proof.Machine

namespace Sys2Proof.Machine

/-! ## Put and get under the policy of the instance (40_ringbuffer.md R85 to R90) -/

section policy
variable {s : State} {rb : RingId} {r : Ring} {i : Instr}

/-- Both rows of `RB.PUT` mean a put of the requester: the instance's policy decides, not the row (R89). -/
theorem exec_rbPut {d : List Byte} (hi : i = .rbPutPolling rb d ∨ i = .rbPutBlocking rb d) :
    exec i s = put s.who rb d s := by
  rcases hi with rfl | rfl <;> rfl

theorem exec_rbGet {n : Nat} (hi : i = .rbGetPolling rb n ∨ i = .rbGetBlocking rb n) :
    exec i s = get s.who rb n s := by
  rcases hi with rfl | rfl <;> rfl

theorem put_polling (who : Agent) (d : List Byte) (hr : s.ring? rb = some r) (hm : r.mode = .polling) :
    put who rb d s = .next (s.stored rb r who (d.take (min d.length r.spaceLen))) := by
  rw [put_of_mode hr, hm]
  exact onRing_some hr _

theorem put_blocking (who : Agent) (d : List Byte) (hr : s.ring? rb = some r) (hm : r.mode = .blocking) :
    put who rb d s = blockingPut who rb d s := by
  rw [put_of_mode hr, hm]

theorem get_blocking (who : Agent) (n : Nat) (hr : s.ring? rb = some r) (hm : r.mode = .blocking) :
    get who rb n s = blockingGet who rb n s := by
  rw [get_of_mode hr, hm]

/-- A get from a polling instance completes with what is there (R87). -/
theorem get_polling (who : Agent) (n : Nat) (hr : s.ring? rb = some r) (hw : r.Wf) (hm : r.mode = .polling) :
    ∃ r' out, r.Taken r' (min n r.dataLen) out ∧
      get who rb n s = .next ((s.setRing rb r').reply who (.data out) .none (.got rb out)) := by
  obtain ⟨r', out, taken, answer⟩ := taken_all (s := s) (rb := rb) hw (Nat.min_le_right n r.dataLen)
  refine ⟨r', out, taken, ?_⟩
  rw [get_of_mode hr, hm]
  exact (onRing_some hr _).trans (answer _)

/-- A blocking put without room is held where the ring is not shut down (R86). -/
theorem blockingPut_held {d : List Byte} (who : Agent) (hr : s.ring? rb = some r)
    (hd : r.spaceLen < d.length) (hs : r.shut = false) :
    blockingPut who rb d s = .next (s.hold rb r (.put who d)) := by
  unfold blockingPut; rw [onRing_some hr, if_neg (Nat.not_le.2 hd), if_neg (by simp [hs])]

/-- A blocking get of more than is there is held where the ring is not shut down (R88). -/
theorem blockingGet_held {n : Nat} (who : Agent) (hr : s.ring? rb = some r) (hn : r.dataLen < n)
    (hs : r.shut = false) : blockingGet who rb n s = .next (s.hold rb r (.get who n)) := by
  unfold blockingGet; rw [onRing_some hr, if_neg (Nat.not_le.2 hn), if_neg (by simp [hs])]

theorem rbStore_nil (r : Ring) : rbStore r [] = r := rfl

/-- Storing nothing changes nothing but the replies. -/
theorem stored_nil (who : Agent) (hr : s.ring? rb = some r) :
    s.stored rb r who [] = s.reply who (.count 0) .none (.put rb []) := by
  rw [State.stored, rbStore_nil, setRing_self hr]; rfl

end policy

/-- Settles O24: both rows mean the put of the instance's policy, and copying in the part that fits is `Ring.Stored`. -/
theorem pollingPutStoresWhatFits : Obligations.PollingPutStoresWhatFits := by
  intro s rb r data i hr hw hm hi k
  have len : (data.take k).length = k := List.length_take_of_le (Nat.min_le_left _ _)
  refine ⟨_, rbStore_stored hw (len.trans_le (Nat.min_le_right _ _)), ?_⟩
  rw [exec_rbPut hi, put_polling s.who data hr hm, State.stored, len]

/-- Settles O25: both rows mean the put of the instance's policy, by its three answers. -/
theorem blockingPutIsAllOrNothing : Obligations.BlockingPutIsAllOrNothing := by
  intro s rb r data i hr hw hm hi
  rw [exec_rbPut hi, put_blocking s.who data hr hm]
  exact ⟨blockingPut_fits s.who hr hw, blockingPut_cancelled s.who hr, blockingPut_held s.who hr⟩

/-- Settles O26: both rows mean the get of the instance's policy, and copying out what is there is `Ring.Taken`. -/
theorem pollingGetReturnsWhatIsThere : Obligations.PollingGetReturnsWhatIsThere := by
  intro s rb r n i hr hw hm hi k
  rw [exec_rbGet hi]
  exact get_polling s.who n hr hw hm

/-- Settles O27: both rows mean the get of the instance's policy, by its three answers. -/
theorem blockingGetIsAllOrNothing : Obligations.BlockingGetIsAllOrNothing := by
  intro s rb r n i hr hw hm hi
  rw [exec_rbGet hi, get_blocking s.who n hr hm]
  exact ⟨blockingGet_fits s.who hr hw, blockingGet_cancelled s.who hr, blockingGet_held s.who hr⟩

/-- Settles O31: after the first put either nothing is left of the bytes or no room is left in the ring. -/
theorem rejectedRemainderStoresNothing : Obligations.RejectedRemainderStoresNothing := by
  intro s t rb r data hr hw hm first
  rw [exec_rbPut (.inl rfl), put_polling s.who data hr hm] at first
  obtain rfl := Host.Outcome.next.inj first
  set k := min data.length r.spaceLen
  have len : (data.take k).length = k := List.length_take_of_le (Nat.min_le_left _ _)
  have fits : (data.take k).length ≤ r.spaceLen := len.trans_le (Nat.min_le_right _ _)
  have hr' : (s.stored rb r s.who (data.take k)).ring? rb = some (rbStore r (data.take k)) :=
    ring?_setRing_same (named_of_ring? hr)
  have grown := rbStore_dataLen hw fits
  rw [len] at grown
  have none_fits : min (data.drop k).length (rbStore r (data.take k)).spaceLen = 0 := by
    have := hw.data_add_space
    rw [List.length_drop, Ring.spaceLen, rbStore_size, grown]
    omega
  refine ⟨k, _, by simp [State.stored, len], hr', grown, ?_⟩
  rw [exec_rbPut (.inl rfl), put_polling _ _ hr' (by rw [rbStore_mode, hm]), none_fits, List.take_zero,
    stored_nil _ hr']

/-! ## The forced put (40_ringbuffer.md R91, R92) -/

theorem rbPutForce_answer {s : State} {rb : RingId} {r : Ring} {d : List Byte} (hr : s.ring? rb = some r)
    (hd : d.length ≤ r.size) : exec (.rbPutForce rb d) s = .next ((s.setRing rb (forceInto r d)).reply s.who
      (.count d.length) .none (.forced rb d (d.length - r.spaceLen))) :=
  (onRing_some hr _).trans (if_neg (Nat.not_lt.2 hd))

/-- The write mirror after a copy-in, by whether the end of the array was reached (20_memory.md R45). -/
theorem rbStore_wm_by_cases {r : Ring} (hb : r.InBounds) (d : List Byte) :
    (rbStore r d).wm = if r.wi.toNat + d.length < r.size then r.wm else !r.wm := by
  rw [rbStore_wm hb]
  by_cases c : r.wi.toNat + d.length < r.size
  · simp [c, Nat.not_le.2 c]
  · simp [c, Nat.le_of_not_lt c]

/-- The ring after a forced put that does not fit: the copy-in, and the read cursor at the write cursor with the mirrors
different (R91). -/
theorem forceInto_eq_of_overflow {r : Ring} {d : List Byte} (ho : r.spaceLen < d.length) :
    forceInto r d = { rbStore r d with ri := (rbStore r d).wi, rm := !(rbStore r d).wm } := if_pos ho

/-- Settles O28: bytes that fit are copied in; of an overflow the registers and bytes are those of the copy-in but for the
read cursor, and `forceInto_overflow` tells the contents. -/
theorem forcedPutKeepsTheNewest : Obligations.ForcedPutKeepsTheNewest := by
  intro s rb r data hr hw
  have sum := hw.data_add_space
  refine ⟨fun fits => ?fits, fun ho hd => ?overflow, fun hd => ?refused⟩
  case fits =>
    refine ⟨_, rbStore_stored hw fits, ?_⟩
    rw [rbPutForce_answer hr (fits.trans r.spaceLen_le), forceInto_fits fits, Nat.sub_eq_zero_of_le fits]
  case overflow =>
    obtain ⟨full, newest⟩ := forceInto_overflow hw hd ho
    have ring := forceInto_eq_of_overflow ho
    have answer := rbPutForce_answer hr hd
    have discarded : data.length - r.spaceLen = r.dataLen + data.length - r.size := by omega
    rw [discarded] at answer
    refine ⟨_, answer, ⟨by simp, by simp, by simp, by simp⟩, ?_, ?_, ?_, ?_, fun a ha => ?_, newest, full⟩
    · rw [ring]; exact rbStore_wi hw.inBounds hd
    · rw [ring]; exact rbStore_wm_by_cases hw.inBounds data
    · rw [ring]
    · rw [ring]
    · rw [ring]; exact rbStore_read_untouched hw.inBounds hd ha
  case refused => exact (onRing_some hr _).trans (if_pos hd)

/-! ## The status reads (40_ringbuffer.md R93 to R95) -/

/-- An instance is empty exactly when its cursors and its mirrors are equal. -/
theorem Ring.Wf.empty_iff {r : Ring} (h : r.Wf) : r.ri = r.wi ∧ r.rm = r.wm ↔ r.dataLen = 0 := by
  obtain ⟨-, hri, hwi⟩ := h.inBounds
  rw [(dataLenUnfoldsByCases r h).2]
  by_cases cursors : r.wi = r.ri
  · by_cases mirrors : r.wm = r.rm
    · simp [cursors, mirrors]
    · rw [if_pos cursors, if_neg mirrors]
      exact ⟨fun e => absurd e.2.symm mirrors, fun e => by omega⟩
  · have apart : r.wi.toNat ≠ r.ri.toNat := fun e => cursors (BitVec.eq_of_toNat_eq e)
    rw [if_neg cursors]
    refine ⟨fun e => absurd e.1.symm cursors, fun e => ?_⟩
    split at e <;> omega

/-- An instance is full exactly when its cursors are equal and its mirrors differ. -/
theorem Ring.Wf.full_iff {r : Ring} (h : r.Wf) : r.ri = r.wi ∧ r.rm ≠ r.wm ↔ r.dataLen = r.size := by
  obtain ⟨-, hri, hwi⟩ := h.inBounds
  rw [(dataLenUnfoldsByCases r h).2]
  by_cases cursors : r.wi = r.ri
  · by_cases mirrors : r.wm = r.rm
    · rw [if_pos cursors, if_pos mirrors]
      exact ⟨fun e => absurd mirrors.symm e.2, fun e => by omega⟩
    · simp [cursors, mirrors, Ne.symm mirrors]
  · have apart : r.wi.toNat ≠ r.ri.toNat := fun e => cursors (BitVec.eq_of_toNat_eq e)
    rw [if_neg cursors]
    refine ⟨fun e => absurd e.1.symm cursors, fun e => ?_⟩
    split at e <;> omega

/-- The status, case by case (R95). -/
theorem Ring.status_by_cases (r : Ring) : r.status =
    if r.ri = r.wi ∧ r.rm = r.wm then .empty else if r.ri = r.wi ∧ r.rm ≠ r.wm then .full else .partly := by
  unfold Ring.status
  by_cases cursors : r.ri = r.wi
  · by_cases mirrors : r.rm = r.wm <;> simp [cursors, mirrors]
  · simp [cursors]

/-- Settles O29: each read tells a quantity of the ring, and under the invariant the cursors and mirrors decide whether it is
empty or full. -/
theorem statusReadsTellTheCursors : Obligations.StatusReadsTellTheCursors := by
  intro s rb r hr hw
  rw [r.length_content, ← r.status_by_cases]
  exact ⟨onRing_some hr _, onRing_some hr _, onRing_some hr _, hw.dataLen_le, hw.empty_iff, hw.full_iff⟩

end Sys2Proof.Machine

namespace Sys2Proof.Machine

/-! ## Making an instance (40_ringbuffer.md R82, R83) -/

theorem Ring.fresh_content (n : Nat) (m : Mode) : (Ring.fresh n m).content = [] :=
  List.length_eq_zero_iff.1 ((Ring.length_content _).trans (Ring.fresh_dataLen n m))

/-- A second `RB.INIT` of a name is refused whatever size it asks for (R83 c). -/
theorem rbInit_again {s : State} {rb : RingId} {r : Ring} (n : Nat) (m : Mode) (hn : s.named rb = true)
    (ha : s.abortedAt rb = false) (hr : s.ring? rb = some r) : execRbInit rb n m s = .refused .reInit := by
  unfold execRbInit; dsimp only
  rw [if_neg (by simp [hn]), if_neg (by simp [ha]), if_pos (by simp [hr])]

/-- A request below the alignment rounds to nothing (10_state.md R14). -/
theorem roundSize_below {p : Params} {n : Nat} (h : n < p.rbAlign) : roundSize p n = 0 := by
  rw [roundSize, Nat.div_eq_of_lt h, Nat.zero_mul]

/-- Settles O21: a legal rounded size makes a fresh instance, and the others are bad sizes. -/
theorem rbInitMakesAnEmptyInstance : Obligations.RbInitMakesAnEmptyInstance := by
  intro s rb n m hn ha hr size
  refine ⟨fun hmin hmax => ?_, rbInit_bad hn ha hr⟩
  have legal : ¬ BadSize (roundSize s.params n) := by
    rintro (zero | large)
    · exact Nat.ne_of_gt hmin zero
    · exact Nat.not_lt.2 hmax large
  exact ⟨_, rbInit_ok hn ha hr legal, rfl, rfl, rfl, rfl, rfl, rfl, rfl, rfl, Ring.fresh_content _ m⟩

/-- Settles O22: a request below the alignment rounds to 0, which is a bad size as one above the maximum is. -/
theorem rbInitRefusals : Obligations.RbInitRefusals := by
  intro s rb n m hn ha
  exact ⟨fun hr below => rbInit_bad hn ha hr (.inl (roundSize_below below)),
    fun hr large => rbInit_bad hn ha hr (.inr large), fun r hr => rbInit_again n m hn ha hr⟩

/-! ## What a name that does not resolve is refused with (30_encoding.md R73, 40_ringbuffer.md R84, 60_exceptions.md R177) -/

section unresolved
variable {s : State} {c : Nat} {ch : Chain}

theorem rbInit_unnamed {rb : RingId} (n : Nat) (m : Mode) (hn : s.named rb = false) :
    execRbInit rb n m s = .refused .noSuchChain := if_pos hn

theorem rbInit_aborted {rb : RingId} (n : Nat) (m : Mode) (hn : s.named rb = true) (ha : s.abortedAt rb = true) :
    execRbInit rb n m s = .refused .chainAborted :=
  (if_neg (by simp [hn])).trans (if_pos ha)

/-- A parser takes nothing before its start-up `PS.RESET` (93_implementation_defined.md U10). -/
theorem onParser_notReset (hc : s.chains[c]? = some ch) (ha : ch.aborted = false) (hr : ch.parser.ready = false)
    (f : Chain → Answer) : s.onParser c f = .refused .parserNotReset :=
  (onChain_some hc ha _).trans (if_neg (by simp [hr]))

/-- Where no operation on the chain is taken, no bytes are. -/
theorem receive_refused {e : Refusal} (h : ∀ f, s.onChain c f = .refused e) (bytes : List Byte) :
    receive c bytes s = .refused e := by
  rw [receive, arrive, h]; rfl

/-- Bytes that arrive before the start-up `PS.RESET` find a parser that takes none. -/
theorem receive_notReset (hc : s.chains[c]? = some ch) (ha : ch.aborted = false) (hr : ch.parser.ready = false)
    (bytes : List Byte) : receive c bytes s = .refused .parserNotReset := by
  have hc1 := setChain_chains_same (ch := { ch with rxs := ch.rxs ++ bytes }) hc
  rw [receive, arrive_started hc ha, next_andThen, onChain_some hc1 ha, dspTimes, dsp, onParser_notReset hc1 ha hr]
  rfl

end unresolved

/-- Settles O23: each operation resolves its name before it does anything else. -/
theorem operationsNeedTheirInstance : Obligations.OperationsNeedTheirInstance := by
  intro s rb c d n m w fmt name op addr ack cksum onRings onParsers
  have onChains : ∀ e, (∀ f, s.onChain c f = .refused e) →
      ∀ i ∈ onParsers ++ [.psReset c, .txStep c w], exec i s = .refused e := by
    intro e h
    simp only [onParsers, List.cons_append, List.nil_append, List.forall_mem_cons, exec_wire, exec_unknown]
    exact ⟨h _, h _, h _, receive_refused h _, receive_refused h _, h _, h _, fun _ hi => by cases hi⟩
  refine ⟨fun hr => ?_, rbInit_unnamed n m, rbInit_aborted n m, fun hc => onChains _ (onChain_none hc),
    fun ch hc ha => onChains _ (onChain_aborted hc ha), fun ch hc ha hready => ?_⟩
  · have refused := onRing_none hr
    simp only [onRings, List.forall_mem_cons]
    exact ⟨refused _, refused _, refused _, refused _, refused _, refused _, refused _, refused _, refused _,
      fun _ hi => by cases hi⟩
  · have refused := onParser_notReset hc ha hready
    have bytes := receive_notReset hc ha hready
    simp only [onParsers, List.forall_mem_cons, exec_wire, exec_unknown]
    exact ⟨refused _, refused _, refused _, bytes _, bytes _, fun _ hi => by cases hi⟩

end Sys2Proof.Machine

namespace Sys2Proof.Machine

/-! ## What `FC.PACK` and `FC.STAMP` answer (41_framecodec_pack.md R103, R104, R106) -/

section packSide
variable {s : State} {ck : CkSel} {op addr : Byte} {payload image frame : List Byte}

/-- `FC.PACK` answers with the frame and leaves the state (R103). -/
theorem exec_fcPack_ok (h : pack s.params.ck op addr payload = .ok frame) :
    exec (.fcPack op addr payload) s = .next (s.reply s.who (.frame frame) .none) := by
  change execFcPack op addr payload s = _
  rw [execFcPack, h]

/-- `FC.PACK` passes on the refusal of the packing (R104). -/
theorem exec_fcPack_error {e : Refusal} (h : pack s.params.ck op addr payload = .error e) :
    exec (.fcPack op addr payload) s = .refused e := by
  change execFcPack op addr payload s = _
  rw [execFcPack, h]

/-- `FC.STAMP` answers with the frame and leaves the state (R106). -/
theorem exec_fcStamp_ok (h : stamp s.params.ck image = .ok frame) :
    exec (.fcStamp image) s = .next (s.reply s.who (.frame frame) .none) := by
  change execFcStamp image s = _
  rw [execFcStamp, h]

/-- `FC.STAMP` passes on the refusal of the stamping (R106). -/
theorem exec_fcStamp_error {e : Refusal} (h : stamp s.params.ck image = .error e) :
    exec (.fcStamp image) s = .refused e := by
  change execFcStamp image s = _
  rw [execFcStamp, h]

/-- An image without a whole header has no fields to pack (R106). -/
theorem stamp_short (h : image.length < 6) : stamp ck image = .error .imageTooShort := by
  unfold stamp
  split
  · simp at h
    omega
  · rfl

/-- Stamping reads the operands back out of a packed frame (R106). -/
theorem stamp_cmdFrame : stamp ck (cmdFrame ck op addr payload) = pack ck op addr payload := rfl

/-- A packed frame comes back from `FC.STAMP` unchanged (R106). -/
theorem stamp_of_pack (h : pack ck op addr payload = .ok frame) : stamp ck frame = .ok frame := by
  obtain ⟨-, rfl⟩ := pack_inv h
  exact stamp_cmdFrame.trans h

/-! ## The fields of a packed frame (41_framecodec_pack.md R105) -/

/-- A frame is its header and its payload (R105 a). -/
theorem pack_length (h : pack ck op addr payload = .ok frame) : frame.length = 6 + payload.length := by
  obtain ⟨-, rfl⟩ := pack_inv h
  rw [cmdFrame_eq, List.length_append]
  rfl

/-- The length byte tells the length of a payload that fits (R105 b). -/
theorem cmdFrame_lengthByte (h : payload.length ≤ 255) :
    ((cmdFrame ck op addr payload).getD 4 0#8).toNat = payload.length :=
  toNat_length_byte h

/-- What stands beside the checksum byte does not depend on `CK`. -/
theorem cmdFrame_eraseChecksum : (cmdFrame ck op addr payload).eraseIdx 5 =
    0x55#8 :: 0xAA#8 :: op :: addr :: BitVec.ofNat 8 payload.length :: payload := rfl

/-- The bytes beside the checksum tell the three operands (R105 d). -/
theorem cmdFrame_operands_inj {op' addr' : Byte} {payload' : List Byte}
    (h : (cmdFrame ck op addr payload).eraseIdx 5 = (cmdFrame ck op' addr' payload').eraseIdx 5) :
    (op, addr, payload) = (op', addr', payload') := by
  rw [cmdFrame_eraseChecksum, cmdFrame_eraseChecksum] at h
  simp only [List.cons.injEq, true_and] at h
  obtain ⟨rfl, rfl, -, rfl⟩ := h
  rfl

end packSide

/-- Settles O38: each law is a law of `cmdFrame`, which is what a successful `FC.PACK` returns. -/
theorem packLaws : Obligations.PackLaws := by
  intro ck op addr payload frame h
  obtain ⟨fits, rfl⟩ := pack_inv h
  refine ⟨pack_length h, rfl, rfl, rfl, rfl, cmdFrame_lengthByte fits, rfl, cmdFrame_valid ck op addr fits, ?_⟩
  intro op' addr' payload' frame' h' apart same
  obtain ⟨-, rfl⟩ := pack_inv h'
  exact apart (cmdFrame_operands_inj same)

/-- Settles O39: stamping is packing the fields of the image, and a packed frame has its own operands as fields. -/
theorem stampRewritesTheHeader : Obligations.StampRewritesTheHeader := by
  intro s image
  refine ⟨fun header fits => ?_, fun large => ?_, fun short => exec_fcStamp_error (stamp_short short)⟩
  · obtain ⟨frame, stamped, packed⟩ := stamp_frameLength (ck := s.params.ck) (image := image) ⟨header, fits⟩
    refine ⟨frame, packed, exec_fcStamp_ok stamped, ?_, exec_fcStamp_ok (stamp_of_pack packed)⟩
    rw [pack_length packed, List.length_drop]
    omega
  · have payloadTooLong : 255 < (image.drop 6).length := by rw [List.length_drop]; omega
    exact exec_fcStamp_error ((stamp_ok (by omega)).trans (pack_err payloadTooLong))

/-- Settles O37: a payload that fits gives the frame of `cmdFrame_eq`, and another none. -/
theorem packBuildsTheFrame : Obligations.PackBuildsTheFrame := by
  intro s op addr payload
  exact ⟨fun fits => exec_fcPack_ok (pack_ok fits), fun large => exec_fcPack_error (pack_err large)⟩

/-! ## The candidate checksums (41_framecodec_pack.md R101, R102) -/

/-- Each addition drops the carry out of bit 7, so the whole sum is taken modulo 256 (R102). -/
theorem sum8_toNat (l : List Byte) : (sum8 l).toNat = (l.map BitVec.toNat).sum % 256 := by
  induction l with
  | nil => rfl
  | cons b l ih => rw [sum8, BitVec.toNat_add, ih, List.map_cons, List.sum_cons, Nat.add_mod_mod]

/-- `xor8` folds from the right (R102). -/
theorem xor8_eq_foldr (l : List Byte) : xor8 l = l.foldr (· ^^^ ·) 0#8 := by
  induction l with
  | nil => rfl
  | cons b l ih => rw [xor8, ih, List.foldr_cons]

/-- A checksum that is injective in each single byte notices a flipped bit (R101). -/
theorem ckBitflip_of_set_inj {ck : List Byte → Byte}
    (inj : ∀ {l : List Byte} {i : Nat}, i < l.length → ∀ {x y : Byte}, ck (l.set i x) = ck (l.set i y) → x = y) :
    CkBitflip ck := by
  intro l i j inside same
  rw [← congrArg ck (set_getD_self inside)] at same
  exact flip_bit_ne _ j (inj inside same)

/-- Settles O40: exclusive-or may be folded from either side, and both checksums are injective in each byte. -/
theorem checksumCandidates : Obligations.ChecksumCandidates :=
  ⟨sum8_toNat, fun l => (xor8_eq_foldr l).trans List.foldl_eq_foldr.symm, rfl, rfl,
    ckBitflip_of_set_inj sum8_set_inj, ckBitflip_of_set_inj xor8_set_inj⟩

end Sys2Proof.Machine

namespace Sys2Proof.Machine

/-! ## Whole candidate frames (41_framecodec_pack.md R108; 42_parser.md R114, R115) -/

/-- What R108 asks of a frame but for its checksum: a candidate that a parser judges. -/
abbrev Candidate (fmt : Fmt) (f : List Byte) : Prop :=
  fmt.headerLen ≤ f.length ∧ f.getD 0 0#8 = fmt.p1 ∧ f.getD 1 0#8 = fmt.p2 ∧
  f.length = fmt.headerLen + (f.getD fmt.lenOff 0#8).toNat

section candidate
variable {params : Params} {fmt : Fmt} {f : List Byte}

theorem frameValid_iff {ck : CkSel} :
    FrameValid ck fmt f ↔ Candidate fmt f ∧ f.getD fmt.ckOff 0#8 = CkSel.eval ck (zeroed fmt f) := by
  simp only [FrameValid, Candidate, and_assoc]

/-- The checksum is looked at before the opcode (R114). -/
theorem judge_of_bad_checksum (id : Byte) (bad : CkSel.eval params.ck (zeroed fmt f) ≠ f.getD fmt.ckOff 0#8) :
    judge params fmt id f = .cksum := if_pos bad

/-- `FC.PARSE` keeps a candidate exactly when it is valid (R114, R120). -/
theorem parsedOf_judge_candidate (id : Byte) (h : Candidate fmt f) : parsedOf (judge params fmt id f) =
    if FrameValid params.ck fmt f then [(kindOf params.opmap (f.getD fmt.opOff 0#8), f)] else [] := by
  by_cases good : f.getD fmt.ckOff 0#8 = CkSel.eval params.ck (zeroed fmt f)
  · rw [if_pos (frameValid_iff.mpr ⟨h, good⟩), parsedOf_judge good]
  · rw [if_neg fun valid => good (frameValid_iff.mp valid).2, judge_of_bad_checksum id (Ne.symm good)]
    rfl

/-- From its reset condition a parser takes a candidate in quiet read units and a last one in which it judges it. -/
theorem candidate_run {p : Parser} (hw : p.Wf) (hp : p.ps = .p1) (h : Candidate p.fmt f) :
    ∃ q b u, f = b ++ u ∧ QuietRun params p b (quietSteps (f.drop p.fmt.headerLen)) q ∧ q.want = u.length ∧
      parserStep params q u = (p.judged (Scr.writeList p.scr 0 f) (judge params p.fmt p.chainId f),
        judge params p.fmt p.chainId f) := by
  obtain ⟨header, first, second, hlen⟩ := h
  obtain ⟨hd, pl, rfl, hh, hl⟩ := split_frame header first second hlen
  obtain ⟨q, b, u, hf, -, run, hwant, last⟩ := frame_run (params := params) hw hp hh hl
  refine ⟨q, b, u, hf, ?_, hwant, last⟩
  have payload : ([p.fmt.p1, p.fmt.p2] ++ hd ++ pl).drop p.fmt.headerLen = pl :=
    List.drop_left' (by have := p.fmt.headerLen_pos; simp; omega)
  rwa [payload]

end candidate

/-! ## One read unit (42_parser.md R110 to R116) -/

section parse
variable {params : Params} {p q : Parser} {u rest : List Byte} {ev : Event}

/-- A read unit of `WANT` bytes, as its transition on the view tells it. -/
theorem parserStep_of_view {v : Parser.View} (hp : p.Wf) (hw : p.want = u.length)
    (hv : p.view.step params u = (v, ev)) : ∃ q, parserStep params p u = (q, ev) ∧ q.Wf ∧ q.view = v := by
  obtain ⟨q, ev', hs, hq, -⟩ := parserStep_total (params := params) hp hw.symm
  have same := parserStep_view (params := params) hp hw.symm
  rw [hs, hv] at same
  obtain ⟨rfl, rfl⟩ := Prod.mk.inj same
  exact ⟨q, hs, hq, rfl⟩

theorem Parser.fresh_wf (fmt : Fmt) (id : Byte) : (Parser.fresh fmt id).Wf :=
  Parser.wf_reset ⟨List.Pairwise.nil, nofun⟩ rfl rfl

/-- A read unit either is taken or skipped without an event, which leaves under assembly the last bytes of what there was, or
it completes a candidate, which is judged. -/
theorem Parser.Wf.view_step_outcome (hp : p.Wf) (hw : p.want = u.length) :
    ∃ v ev, p.view.step params u = (v, ev) ∧ v.fmt = p.fmt ∧
      (ev = .none ∧ v.frame <:+ p.frame ++ u ∨
        Candidate p.fmt (p.frame ++ u) ∧ v.frame = [] ∧ ev = judge params p.fmt p.chainId (p.frame ++ u)) := by
  have h6 := p.fmt.headerLen_pos
  cases hps : p.ps with
  | p1 =>
    obtain ⟨b, rfl⟩ := unit_of_want_one hw.symm (.inl hps)
    rw [Parser.view_eq hps rfl, Parser.View.step_p1]
    split_ifs
    · exact ⟨_, _, rfl, rfl, .inl ⟨rfl, List.suffix_refl _⟩⟩
    · refine ⟨_, _, rfl, rfl, .inl ⟨rfl, ?_⟩⟩
      rw [Parser.frame_of_acc_zero (hp.2.1 hps)]
      exact List.nil_suffix
  | p2 =>
    obtain ⟨b, rfl⟩ := unit_of_want_one hw.symm (.inr hps)
    rw [Parser.view_eq hps rfl, Parser.View.step_p2]
    split_ifs
    · exact ⟨_, _, rfl, rfl, .inl ⟨rfl, List.suffix_refl _⟩⟩
    · exact ⟨_, _, rfl, rfl, .inl ⟨rfl, List.nil_suffix⟩⟩
  | hdr =>
    have hu : u.length = p.fmt.headerLen - 2 := hw.symm.trans (by unfold Parser.want; rw [hps])
    rw [Parser.view_eq hps rfl, Parser.View.step_hdr]
    split_ifs with empty
    · refine ⟨_, _, rfl, rfl, .inr ⟨?_, rfl, rfl⟩⟩
      have hlen : (p.frame ++ u).length = p.fmt.headerLen := by simp [hp.frame_hdr hps]; omega
      refine ⟨hlen.ge, ?_, ?_, by rw [empty, hlen]; rfl⟩ <;> rw [hp.frame_hdr hps] <;> rfl
    · exact ⟨_, _, rfl, rfl, .inl ⟨rfl, List.suffix_refl _⟩⟩
  | body =>
    obtain ⟨hheader, first, second, hplen, -⟩ := hp.frame_body hps
    have hu : u.length = (p.frame.getD p.fmt.lenOff 0#8).toNat :=
      hw.symm.trans ((by unfold Parser.want; rw [hps] : p.want = p.plen).trans hplen)
    have := p.fmt.lenOff_lt
    have := p.fmt.ckOff_lt
    rw [Parser.view_eq hps rfl]
    refine ⟨_, _, rfl, rfl, .inr ⟨⟨by rw [List.length_append]; omega, ?_, ?_, ?_⟩, rfl, rfl⟩⟩
    · rw [getD_append_left (by omega), first]
    · rw [getD_append_left (by omega), second]
    · rw [getD_append_left (by omega), List.length_append, hheader, hu]

/-- The outcomes of a read unit on the parser itself. -/
theorem parserStep_outcome (hp : p.Wf) (hw : p.want = u.length) :
    ∃ q ev, parserStep params p u = (q, ev) ∧ q.Wf ∧ q.fmt = p.fmt ∧
      (ev = .none ∧ q.frame <:+ p.frame ++ u ∨
        Candidate p.fmt (p.frame ++ u) ∧ q.frame = [] ∧ ev = judge params p.fmt p.chainId (p.frame ++ u)) := by
  obtain ⟨v, ev, hv, hfmt, outcome⟩ := hp.view_step_outcome (params := params) hw
  obtain ⟨q, hs, hq, rfl⟩ := parserStep_of_view hp hw hv
  exact ⟨q, ev, hs, hq, hfmt, outcome⟩

/-! ## The loop of `FC.PARSE` (42_parser.md R120) -/

/-- The loop reads nothing outside the view, and any fuel that is enough gives the same. -/
theorem parseLoop_congr {k k' : Nat} {bytes : List Byte} (hp : p.Wf) (hq : q.Wf) (hv : q.view = p.view)
    (hk : bytes.length < k) (hk' : bytes.length < k') :
    parseLoop params k p bytes = parseLoop params k' q bytes := by
  induction k generalizing p q k' bytes with
  | zero => omega
  | succ k ih =>
    obtain ⟨k', rfl⟩ := Nat.exists_eq_add_one_of_ne_zero (Nat.ne_zero_of_lt hk')
    have hwant : q.want = p.want := by rw [hq.want_view, hv, ← hp.want_view]
    rw [parseLoop, parseLoop, hwant]
    by_cases short : bytes.length < p.want
    · rw [if_pos short, if_pos short]
    · have hu : p.want = (bytes.take p.want).length := by simp; omega
      have hpos := hp.want_range.1
      obtain ⟨v, ev, hstep⟩ : ∃ v ev, p.view.step params (bytes.take p.want) = (v, ev) := ⟨_, _, rfl⟩
      obtain ⟨p', hsp, hp', hvp⟩ := parserStep_of_view hp hu hstep
      obtain ⟨q', hsq, hq', hvq⟩ := parserStep_of_view hq (hwant.trans hu) (hv ▸ hstep)
      rw [if_neg short, if_neg short, hsp, hsq]
      have rest : (bytes.drop p.want).length < k ∧ (bytes.drop p.want).length < k' := by simp; omega
      exact congrArg (parsedOf ev ++ ·) (ih hp' hq' (hvq.trans hvp.symm) rest.1 rest.2)

/-- What a parser finds in a buffer: the loop with the fuel that is enough. -/
def parseFrom (params : Params) (p : Parser) (bytes : List Byte) : List (Kind × List Byte) :=
  parseLoop params (bytes.length + 1) p bytes

theorem parseFrom_congr {bytes : List Byte} (hp : p.Wf) (hq : q.Wf) (hv : q.view = p.view) :
    parseFrom params p bytes = parseFrom params q bytes :=
  parseLoop_congr hp hq hv (Nat.lt_succ_self _) (Nat.lt_succ_self _)

/-- A parser that sees what a fresh one sees finds what `FC.PARSE` finds. -/
theorem parseFrom_eq_parseAll {fmt : Fmt} {bytes : List Byte} (hp : p.Wf) (hv : p.view = ⟨fmt, 0#8, .p1, []⟩) :
    parseFrom params p bytes = parseAll params fmt bytes :=
  parseFrom_congr (q := Parser.fresh fmt 0#8) hp (Parser.fresh_wf _ _) hv.symm

/-- Fewer than `WANT` bytes are a short read. -/
theorem parseFrom_short {bytes : List Byte} (short : bytes.length < p.want) : parseFrom params p bytes = [] :=
  if_pos short

theorem parseFrom_unit (hp : p.Wf) (hw : p.want = u.length) (hs : parserStep params p u = (q, ev)) :
    parseFrom params p (u ++ rest) = parsedOf ev ++ parseFrom params q rest := by
  have hpos := hp.want_range.1
  rw [parseFrom, parseLoop, if_neg (by simp; omega), hw, List.take_left, List.drop_left, hs]
  dsimp only
  rw [parseFrom, parseLoop_congr (parserStep_wf hp hw hs) (parserStep_wf hp hw hs) rfl (by simp; omega)
    (Nat.lt_succ_self _)]

theorem QuietRun.wf {b : List Byte} {n : Nat} (h : QuietRun params p b n q) (hp : p.Wf) : q.Wf := by
  induction h with
  | nil => exact hp
  | cons hw _ hs _ ih => exact ih (parserStep_wf hp hw hs)

theorem parseFrom_quietRun {b : List Byte} {n : Nat} (hp : p.Wf) (h : QuietRun params p b n q) :
    parseFrom params p (b ++ rest) = parseFrom params q rest := by
  induction h with
  | nil => rfl
  | cons hw _ hs _ ih =>
    rw [List.append_assoc, parseFrom_unit hp hw hs, ih (parserStep_wf hp hw hs)]
    rfl

end parse

/-! ## What `FC.PARSE` finds at the front of a buffer (42_parser.md R122, R123) -/

section parseAll
variable {params : Params} {fmt : Fmt} {f rest : List Byte} {b b' : Byte}

theorem parseAll_nil : parseAll params fmt [] = [] := rfl

/-- A candidate at the front is delivered if it is valid and dropped whole if not, and parsing goes on behind it. -/
theorem parseAll_candidate (h : Candidate fmt f) : parseAll params fmt (f ++ rest) =
    (if FrameValid params.ck fmt f then [(kindOf params.opmap (f.getD fmt.opOff 0#8), f)] else []) ++
      parseAll params fmt rest := by
  have hp := Parser.fresh_wf fmt 0#8
  obtain ⟨q, b, u, hf, run, hwant, last⟩ := candidate_run (params := params) hp rfl h
  have hjudged := parserStep_wf (run.wf hp) hwant last
  calc parseAll params fmt (f ++ rest) = parseFrom params (Parser.fresh fmt 0#8) (b ++ (u ++ rest)) := by
        rw [hf, List.append_assoc]; rfl
    _ = parsedOf (judge params fmt 0#8 f) ++ parseAll params fmt rest := by
        rw [parseFrom_quietRun hp run, parseFrom_unit (run.wf hp) hwant last,
          parseFrom_eq_parseAll (fmt := fmt) hjudged (Parser.view_judged ..)]
        rfl
    _ = _ := by rw [parsedOf_judge_candidate _ h]

/-- A valid frame at the front is delivered, with the kind of its opcode. -/
theorem parseAll_valid (h : FrameValid params.ck fmt f) : parseAll params fmt (f ++ rest) =
    (kindOf params.opmap (f.getD fmt.opOff 0#8), f) :: parseAll params fmt rest := by
  rw [parseAll_candidate (frameValid_iff.mp h).1, if_pos h]
  rfl

/-- A candidate at the front with a wrong checksum is dropped whole. -/
theorem parseAll_bad_checksum (h : Candidate fmt f)
    (bad : f.getD fmt.ckOff 0#8 ≠ CkSel.eval params.ck (zeroed fmt f)) :
    parseAll params fmt (f ++ rest) = parseAll params fmt rest := by
  rw [parseAll_candidate h, if_neg fun valid => bad (frameValid_iff.mp valid).2]
  rfl

/-- A byte that is no first preamble byte is skipped (R110). -/
theorem parseAll_skip (h : b ≠ fmt.p1) : parseAll params fmt (b :: rest) = parseAll params fmt rest := by
  have hs : parserStep params (Parser.fresh fmt 0#8) [b] = (Parser.fresh fmt 0#8, .none) :=
    (parserStep_p1 rfl).trans (if_neg h)
  exact parseFrom_unit (u := [b]) (Parser.fresh_wf _ _) rfl hs

/-- Behind a first preamble byte a fresh parser is in `S_P2`. -/
theorem parseAll_p1 : ∃ q : Parser, q.Wf ∧ q.view = ⟨fmt, 0#8, .p2, [fmt.p1]⟩ ∧
    ∀ rest, parseAll params fmt (fmt.p1 :: rest) = parseFrom params q rest := by
  have hp := Parser.fresh_wf fmt 0#8
  have hw : (Parser.fresh fmt 0#8).want = [fmt.p1].length := rfl
  obtain ⟨q, hs, hq, hv⟩ := parserStep_of_view (params := params) hp hw
    ((Parser.View.step_p1 params fmt 0#8 [] fmt.p1).trans (if_pos rfl))
  exact ⟨q, hq, hv, fun rest => parseFrom_unit hp hw hs⟩

/-- A first preamble byte is dropped together with a byte that is no second preamble byte (R111). -/
theorem parseAll_false_start (h : b' ≠ fmt.p2) :
    parseAll params fmt (fmt.p1 :: b' :: rest) = parseAll params fmt rest := by
  obtain ⟨p, hp, hv, front⟩ := parseAll_p1 (params := params) (fmt := fmt)
  have hw : p.want = [b'].length := by rw [hp.want_view, hv]; rfl
  obtain ⟨q, hs, hq, hvq⟩ := parserStep_of_view hp hw
    (hv ▸ (Parser.View.step_p2 params fmt 0#8 [fmt.p1] b').trans (if_neg h))
  rw [front, ← parseFrom_eq_parseAll hq hvq]
  exact parseFrom_unit (u := [b']) hp hw hs

/-- Behind a preamble a fresh parser is in `S_HDR`. -/
theorem parseAll_preamble : ∃ q : Parser, q.Wf ∧ q.view = ⟨fmt, 0#8, .hdr, [fmt.p1, fmt.p2]⟩ ∧
    ∀ rest, parseAll params fmt (fmt.p1 :: fmt.p2 :: rest) = parseFrom params q rest := by
  obtain ⟨p, hp, hv, front⟩ := parseAll_p1 (params := params) (fmt := fmt)
  have hw : p.want = [fmt.p2].length := by rw [hp.want_view, hv]; rfl
  obtain ⟨q, hs, hq, hvq⟩ := parserStep_of_view hp hw
    (hv ▸ (Parser.View.step_p2 params fmt 0#8 [fmt.p1] fmt.p2).trans (if_pos rfl))
  exact ⟨q, hq, hvq, fun rest => (front _).trans (parseFrom_unit hp hw hs)⟩

/-- A header that announces more bytes than there are leaves a parser that waits for them (R117). -/
theorem parseAll_short_payload {hd pl : List Byte} (hh : hd.length = fmt.headerLen - 2)
    (short : pl.length < (([fmt.p1, fmt.p2] ++ hd).getD fmt.lenOff 0#8).toNat) :
    parseAll params fmt ([fmt.p1, fmt.p2] ++ hd ++ pl) = [] := by
  obtain ⟨p, hp, hv, front⟩ := parseAll_preamble (params := params) (fmt := fmt)
  have hw : p.want = hd.length := by rw [hp.want_view, hv, hh]; rfl
  have announced : ([fmt.p1, fmt.p2] ++ hd).getD fmt.lenOff 0#8 ≠ 0#8 := fun zero => by
    rw [zero] at short
    exact absurd short (Nat.not_lt_zero _)
  obtain ⟨q, hs, hq, hvq⟩ := parserStep_of_view hp hw
    (hv ▸ (Parser.View.step_hdr params fmt 0#8 [fmt.p1, fmt.p2] hd).trans (if_neg announced))
  have waits : pl.length < q.want := by rw [hq.want_view, hvq]; exact short
  calc parseAll params fmt ([fmt.p1, fmt.p2] ++ hd ++ pl) = parseFrom params p (hd ++ pl) := front (hd ++ pl)
    _ = parseFrom params q pl := parseFrom_unit hp hw hs
    _ = [] := parseFrom_short waits

/-- What `FC.PARSE` answers (R120). -/
theorem exec_fcParse_iff {s : State} {bytes : List Byte} {l : List (Kind × List Byte)} :
    exec (.fcParse fmt bytes) s = .next (s.reply s.who (.frames l) .none) ↔
      parseAll s.params fmt bytes = l := by
  change Host.Outcome.next (s.reply s.who (.frames (parseAll s.params fmt bytes)) .none) = _ ↔ _
  simp [State.reply]

end parseAll

/-- Settles O48: a packed frame is valid for every `CK`, and nothing stands behind it. -/
theorem roundTrip : Obligations.RoundTrip := by
  intro s op addr payload fits
  have packed := pack_ok (ck := s.params.ck) (op := op) (addr := addr) fits
  refine ⟨_, packed, exec_fcParse_iff.mpr ?_, rfl, rfl, rfl⟩
  have found := parseAll_valid (params := s.params) (rest := []) (cmdFrame_valid s.params.ck op addr fits)
  rwa [List.append_nil, parseAll_nil] at found

/-- Settles O49: each clause is what `FC.PARSE` finds at the front of the buffer; the source's sequence is a false start, a
byte to skip and a valid frame. -/
theorem resynchronisation : Obligations.Resynchronisation := by
  intro s fmt f rest l b b' hrest
  simp only [exec_fcParse_iff] at hrest ⊢
  subst hrest
  refine ⟨parseAll_valid, ?_, parseAll_skip, ?_, fun valid => ?_⟩
  · intro header first second hlen bad
    exact parseAll_bad_checksum ⟨header, first, second, hlen⟩ bad
  · rintro rfl mismatch
    exact parseAll_false_start mismatch
  · have found := parseAll_valid (params := s.params) (rest := []) valid
    rw [List.append_nil, parseAll_nil] at found
    calc parseAll s.params .ack ([0xAA#8, 0xAA#8, 0x55#8] ++ f)
        = parseAll s.params .ack (0x55#8 :: f) := parseAll_false_start (by decide)
      _ = parseAll s.params .ack f := parseAll_skip (by decide)
      _ = _ := found

end Sys2Proof.Machine

namespace Sys2Proof.Machine

/-! ## Everything `FC.PARSE` returns (42_parser.md R120) -/

/-- Frames that stand in the last bytes of a buffer stand in the buffer. -/
theorem StandIn.of_suffix {fs : List (List Byte)} {l l' : List Byte} (h : l <:+ l') (k : StandIn fs l) :
    StandIn fs l' := by
  obtain ⟨before, rfl⟩ := h
  cases fs with
  | nil => trivial
  | cons f fs =>
    obtain ⟨skipped, rest, rfl, k⟩ := k
    exact ⟨before ++ skipped, rest, by simp only [List.append_assoc], k⟩

/-- From any parser that meets its invariant: what comes out is valid, of the kind of its opcode, and stands in what is
under assembly with the buffer behind it. -/
theorem parseLoop_sound {params : Params} {k : Nat} {p : Parser} {bytes : List Byte} (hp : p.Wf) :
    (∀ x ∈ parseLoop params k p bytes,
      FrameValid params.ck p.fmt x.2 ∧ x.1 = kindOf params.opmap (x.2.getD p.fmt.opOff 0#8)) ∧
    StandIn ((parseLoop params k p bytes).map Prod.snd) (p.frame ++ bytes) := by
  induction k generalizing p bytes with
  | zero => exact ⟨nofun, trivial⟩
  | succ k ih =>
    rw [parseLoop]
    by_cases short : bytes.length < p.want
    · rw [if_pos short]
      exact ⟨nofun, trivial⟩
    · have hw : p.want = (bytes.take p.want).length := by simp; omega
      have unit : p.frame ++ bytes.take p.want ++ bytes.drop p.want = p.frame ++ bytes := by
        rw [List.append_assoc, List.take_append_drop]
      obtain ⟨q, ev, hs, hq, hfmt, outcome⟩ := parserStep_outcome (params := params) hp hw
      obtain ⟨valid, stand⟩ := ih (bytes := bytes.drop p.want) hq
      rw [hfmt] at valid
      rw [if_neg short, hs, ← unit]
      dsimp only
      rcases outcome with ⟨rfl, skipped, hskip⟩ | ⟨cand, restart, rfl⟩
      · exact ⟨valid, stand.of_suffix ⟨skipped, by rw [← List.append_assoc, hskip]⟩⟩
      · rw [restart] at stand
        rw [parsedOf_judge_candidate _ cand]
        split_ifs with good
        · exact ⟨List.forall_mem_cons.mpr ⟨⟨good, rfl⟩, valid⟩, [], _, rfl, stand⟩
        · exact ⟨valid, stand.of_suffix (List.suffix_append _ _)⟩

/-- Settles O47: the buffer is read by a fresh parser, with nothing under assembly. -/
theorem wholeBufferParseCompletes : Obligations.WholeBufferParseCompletes := fun _ fmt _ =>
  ⟨_, exec_fcParse_iff.mpr rfl, parseLoop_sound (Parser.fresh_wf fmt 0#8)⟩

/-! ## A packed frame with a byte changed (42_parser.md R124) -/

section changed
variable {params : Params} {fmt : Fmt} {f : List Byte} {i : Nat}

/-- A frame stays a candidate where neither its preamble nor its length byte is changed. -/
theorem Candidate.set (h : Candidate fmt f) (h0 : i ≠ 0) (h1 : i ≠ 1) (hlen : i ≠ fmt.lenOff) (x : Byte) :
    Candidate fmt (f.set i x) := by
  obtain ⟨header, first, second, hl⟩ := h
  exact ⟨by rwa [List.length_set], by rwa [getD_set_ne h0], by rwa [getD_set_ne h1],
    by rwa [List.length_set, getD_set_ne hlen]⟩

/-- `FC.PARSE` finds nothing in a candidate with a wrong checksum. -/
theorem parseAll_nothing (h : Candidate fmt f)
    (bad : f.getD fmt.ckOff 0#8 ≠ CkSel.eval params.ck (zeroed fmt f)) : parseAll params fmt f = [] := by
  have found := parseAll_bad_checksum (rest := []) h bad
  rwa [List.append_nil, parseAll_nil] at found

/-- Under `CK_BITFLIP` a flipped bit outside the checksum byte changes the checksum. -/
theorem checksum_of_flip {ck : CkSel} (hck : CkBitflip (CkSel.eval ck)) (hi : i < f.length) (hne : i ≠ fmt.ckOff)
    (j : Fin 8) :
    CkSel.eval ck (zeroed fmt (f.set i (f.getD i 0#8 ^^^ (1#8 <<< j.val)))) ≠ CkSel.eval ck (zeroed fmt f) := by
  have noticed := hck (zeroed fmt f) i j (by simpa [zeroed, withByte] using hi)
  have same : (zeroed fmt f).getD i 0#8 = f.getD i 0#8 := getD_set_ne hne.symm
  rw [same] at noticed
  unfold zeroed withByte at noticed ⊢
  rwa [List.set_comm _ _ hne]

/-- (b) a flipped bit outside the preamble, the length byte and the checksum byte of a valid frame. -/
theorem parseAll_flip (h : FrameValid params.ck fmt f) (hck : CkBitflip (CkSel.eval params.ck)) (hi : i < f.length)
    (h0 : i ≠ 0) (h1 : i ≠ 1) (hlen : i ≠ fmt.lenOff) (hne : i ≠ fmt.ckOff) (j : Fin 8) :
    parseAll params fmt (f.set i (f.getD i 0#8 ^^^ (1#8 <<< j.val))) = [] := by
  obtain ⟨cand, good⟩ := frameValid_iff.mp h
  refine parseAll_nothing (cand.set h0 h1 hlen _) ?_
  rw [getD_set_ne hne, good]
  exact (checksum_of_flip hck hi hne j).symm

/-- (c) another checksum byte in a valid frame. -/
theorem parseAll_other_checksum (h : FrameValid params.ck fmt f) {x : Byte} (hx : x ≠ f.getD fmt.ckOff 0#8) :
    parseAll params fmt (f.set fmt.ckOff x) = [] := by
  obtain ⟨cand, good⟩ := frameValid_iff.mp h
  have hlen := fmt.lenOff_lt
  have hck := fmt.ckOff_lt
  have inside : fmt.ckOff < f.length := hck.trans_le cand.1
  refine parseAll_nothing (cand.set (by omega) (by omega) (by omega) x) ?_
  have same : zeroed fmt (f.set fmt.ckOff x) = zeroed fmt f := List.set_set ..
  rwa [getD_set_eq inside, same, ← good]

end changed

/-- Settles O50: (b) and (c) are wrong checksums, and a larger length byte announces a payload that does not come. -/
theorem checksumSensitivity : Obligations.ChecksumSensitivity := by
  intro s op addr payload f packed
  simp only [exec_fcParse_iff]
  obtain ⟨fits, rfl⟩ := pack_inv packed
  have valid := cmdFrame_valid s.params.ck op addr fits
  refine ⟨fun i j hck hi place => ?_, fun x hx => parseAll_other_checksum valid hx, fun x larger => ?_⟩
  · have hlen : Fmt.cmd.lenOff = 4 := rfl
    have hckOff : Fmt.cmd.ckOff = 5 := rfl
    exact parseAll_flip valid hck hi (by omega) (by omega) (by omega) (by omega) j
  · exact parseAll_short_payload (fmt := .cmd) (hd := [op, addr, x, _]) rfl larger

/-- Settles O51: one frame and one buffer, both of which the model evaluates. -/
theorem lengthByteCanFoolTheChecksum : Obligations.LengthByteCanFoolTheChecksum := by
  unfold Obligations.LengthByteCanFoolTheChecksum
  decide

end Sys2Proof.Machine

namespace Sys2Proof.Machine

/-! ## `PS.RX`, `PS.RESET` and `PS.WANT` on a started chain (42_parser.md R109 to R119, R121) -/

section started
variable {s : State} {c : Nat} {ch : Chain} {bytes : List Byte}

/-- A short read is no step (R117). -/
theorem psRx_short (hc : s.chains[c]? = some ch) (ha : ch.aborted = false) (hr : ch.parser.ready = true)
    (fits : bytes.length ≤ ch.parser.want) (short : bytes.length < ch.parser.want ∨ ch.rxs.length < ch.parser.want) :
    exec (.psRx c bytes) s = .next (s.reply s.who .none .none) :=
  (onParser_some hc ha hr _).trans ((if_neg (Nat.not_lt.mpr fits)).trans (if_pos short))

/-- More bytes than `WANT` are refused (R121). -/
theorem psRx_overread (hc : s.chains[c]? = some ch) (ha : ch.aborted = false) (hr : ch.parser.ready = true)
    (large : ch.parser.want < bytes.length) : exec (.psRx c bytes) s = .refused .overread :=
  (onParser_some hc ha hr _).trans (if_pos large)

/-- `WANT` bytes that a long enough stream does not begin with are refused (assumption log 14). -/
theorem psRx_notOnStream (hc : s.chains[c]? = some ch) (ha : ch.aborted = false) (hr : ch.parser.ready = true)
    (hw : bytes.length = ch.parser.want) (enough : ch.parser.want ≤ ch.rxs.length) (front : ¬ bytes <+: ch.rxs) :
    exec (.psRx c bytes) s = .refused .notOnStream :=
  (onParser_some hc ha hr _).trans <| (if_neg (by omega)).trans <| (if_neg (by omega)).trans <|
    if_neg (by rwa [List.isPrefixOf_iff_prefix])

end started

/-- Settles O44: one lemma for each of the three. -/
theorem shortReadsAndRefusals : Obligations.ShortReadsAndRefusals := by
  intro s c ch bytes hc ha hr w
  refine ⟨fun short => ?_, psRx_overread hc ha hr, psRx_notOnStream hc ha hr⟩
  rcases short with short | ⟨hw, short⟩
  · exact psRx_short hc ha hr short.le (.inl short)
  · exact psRx_short hc ha hr hw.le (.inr short)

/-- Settles O45: both operations read off their definitions, and the announced length by the invariant in `S_BODY`. -/
theorem parserResetAndWant : Obligations.ParserResetAndWant := by
  intro s c ch hc ha
  refine ⟨onChain_some hc ha _, fun hr => onParser_some hc ha hr _, fun hw hps => ?_⟩
  obtain ⟨hlen, -⟩ := hw.frame_body hps
  have := ch.parser.fmt.lenOff_lt
  have := ch.parser.fmt.ckOff_lt
  exact ⟨hlen, Parser.frame_getD (by rw [← Parser.frame_length]; omega)⟩

/-- Settles O41: the transitions of `S_P1` and `S_P2`, matching and not. -/
theorem preambleSearch : Obligations.PreambleSearch := by
  intro s c ch b rest hc ha hr hx after
  have wantsOne : ∀ ps, ch.parser.ps = ps → ps = .p1 ∨ ps = .p2 → ch.parser.want = [b].length := by
    rintro ps hps (rfl | rfl) <;> (unfold Parser.want; rw [hps]; rfl)
  refine ⟨fun hps hit => ?_, fun hps miss => ?_, fun hps hit => ?_, fun hps miss => ?_,
    fun i j => Scr.read_write ch.parser.scr i j b⟩
  · exact psRx_ok hc ha hr (wantsOne _ hps (.inl rfl)) hx ((parserStep_p1 hps).trans (if_pos hit))
  · exact psRx_ok hc ha hr (wantsOne _ hps (.inl rfl)) hx ((parserStep_p1 hps).trans (if_neg miss))
  · exact psRx_ok hc ha hr (wantsOne _ hps (.inr rfl)) hx ((parserStep_p2 hps).trans (if_pos hit))
  · exact psRx_ok hc ha hr (wantsOne _ hps (.inr rfl)) hx ((parserStep_p2 hps).trans (if_neg miss))

/-- Settles O42: the transition of `S_HDR`, by the length byte. -/
theorem headerUnit : Obligations.HeaderUnit := by
  intro s c ch bytes rest hc ha hr hwf hps hx hlen p f scr
  have hw : p.want = bytes.length := (by unfold Parser.want; rw [hps] : p.want = p.fmt.headerLen - 2).trans hlen.symm
  have hstep := parserStep_hdr (params := s.params) hwf hps hlen
  refine ⟨fun i => ?_, fun announced => ?_, fun empty => ?_⟩
  · have h6 := ch.parser.fmt.headerLen_pos
    have hend : 2 + bytes.length = p.fmt.headerLen := by
      change _ = ch.parser.fmt.headerLen
      omega
    rw [← hend]
    exact Scr.read_writeList p.scr 2 i bytes
  · obtain ⟨hframe, hplen⟩ := plen_accumulate hwf hps hlen
    exact ⟨_, rfl, hframe, hplen, psRx_ok hc ha hr hw hx (hstep.trans (if_neg announced))⟩
  · exact psRx_ok hc ha hr hw hx (hstep.trans (if_pos empty))

/-! ## Judging by the opcode alone (42_parser.md R114, R115) -/

section judge
variable {params : Params} {fmt : Fmt} {f : List Byte}

theorem judge_nonce (id : Byte) (good : CkSel.eval params.ck (zeroed fmt f) = f.getD fmt.ckOff 0#8)
    (hop : f.getD fmt.opOff 0#8 = params.opmap.returnNonce) :
    judge params fmt id f = .frame .nonce (f ++ [id]) :=
  (if_neg (not_not.mpr good)).trans (if_pos hop)

theorem judge_regack (id : Byte) (good : CkSel.eval params.ck (zeroed fmt f) = f.getD fmt.ckOff 0#8)
    (hop : f.getD fmt.opOff 0#8 ≠ params.opmap.returnNonce) (known : f.getD fmt.opOff 0#8 ∈ params.opmap.recognized) :
    judge params fmt id f = .frame .regack (f ++ [id]) :=
  (if_neg (not_not.mpr good)).trans ((if_neg hop).trans (if_pos known))

theorem judge_unknown (id : Byte) (good : CkSel.eval params.ck (zeroed fmt f) = f.getD fmt.ckOff 0#8)
    (unknown : f.getD fmt.opOff 0#8 ∉ params.opmap.recognized) : judge params fmt id f = .unknownOpcode f := by
  have hop : f.getD fmt.opOff 0#8 ≠ params.opmap.returnNonce := fun e =>
    unknown (e ▸ byteOf_mem_recognized params.opmap .returnNonce)
  exact (if_neg (not_not.mpr good)).trans ((if_neg hop).trans (if_neg unknown))

end judge

/-- Settles O43: the transition of `S_BODY`, by what the candidate is judged to be. -/
theorem bodyUnit : Obligations.BodyUnit := by
  intro s c ch f bytes rest hc ha hr hwf hps hframe hx hlen p candidate good op scr after
  subst hframe
  obtain ⟨hheader, -, -, hplen, -⟩ := hwf.frame_body hps
  have hw : p.want = bytes.length :=
    (by unfold Parser.want; rw [hps] : p.want = p.plen).trans (hplen.trans hlen.symm)
  have hbytes : bytes.length ≤ 255 := by rw [hlen]; exact Nat.le_of_lt_succ (BitVec.isLt _)
  have judged : ∀ ev, judge s.params p.fmt p.chainId candidate = ev →
      exec (.psRx c bytes) s = .next (after (if ev = .cksum then 1 else 0) ev) := by
    rintro ev rfl
    exact psRx_ok hc ha hr hw hx (parserStep_body hps rfl hheader hbytes)
  exact ⟨fun bad => judged _ (judge_of_bad_checksum _ bad), fun ok nonce => judged _ (judge_nonce _ ok nonce),
    fun ok hop known => judged _ (judge_regack _ ok hop known), fun ok unknown => judged _ (judge_unknown _ ok unknown),
    fun i => Scr.read_writeList p.scr p.fmt.headerLen i bytes⟩

end Sys2Proof.Machine

namespace Sys2Proof.Machine

/-! ## A whole frame arrives at a chain in step (43_pipeline.md R127, R128; 44_wire_opcodes.md R141 to R156) -/

/-- Chain `c`, which is `ch` in the state, with another parser and other bytes on its stream, after the RX agent has given
`n` replies with nothing to report. -/
def State.quietly (s : State) (c : Nat) (ch : Chain) (p : Parser) (rxs : List Byte) (n : Nat) : State :=
  { s.setChain c { ch with parser := p, rxs := rxs } with
    replies := List.replicate n ⟨.rx c, .none, .none, .nothing⟩ ++ s.replies }

section arrival
variable {s : State} {c : Nat} {ch : Chain} {fmt : Fmt} {f : List Byte}

theorem parserStep_ready {params : Params} {p q : Parser} {u : List Byte} {ev : Event}
    (h : parserStep params p u = (q, ev)) : q.ready = p.ready := by
  obtain ⟨-, -, -, hready⟩ := parserStep_keeps h
  exact hready

/-- A running RX agent takes one read unit. -/
theorem dsp_quietly {p q : Parser} {u rest : List Byte} {ev : Event} (hc : s.chains[c]? = some ch)
    (ha : ch.aborted = false) (hs : ch.rxHalted = false) (hh : ch.holds (.rx c) = false) (hr : p.ready = true)
    (hw : p.want = u.length) (hstep : parserStep s.params p u = (q, ev)) (n : Nat) :
    dsp c (s.quietly c ch p (u ++ rest) n) = route c ev ((s.quietly c ch q rest n).reply (.rx c) .none ev) := by
  have hc' : (s.quietly c ch p (u ++ rest) n).chains[c]? = some { ch with parser := p, rxs := u ++ rest } :=
    setChain_chains_same hc
  have left : ({ ch with parser := q, rxs := (u ++ rest).drop u.length } : Chain) =
      { ch with parser := q, rxs := rest } := by rw [List.drop_left]
  rw [dsp_eq hc' ha hr hs hh hw (by simp) ((List.take_left (l₁ := u) (l₂ := rest)).symm ▸ hstep), left]
  unfold State.quietly State.setChain
  rw [List.set_set]

/-- A running RX agent takes read units that report nothing one by one. -/
theorem dspTimes_quietRun {p q : Parser} {b rest : List Byte} {n : Nat} (hc : s.chains[c]? = some ch)
    (ha : ch.aborted = false) (hs : ch.rxHalted = false) (hh : ch.holds (.rx c) = false) (hr : p.ready = true)
    (run : QuietRun s.params p b n q) (m k : Nat) :
    dspTimes c (n + k) (s.quietly c ch p (b ++ rest) m) = dspTimes c k (s.quietly c ch q rest (m + n)) := by
  induction run generalizing m with
  | nil => rw [Nat.zero_add, List.nil_append, Nat.add_zero]
  | @cons p p' q u b n hw _ hstep run ih =>
    have one : dsp c (s.quietly c ch p (u ++ (b ++ rest)) m) = .next (s.quietly c ch p' (b ++ rest) (m + 1)) :=
      dsp_quietly hc ha hs hh hr hw hstep m
    rw [Nat.add_right_comm, dspTimes, List.append_assoc, one, next_andThen, ih ((parserStep_ready hstep).trans hr),
      Nat.add_right_comm, Nat.add_assoc]

/-- Bytes that arrive go behind what waits on the stream, and the RX agent takes one step more than there are bytes. -/
theorem receive_started (hc : s.chains[c]? = some ch) (ha : ch.aborted = false) (bytes : List Byte) :
    receive c bytes s =
      dspTimes c ((ch.rxs ++ bytes).length + 1) (s.setChain c { ch with rxs := ch.rxs ++ bytes }) := by
  have hc1 := setChain_chains_same (ch := { ch with rxs := ch.rxs ++ bytes }) hc
  rw [receive, arrive_started hc ha, next_andThen, onChain_some hc1 ha]

/-- With no byte on the stream a parser in its reset condition waits. -/
theorem dspTimes_waits (hc : s.chains[c]? = some ch) (ha : ch.aborted = false) (hr : ch.parser.ready = true)
    (hps : ch.parser.ps = .p1) (hx : ch.rxs = []) (k : Nat) : dspTimes c k s = .next s := by
  have hw : ch.parser.want = 1 := by unfold Parser.want; rw [hps]
  exact dspTimes_idle (dsp_wait hc ha hr hw (.inl (by rw [hx]; exact Nat.one_pos)))

theorem Parser.judged_of_reset {p : Parser} (hps : p.ps = .p1) (hacc : p.acc = 0#10) (scr : Scr) (ev : Event) :
    p.judged scr ev = { p with scr := scr, protoErr := p.protoErr + (if ev = .cksum then 1 else 0) } := by
  unfold Parser.judged
  rw [← hps, ← hacc]

theorem afterFrame_chain (hc : s.chains[c]? = some ch) (err n : Nat) (ev : Event) :
    (s.afterFrame c ch f err n ev).chains[c]? = some { ch with
      parser := { ch.parser with scr := Scr.writeList ch.parser.scr 0 f, protoErr := ch.parser.protoErr + err } } :=
  setChain_chains_same hc

theorem afterFrame_ring? (hc : s.chains[c]? = some ch) (err n : Nat) (ev : Event) (rb : RingId) :
    (s.afterFrame c ch f err n ev).ring? rb = s.ring? rb :=
  ring?_setChain_sameRings (s := s) (ch' := { ch with parser := _ }) hc fun rb => by cases rb <;> rfl

/-- The RX agent takes in a candidate and routes what it is judged to be, and has steps left. -/
theorem receive_candidate (hc : s.chains[c]? = some ch) (hp : ch.parser.Wf) (hin : ch.InStep c fmt)
    (h : Candidate fmt f) {ev : Event} (hev : judge s.params fmt ch.parser.chainId f = ev) : ∃ k, receive c f s =
      (route c ev (s.afterFrame c ch f (if ev = .cksum then 1 else 0) (quietSteps (f.drop fmt.headerLen)) ev)).andThen
        (dspTimes c k) := by
  obtain ⟨hr, rfl, hps, hacc, hx, ha, hs, hh⟩ := hin
  obtain ⟨q, b, u, hf, run, hw, last⟩ := candidate_run (params := s.params) hp hps h
  rw [hev, Parser.judged_of_reset hps hacc] at last
  have ready : q.ready = true := (parserStep_ready last).symm.trans hr
  have steps : quietSteps (f.drop ch.parser.fmt.headerLen) ≤ f.length := by
    have := ch.parser.fmt.headerLen_pos
    have := h.1
    unfold quietSteps
    split <;> omega
  generalize quietSteps (f.drop ch.parser.fmt.headerLen) = n at run steps ⊢
  obtain ⟨k, hk⟩ := Nat.exists_eq_add_of_le steps
  refine ⟨k, ?_⟩
  calc receive c f s = dspTimes c (n + (k + 1)) (s.quietly c ch ch.parser (b ++ u) 0) := by
        rw [receive_started hc ha, hx, List.nil_append, hk, ← hf]
        rfl
    _ = dspTimes c (k + 1) (s.quietly c ch q (u ++ []) n) := by
        rw [dspTimes_quietRun hc ha hs hh hr run, Nat.zero_add, List.append_nil]
    _ = _ := by
        rw [dspTimes, dsp_quietly hc ha hs hh ready hw last, ← hx]
        rfl

/-- Where the put of the route completes, or there is none, the RX agent then waits. -/
theorem receive_candidate_next (hc : s.chains[c]? = some ch) (hp : ch.parser.Wf) (hin : ch.InStep c fmt)
    (h : Candidate fmt f) {ev : Event} (hev : judge s.params fmt ch.parser.chainId f = ev) {t : State}
    (hroute : route c ev (s.afterFrame c ch f (if ev = .cksum then 1 else 0) (quietSteps (f.drop fmt.headerLen)) ev) =
      .next t) : receive c f s = .next t := by
  obtain ⟨k, taken⟩ := receive_candidate hc hp hin h hev
  obtain ⟨hr, -, hps, -, hx, ha, -⟩ := hin
  have after := afterFrame_chain (f := f) hc (if ev = .cksum then 1 else 0) (quietSteps (f.drop fmt.headerLen)) ev
  have waits : dspTimes c k t = .next t := by
    rcases route_next hroute with rfl | ⟨rb, d, -, hput⟩
    · exact dspTimes_waits after ha hr hps hx k
    · obtain ⟨ch', hc', hparser, hrxs, haborted⟩ := put_chain_keeps hput after
      exact dspTimes_waits hc' (haborted.trans ha) (hparser ▸ hr) (hparser ▸ hps) (hrxs.trans hx) k
  rw [taken, hroute, next_andThen, waits]

theorem candidate_frameBytes (fmt : Fmt) (op addr ack cksum : Byte) {payload : List Byte}
    (fits : payload.length ≤ 255) : Candidate fmt (frameBytes fmt op addr ack cksum payload) := by
  have hlen : payload.length = (BitVec.ofNat 8 payload.length).toNat := (toNat_length_byte fits).symm
  cases fmt with
  | cmd => exact ⟨Nat.le_add_left 6 _, rfl, rfl, (Nat.add_comm _ 6).trans (congrArg (6 + ·) hlen)⟩
  | ack => exact ⟨Nat.le_add_left 7 _, rfl, rfl, (Nat.add_comm _ 7).trans (congrArg (7 + ·) hlen)⟩

theorem drop_frameBytes (fmt : Fmt) (op addr ack cksum : Byte) (payload : List Byte) :
    (frameBytes fmt op addr ack cksum payload).drop fmt.headerLen = payload := by cases fmt <;> rfl

end arrival

/-- A valid frame of a name is a record of the name's kind (42_parser.md R115). -/
theorem judge_named {params : Params} {fmt : Fmt} {f : List Byte} {n : OpName} (id : Byte) (hm : params.opmap.Injective)
    (valid : FrameValid params.ck fmt f) (hop : f.getD fmt.opOff 0#8 = params.opmap.byteOf n) :
    judge params fmt id f = .frame (nameKind n) (f ++ [id]) := by
  have good := (frameValid_iff.mp valid).2.symm
  unfold nameKind
  split_ifs with nonce
  · exact judge_nonce id good (hop.trans (by rw [nonce]; rfl))
  · have other : f.getD fmt.opOff 0#8 ≠ params.opmap.returnNonce := fun e =>
      nonce (byteOf_injective hm (hop.symm.trans e))
    exact judge_regack id good other (hop ▸ byteOf_mem_recognized params.opmap n)

/-- A record of a name's kind is put into the name's inbound ring (43_pipeline.md R128). -/
theorem route_named (c : Nat) (n : OpName) (record : List Byte) (s : State) :
    route c (.frame (nameKind n) record) s = put (.rx c) (inRing n c) record s := by
  unfold nameKind inRing
  split_ifs <;> rfl

/-- Settles O54: the frame is judged to be a record of its name, and the put of that record completes. -/
theorem validFramesReachTheirRing : Obligations.ValidFramesReachTheirRing := by
  intro s fmt n c ch r addr ack cksum payload hc hp hin hm fits hring hrw f record valid
  have hev : judge s.params fmt ch.parser.chainId f = .frame (nameKind n) record :=
    judge_named _ hm valid (frameBytes_op ..)
  have payloadBehind : f.drop fmt.headerLen = payload := drop_frameBytes ..
  obtain ⟨t, hput, answer⟩ := put_answer (.rx c) record
    ((afterFrame_ring? (f := f) hc 0 (quietSteps payload) (.frame (nameKind n) record) (inRing n c)).trans hring) hrw
  have cand : Candidate fmt f := candidate_frameBytes fmt _ addr ack cksum fits
  refine ⟨t, (exec_wire ..).trans (receive_candidate_next hc hp hin cand hev ?_), answer⟩
  rw [payloadBehind, route_named]
  exact hput

/-- Settles O55: without a good checksum a whole frame is judged before its opcode is looked at, and nothing is put. -/
theorem badChecksumsAreCountedAndDropped : Obligations.BadChecksumsAreCountedAndDropped := by
  intro s fmt n op c ch addr ack cksum payload i hc hp hin fits hi f bad
  have cand : Candidate fmt f := candidate_frameBytes fmt op addr ack cksum fits
  have hev : judge s.params fmt ch.parser.chainId f = .cksum :=
    judge_of_bad_checksum _ fun good => bad (frameValid_iff.mpr ⟨cand, good.symm⟩)
  have payloadBehind : f.drop fmt.headerLen = payload := drop_frameBytes ..
  have arrives : exec i s = receive c f s := by
    rcases hi with ⟨rfl, rfl⟩ | rfl
    · exact exec_wire ..
    · exact exec_unknown ..
  rw [arrives, ← payloadBehind]
  exact receive_candidate_next hc hp hin cand hev rfl

end Sys2Proof.Machine

namespace Sys2Proof.Machine

/-! ## Chains are independent: what an operation writes (43_pipeline.md R140) -/

/-- A chain whose parser, rings and streams are another's; its run flags and its transport's answers may differ. -/
structure Chain.SameHoldings (ch ch' : Chain) : Prop where
  parser : ch'.parser = ch.parser
  ring : ∀ rb, ch'.ring? rb = ch.ring? rb
  rxs : ch'.rxs = ch.rxs
  txs : ch'.txs = ch.txs

/-- The second state is the first but for the places `L`: every other chain holds what it held, and so does `PMON_RING`
where it is not among them. -/
structure State.WritesOnly (L : Option Nat → Prop) (s t : State) : Prop where
  chain : ∀ (c : Nat) (ch : Chain), ¬ L (some c) → s.chains[c]? = some ch →
    ∃ ch', t.chains[c]? = some ch' ∧ ch.SameHoldings ch'
  pmon : ¬ L none → t.pmon = s.pmon

theorem Chain.SameHoldings.refl (ch : Chain) : ch.SameHoldings ch := ⟨rfl, fun _ => rfl, rfl, rfl⟩

theorem Chain.SameHoldings.trans {ch ch' ch'' : Chain} (h : ch.SameHoldings ch') (k : ch'.SameHoldings ch'') :
    ch.SameHoldings ch'' where
  parser := k.parser.trans h.parser
  ring rb := (k.ring rb).trans (h.ring rb)
  rxs := k.rxs.trans h.rxs
  txs := k.txs.trans h.txs

/-- A stopped agent's chain holds what it held. -/
theorem Chain.stopped_sameHoldings (ch : Chain) (who : Agent) : ch.SameHoldings (ch.stopped who) where
  parser := Chain.stopped_parser who ch
  ring := Chain.stopped_ring? who ch
  rxs := Chain.stopped_rxs who ch
  txs := Chain.stopped_txs who ch

section writes
variable {L : Option Nat → Prop} {s t u : State}

theorem State.WritesOnly.of_eq (hc : t.chains = s.chains) (hp : t.pmon = s.pmon) : s.WritesOnly L t where
  chain _ ch _ h := ⟨ch, hc ▸ h, .refl ch⟩
  pmon _ := hp

theorem State.WritesOnly.refl (s : State) : s.WritesOnly L s := .of_eq rfl rfl

theorem State.WritesOnly.trans (h : s.WritesOnly L t) (k : t.WritesOnly L u) : s.WritesOnly L u where
  chain c ch hL hc := by
    obtain ⟨ch1, hc1, same1⟩ := h.chain c ch hL hc
    obtain ⟨ch2, hc2, same2⟩ := k.chain c ch1 hL hc1
    exact ⟨ch2, hc2, same1.trans same2⟩
  pmon hL := (k.pmon hL).trans (h.pmon hL)

theorem State.WritesOnly.reply (h : s.WritesOnly L t) (who : Agent) (res : Result) (ev : Event) (m : Moved) :
    s.WritesOnly L (t.reply who res ev m) := h.trans (.of_eq rfl rfl)

theorem writesOnly_setRing {rb : RingId} (hL : L (chainOf rb)) (r : Ring) : s.WritesOnly L (s.setRing rb r) where
  chain _ ch hc h := ⟨ch, (setRing_chains_other fun e => hc (e ▸ hL)).trans h, .refl ch⟩
  pmon hp := setRing_pmon fun e => hp (e ▸ hL)

theorem writesOnly_setChain {c : Nat} (hL : L (some c)) (ch : Chain) : s.WritesOnly L (s.setChain c ch) where
  chain d dh hd h := ⟨dh, (setChain_chains_other fun (e : d = c) => hd (e ▸ hL)).trans h, .refl dh⟩
  pmon _ := rfl

/-- Stopping an agent of any chain sets a run flag only. -/
theorem writesOnly_stopAgent (s : State) (who : Agent) : s.WritesOnly L (s.stopAgent who) where
  chain c ch _ h := by
    rcases stopAgent_chains s who h with e | ⟨-, e⟩
    · exact ⟨ch, e, .refl ch⟩
    · exact ⟨_, e, ch.stopped_sameHoldings who⟩
  pmon _ := stopAgent_pmon s who

/-- One move writes at its own place. -/
theorem move_writesOnly (m : Move L s t) : s.WritesOnly L t := by
  cases m with
  | idle _ hc hp _ => exact .of_eq hc hp
  | told who res ev => exact .of_eq rfl rfl
  | stop who => exact writesOnly_stopAgent s who
  | store who res ev hL _ _ => exact (writesOnly_setRing hL _).reply _ _ _ _
  | take who res ev hL _ _ _ => exact (writesOnly_setRing hL _).reply _ _ _ _
  | hold hL _ _ _ => exact writesOnly_setRing hL _
  | release k hL _ => exact writesOnly_setRing hL _
  | force who res ev hL _ _ => exact (writesOnly_setRing hL _).reply _ _ _ _
  | make hL _ _ _ _ => exact writesOnly_setRing hL _
  | parse hL _ _ _ _ _ => exact writesOnly_setChain hL _
  | reset hL _ _ => exact writesOnly_setChain hL _
  | stream rxs txs answers hL _ _ => exact writesOnly_setChain hL _

theorem moves_writesOnly (m : Moves L s t) : s.WritesOnly L t := by
  induction m with
  | refl => exact .refl s
  | tail _ m ih => exact ih.trans (move_writesOnly m)

/-- A held request that is where it belongs goes on at its instance's own place. -/
theorem Held.allowed_of_inPlace {rb : RingId} {h : Held} (hL : L (chainOf rb)) (hp : h.inPlace rb = true) :
    h.allowed L := by
  cases h with
  | put who d => trivial
  | get who n => trivial
  | txGet c w =>
    obtain rfl : rb = outRing w c := of_decide_eq_true hp
    rwa [chainOf_outRing] at hL

/-- `RB.SHUTDOWN` writes at its own place, since what an instance holds is where it belongs (40_ringbuffer.md R96). -/
theorem shutdown_writesOnly {rb : RingId} (hL : L (chainOf rb)) (hs : s.Wf) (h : execRbShutdown rb s = .next t) :
    s.WritesOnly L t := by
  have allowed : ∀ r, s.ring? rb = some r → ∀ x ∈ r.pending, x.allowed L := fun r hr x hx => by
    obtain ⟨-, inPlace⟩ := (State.wf_iff.1 hs).2 rb r hr
    exact Held.allowed_of_inPlace hL (inPlace x hx)
  obtain ⟨r, -, released, -⟩ := shutdown_next hL allowed h
  exact ((writesOnly_setRing hL _).reply _ _ _ _).trans (moves_writesOnly released)

/-- Every instruction writes at its own place. -/
theorem exec_writesOnly {i : Instr} (hL : ∀ p, place i = some p → L p) (hs : s.Wf) (h : exec i s = .next t) :
    s.WritesOnly L t := by
  by_cases hi : ∃ rb, i = .rbShutdown rb
  · obtain ⟨rb, rfl⟩ := hi
    exact shutdown_writesOnly (hL _ rfl) hs h
  · exact moves_writesOnly (exec_moves hL (fun rb e => hi ⟨rb, e⟩) h)

end writes

/-- Settles O17: every next state is reached by moves at the instruction's own place, and a move leaves the others. -/
theorem chainsAreIndependent : Obligations.ChainsAreIndependent := by
  intro i s t hs h
  have only := exec_writesOnly (L := fun p => place i = some p) (fun _ => id) hs h
  refine ⟨fun c ch hc hch => ?_, only.pmon⟩
  obtain ⟨ch', hch', same⟩ := only.chain c ch hc hch
  exact ⟨ch', hch', same.parser, same.ring (.nonce c), same.ring (.reg c), same.ring (.work c), same.ring (.dl c),
    same.rxs, same.txs⟩

end Sys2Proof.Machine

namespace Sys2Proof.Machine

/-! ## Chains are independent: what an operation reads (43_pipeline.md R140) -/

/-- Two answers are alike at a place: two next states that agree there, or the same fault or refusal. -/
inductive AnswersAgree (p : Option (Option Nat)) : Answer → Answer → Prop
  | next {t t' : State} : AgreeAt p t t' → AnswersAgree p (.next t) (.next t')
  | fault (e : Fault) : AnswersAgree p (.fault e) (.fault e)
  | refused (e : Refusal) : AnswersAgree p (.refused e) (.refused e)

/-- What one of two answers that are alike is, the other is. -/
theorem AnswersAgree.transfer {p : Option (Option Nat)} {a a' : Answer} (h : AnswersAgree p a a') :
    (∀ t, a = .next t → ∃ t', a' = .next t' ∧ AgreeAt p t t') ∧
    (∀ e, a = .fault e → a' = .fault e) ∧ (∀ e, a = .refused e → a' = .refused e) := by
  cases h with
  | next h => exact ⟨fun t ht => by cases ht; exact ⟨_, rfl, h⟩, nofun, nofun⟩
  | fault e => exact ⟨nofun, fun _ => id, nofun⟩
  | refused e => exact ⟨nofun, nofun, fun _ => id⟩

section agree
variable {p : Option (Option Nat)} {s s' : State} {c : Nat} {rb : RingId}

/-! ### What two states that agree have in common -/

theorem AgreeAt.params (h : AgreeAt p s s') : s'.params = s.params := h.1

theorem AgreeAt.who (h : AgreeAt p s s') : s'.who = s.who :=
  let ⟨_, hwho, _⟩ := h; hwho

/-- Two states that agree differ in their chains and in `PMON_RING` only. -/
theorem AgreeAt.exists_eq (h : AgreeAt p s s') : ∃ chains pmon, s' = { s with chains := chains, pmon := pmon } := by
  obtain ⟨hparams, hwho, hturns, horder, hreplies, -⟩ := h
  exact ⟨s'.chains, s'.pmon, by rw [← hparams, ← hwho, ← hturns, ← horder, ← hreplies]⟩

theorem AgreeAt.chain (h : AgreeAt p s s') (hp : p = some (some c)) : s'.chains[c]? = s.chains[c]? :=
  let ⟨_, _, _, _, _, _, hchain, _⟩ := h; hchain c hp

theorem AgreeAt.named (h : AgreeAt p s s') (rb : RingId) : s'.named rb = s.named rb := by
  obtain ⟨-, -, -, -, -, hlength, -⟩ := h
  unfold State.named; rw [hlength]

theorem AgreeAt.ring? (h : AgreeAt p s s') (hp : p = some (chainOf rb)) : s'.ring? rb = s.ring? rb := by
  obtain ⟨-, -, -, -, -, -, hchain, hpmon⟩ := h
  unfold State.ring?
  cases hc : chainOf rb with
  | none => exact hpmon (hp.trans (congrArg some hc))
  | some c => dsimp only; rw [hchain c (hp.trans (congrArg some hc))]

theorem AgreeAt.abortedAt (h : AgreeAt p s s') (hp : p = some (chainOf rb)) : s'.abortedAt rb = s.abortedAt rb := by
  unfold State.abortedAt
  cases hc : chainOf rb with
  | none => rfl
  | some c => dsimp only; rw [h.chain (hp.trans (congrArg some hc))]

/-! ### The same update of two states that agree -/

theorem setRing_getElem? (s : State) (rb : RingId) (r : Ring) (c : Nat) : (s.setRing rb r).chains[c]? =
    if chainOf rb = some c then s.chains[c]?.map fun ch => ch.setRing rb r else s.chains[c]? := by
  split_ifs with hc
  · cases h : s.chains[c]? with
    | none => simp [State.setRing, hc, h]
    | some ch => exact setRing_chains_same hc h
  · exact setRing_chains_other hc

theorem setRing_pmon_eq (s : State) (rb : RingId) (r : Ring) :
    (s.setRing rb r).pmon = if chainOf rb = none then some r else s.pmon := by
  split_ifs with hc
  · simp [State.setRing, hc]
  · exact setRing_pmon hc

theorem stopAgent_getElem? (s : State) (who : Agent) (c : Nat) : (s.stopAgent who).chains[c]? =
    if who.chain? = some c then s.chains[c]?.map fun ch => ch.stopped who else s.chains[c]? := by
  unfold State.stopAgent
  cases who.chain? with
  | none => rfl
  | some d =>
    dsimp only
    by_cases e : d = c
    · subst e
      cases h : s.chains[d]? with
      | none => simp [h]
      | some ch => simp [setChain_chains_same h]
    · rw [if_neg fun h => e (Option.some.inj h)]
      cases s.chains[d]? with
      | none => rfl
      | some ch => exact setChain_chains_other (Ne.symm e)

theorem AgreeAt.reply (h : AgreeAt p s s') (who : Agent) (res : Result) (ev : Event) (m : Moved) :
    AgreeAt p (s.reply who res ev m) (s'.reply who res ev m) := by
  obtain ⟨hparams, hwho, hturns, horder, hreplies, rest⟩ := h
  exact ⟨hparams, hwho, hturns, horder, congrArg (_ :: ·) hreplies, rest⟩

theorem AgreeAt.setRing (h : AgreeAt p s s') (rb : RingId) (r : Ring) :
    AgreeAt p (s.setRing rb r) (s'.setRing rb r) := by
  obtain ⟨hparams, hwho, hturns, horder, hreplies, hlength, hchain, hpmon⟩ := h
  refine ⟨by simpa, by simpa, by simpa, by simpa, by simpa, by simpa, fun c hp => ?_, fun hp => ?_⟩
  · rw [setRing_getElem?, setRing_getElem?, hchain c hp]
  · rw [setRing_pmon_eq, setRing_pmon_eq, hpmon hp]

theorem AgreeAt.setChain (h : AgreeAt p s s') (c : Nat) (ch : Chain) :
    AgreeAt p (s.setChain c ch) (s'.setChain c ch) := by
  obtain ⟨hparams, hwho, hturns, horder, hreplies, hlength, hchain, hpmon⟩ := h
  refine ⟨hparams, hwho, hturns, horder, hreplies, by simpa, fun d hp => ?_, hpmon⟩
  simp only [State.setChain, List.getElem?_set, hlength, hchain d hp]

theorem AgreeAt.stopAgent (h : AgreeAt p s s') (who : Agent) : AgreeAt p (s.stopAgent who) (s'.stopAgent who) := by
  obtain ⟨hparams, hwho, hturns, horder, hreplies, hlength, hchain, hpmon⟩ := h
  refine ⟨by simpa, by simpa, by simpa, by simpa, by simpa, by simpa, fun c hp => ?_, by simpa⟩
  rw [stopAgent_getElem?, stopAgent_getElem?, hchain c hp]

theorem AgreeAt.cancel (h : AgreeAt p s s') (who : Agent) (res : Result) :
    AgreeAt p (s.cancel who res) (s'.cancel who res) := (h.stopAgent who).reply _ _ _ _

/-- The next choice of the release order is used up in both. -/
theorem AgreeAt.releaseOrder_tail (h : AgreeAt p s s') :
    AgreeAt p { s with releaseOrder := s.releaseOrder.tail } { s' with releaseOrder := s'.releaseOrder.tail } := by
  obtain ⟨hparams, hwho, hturns, horder, rest⟩ := h
  exact ⟨hparams, hwho, hturns, congrArg List.tail horder, rest⟩

/-! ### Sequencing and resolving names -/

theorem andThen_agree {x x' : Answer} {f f' : State → Answer} (hx : AnswersAgree p x x')
    (hf : ∀ t t', x = .next t → AgreeAt p t t' → AnswersAgree p (f t) (f' t')) :
    AnswersAgree p (x.andThen f) (x'.andThen f') := by
  cases hx with
  | next h => exact hf _ _ rfl h
  | fault e => exact .fault e
  | refused e => exact .refused e

theorem onRing_agree {f f' : Ring → Answer} (h : AgreeAt p s s') (hp : p = some (chainOf rb))
    (hf : ∀ r, s.ring? rb = some r → AnswersAgree p (f r) (f' r)) : AnswersAgree p (s.onRing rb f) (s'.onRing rb f') := by
  unfold State.onRing
  rw [h.ring? hp, h.named]
  cases hr : s.ring? rb with
  | some r => exact hf r hr
  | none => dsimp only; split <;> exact .refused _

theorem onChain_agree {f f' : Chain → Answer} (h : AgreeAt p s s') (hp : p = some (some c))
    (hf : ∀ ch, AnswersAgree p (f ch) (f' ch)) : AnswersAgree p (s.onChain c f) (s'.onChain c f') := by
  unfold State.onChain
  rw [h.chain hp]
  cases s.chains[c]? with
  | some ch =>
    dsimp only
    split
    · exact .refused _
    · exact hf ch
  | none => exact .refused _

theorem onParser_agree {f f' : Chain → Answer} (h : AgreeAt p s s') (hp : p = some (some c))
    (hf : ∀ ch, AnswersAgree p (f ch) (f' ch)) : AnswersAgree p (s.onParser c f) (s'.onParser c f') :=
  onChain_agree h hp fun ch => by
    split
    · exact hf ch
    · exact .refused _

theorem taken_agree {r : Ring} {k : Nat} {f f' : List Byte → State → Answer}
    (hf : ∀ out r', AnswersAgree p (f out (s.setRing rb r')) (f' out (s'.setRing rb r'))) :
    AnswersAgree p (s.taken rb r k f) (s'.taken rb r k f') := by
  unfold State.taken
  cases rbLoad r k with
  | none => exact .fault _
  | some x => exact hf x.1 x.2

/-! ### Put and get -/

theorem pollingPut_agree (h : AgreeAt p s s') (hp : p = some (chainOf rb)) (who : Agent) (d : List Byte) :
    AnswersAgree p (pollingPut who rb d s) (pollingPut who rb d s') :=
  onRing_agree h hp fun _ _ => .next ((h.setRing _ _).reply _ _ _ _)

theorem blockingPut_agree (h : AgreeAt p s s') (hp : p = some (chainOf rb)) (who : Agent) (d : List Byte) :
    AnswersAgree p (blockingPut who rb d s) (blockingPut who rb d s') :=
  onRing_agree h hp fun r _ => by
    split_ifs
    · exact .next ((h.setRing _ _).reply _ _ _ _)
    · exact .next (h.cancel _ _)
    · exact .next (h.setRing _ _)

theorem put_agree (h : AgreeAt p s s') (hp : p = some (chainOf rb)) (who : Agent) (d : List Byte) :
    AnswersAgree p (put who rb d s) (put who rb d s') :=
  onRing_agree h hp fun r _ => by
    cases r.mode with
    | polling => exact pollingPut_agree h hp who d
    | blocking => exact blockingPut_agree h hp who d

theorem pollingGet_agree (h : AgreeAt p s s') (hp : p = some (chainOf rb)) (who : Agent) (n : Nat) :
    AnswersAgree p (pollingGet who rb n s) (pollingGet who rb n s') :=
  onRing_agree h hp fun _ _ => taken_agree fun _ _ => .next ((h.setRing _ _).reply _ _ _ _)

theorem blockingGet_agree (h : AgreeAt p s s') (hp : p = some (chainOf rb)) (who : Agent) (n : Nat) :
    AnswersAgree p (blockingGet who rb n s) (blockingGet who rb n s') :=
  onRing_agree h hp fun r _ => by
    split_ifs
    · exact taken_agree fun _ _ => .next ((h.setRing _ _).reply _ _ _ _)
    · exact .next (h.cancel _ _)
    · exact .next (h.setRing _ _)

theorem get_agree (h : AgreeAt p s s') (hp : p = some (chainOf rb)) (who : Agent) (n : Nat) :
    AnswersAgree p (get who rb n s) (get who rb n s') :=
  onRing_agree h hp fun r _ => by
    cases r.mode with
    | polling => exact pollingGet_agree h hp who n
    | blocking => exact blockingGet_agree h hp who n

/-! ### The pipeline -/

theorem send_agree (h : AgreeAt p s s') (hp : p = some (some c)) (who : Agent) (f : List Byte) (m : Moved) :
    AnswersAgree p (send who c f m s) (send who c f m s') :=
  onChain_agree h hp fun _ => .next ((h.setChain _ _).reply _ _ _ _)

theorem route_agree (h : AgreeAt p s s') (hp : p = some (some c)) (ev : Event) :
    AnswersAgree p (route c ev s) (route c ev s') := by
  unfold route
  split
  · exact put_agree (rb := .nonce c) h hp _ _
  · exact put_agree (rb := .reg c) h hp _ _
  · exact .next h

theorem dsp_agree (h : AgreeAt p s s') (hp : p = some (some c)) : AnswersAgree p (dsp c s) (dsp c s') :=
  onParser_agree h hp fun ch => by
    rw [h.params]
    dsimp only
    split_ifs
    · exact .next h
    · exact .next h
    · exact route_agree ((h.setChain _ _).reply _ _ _ _) hp _

theorem dspTimes_agree (h : AgreeAt p s s') (hp : p = some (some c)) (k : Nat) :
    AnswersAgree p (dspTimes c k s) (dspTimes c k s') := by
  induction k generalizing s s' with
  | zero => exact .next h
  | succ k ih => exact andThen_agree (dsp_agree h hp) fun _ _ _ ht => ih ht

theorem receive_agree (h : AgreeAt p s s') (hp : p = some (some c)) (b : List Byte) :
    AnswersAgree p (receive c b s) (receive c b s') :=
  andThen_agree (onChain_agree h hp fun _ => .next (h.setChain _ _)) fun _ _ _ ht =>
    onChain_agree ht hp fun _ => dspTimes_agree ht hp _

theorem txTake_agree (h : AgreeAt p s s') (hp : p = some (some c)) (w : Which) :
    AnswersAgree p (txTake c w s) (txTake c w s') := by
  unfold txTake
  rw [h.params]
  refine onRing_agree h (hp.trans (by rw [chainOf_outRing])) fun r _ => ?_
  split_ifs
  · refine taken_agree fun image r' => ?_
    cases stamp s.params.ck image with
    | error e => exact .refused e
    | ok f => exact send_agree (h.setRing _ _) hp _ _ _
  · exact .next (h.cancel _ _)
  · exact .next (h.setRing _ _)

/-! ### Held requests -/

/-- A held request that is where it belongs reads its instance's own place when it is run again. -/
theorem rerun_agree (h : AgreeAt p s s') (hp : p = some (chainOf rb)) {x : Held} (hx : x.inPlace rb = true) :
    AnswersAgree p (rerun rb x s) (rerun rb x s') := by
  cases x with
  | put who d => exact blockingPut_agree h hp who d
  | get who n => exact blockingGet_agree h hp who n
  | txGet c w =>
    obtain rfl : rb = outRing w c := of_decide_eq_true hx
    exact txTake_agree h (hp.trans (by rw [chainOf_outRing])) w

theorem resume_agree (h : AgreeAt p s s') (hs : s.Wf) (hp : p = some (chainOf rb)) (k : Nat) :
    AnswersAgree p (resume rb k s) (resume rb k s') := by
  unfold resume
  rw [h.ring? hp, h.params]
  cases hr : s.ring? rb with
  | none => exact .next h
  | some r =>
    dsimp only
    cases hk : r.pending[k]? with
    | none => exact .next h
    | some x =>
      obtain ⟨-, inPlace⟩ := (State.wf_iff.1 hs).2 rb r hr
      dsimp only
      split_ifs
      · exact rerun_agree (h.setRing _ _) hp (inPlace x (List.mem_of_getElem? hk))
      · exact .next h

theorem releaseHeld_agree (h : AgreeAt p s s') (hs : s.Wf) (hp : p = some (chainOf rb)) (n : Nat) :
    AnswersAgree p (releaseHeld rb n s) (releaseHeld rb n s') := by
  induction n generalizing s s' with
  | zero => exact .next h
  | succ n ih =>
    have horder : s'.releaseOrder = s.releaseOrder := let ⟨_, _, _, e, _⟩ := h; e
    have hs0 : State.Wf { s with releaseOrder := s.releaseOrder.tail } := State.wf_congr rfl rfl hs
    unfold releaseHeld
    rw [h.ring? hp]
    cases s.ring? rb with
    | none => exact .next h
    | some r =>
      dsimp only
      rw [congrArg (fun l => l.headD 0) horder]
      exact andThen_agree (resume_agree h.releaseOrder_tail hs0 hp _) fun t t' ht agree =>
        ih agree (resume_wf hs0 ht)

theorem shutdown_agree (h : AgreeAt p s s') (hs : s.Wf) (hp : p = some (chainOf rb)) :
    AnswersAgree p (execRbShutdown rb s) (execRbShutdown rb s') :=
  onRing_agree h hp fun r hr => by
    rw [h.who]
    exact releaseHeld_agree ((h.setRing _ _).reply _ _ _ _) ((hs.setShut hr).reply _ _ _ _) hp _

/-! ### Every instruction -/

theorem rbInit_agree (h : AgreeAt p s s') (hp : p = some (chainOf rb)) (n : Nat) (m : Mode) :
    AnswersAgree p (execRbInit rb n m s) (execRbInit rb n m s') := by
  unfold execRbInit
  rw [h.named, h.abortedAt hp, h.ring? hp, h.params, h.who]
  dsimp only
  split_ifs
  · exact .refused _
  · exact .refused _
  · exact .refused _
  · exact .refused _
  · exact .next ((h.setRing _ _).reply _ _ _ _)

theorem psRx_agree (h : AgreeAt p s s') (hp : p = some (some c)) (bytes : List Byte) :
    AnswersAgree p (execPsRx c bytes s) (execPsRx c bytes s') :=
  onParser_agree h hp fun ch => by
    rw [h.params, h.who]
    dsimp only
    split_ifs
    · exact .refused _
    · exact .next (h.reply _ _ _ _)
    · exact .next ((h.setChain _ _).reply _ _ _ _)
    · exact .refused _

theorem fcPack_agree (h : AgreeAt p s s') (op addr : Byte) (payload : List Byte) :
    AnswersAgree p (execFcPack op addr payload s) (execFcPack op addr payload s') := by
  unfold execFcPack
  rw [h.params, h.who]
  cases pack s.params.ck op addr payload with
  | ok f => exact .next (h.reply _ _ _ _)
  | error e => exact .refused e

theorem fcStamp_agree (h : AgreeAt p s s') (image : List Byte) :
    AnswersAgree p (execFcStamp image s) (execFcStamp image s') := by
  unfold execFcStamp
  rw [h.params, h.who]
  cases stamp s.params.ck image with
  | ok f => exact .next (h.reply _ _ _ _)
  | error e => exact .refused e

/-- Every instruction reads its own place. -/
theorem exec_agree {i : Instr} (h : AgreeAt (place i) s s') (hs : s.Wf) :
    AnswersAgree (place i) (exec i s) (exec i s') := by
  obtain ⟨chains, pmon, rfl⟩ := h.exists_eq
  cases i with
  | rbInit rb n m => exact rbInit_agree h rfl n m
  | rbPutPolling rb d => exact put_agree h rfl s.who d
  | rbPutBlocking rb d => exact put_agree h rfl s.who d
  | rbGetPolling rb n => exact get_agree h rfl s.who n
  | rbGetBlocking rb n => exact get_agree h rfl s.who n
  | rbPutForce rb d =>
    refine onRing_agree h rfl fun r _ => ?_
    split_ifs
    · exact .refused _
    · exact .next ((h.setRing _ _).reply _ _ _ _)
  | rbDataLen rb => exact onRing_agree h rfl fun r _ => .next (h.reply _ _ _ _)
  | rbSpaceLen rb => exact onRing_agree h rfl fun r _ => .next (h.reply _ _ _ _)
  | rbStatus rb => exact onRing_agree h rfl fun r _ => .next (h.reply _ _ _ _)
  | rbShutdown rb => exact shutdown_agree h hs rfl
  | fcPack op addr payload => exact fcPack_agree h op addr payload
  | fcStamp image => exact fcStamp_agree h image
  | fcParse fmt bytes => exact .next (h.reply _ _ _ _)
  | psRx c bytes => exact psRx_agree h rfl bytes
  | psReset c => exact onChain_agree h rfl fun ch => .next ((h.setChain _ _).reply _ _ _ _)
  | psWant c => exact onParser_agree h rfl fun ch => .next (h.reply _ _ _ _)
  | dspStep c => exact dsp_agree h rfl
  | txStep c w =>
    refine onChain_agree h rfl fun ch => ?_
    split
    · exact .next h
    · exact txTake_agree h rfl w
  | _ => exact receive_agree h rfl _

end agree

/-- Settles O18: operation by operation, the same name resolves to the same chain or instance in both states, and the same
update of both leaves them in agreement. -/
theorem operationsReadOnlyTheirPlace : Obligations.OperationsReadOnlyTheirPlace :=
  fun _ _ _ hs h => (exec_agree h hs).transfer

end Sys2Proof.Machine

namespace Sys2Proof.Machine

/-! ## One step of an agent of the block (43_pipeline.md R127 to R132, R137) -/

section agents
variable {s : State} {c : Nat} {ch : Chain} {w : Which}

/-- Stopping an agent of a chain there is sets its run flag (70_reset_and_hazards.md R183). -/
theorem stopAgent_of_chain {who : Agent} (hw : who.chain? = some c) (hc : s.chains[c]? = some ch) :
    s.stopAgent who = s.setChain c (ch.stopped who) := by
  unfold State.stopAgent; rw [hw]; dsimp only; rw [hc]

/-- A TX agent that is halted or held takes no step (assumption logs 17 and 18). -/
theorem txStep_waits (hc : s.chains[c]? = some ch) (ha : ch.aborted = false)
    (h : ch.txHalted w = true ∨ ch.holds (.tx c w) = true) : exec (.txStep c w) s = .next s := by
  show execTxStep c w s = _
  unfold execTxStep
  rw [onChain_some hc ha, if_pos (Bool.or_eq_true_iff.mpr h)]

/-- A TX agent that runs and is not held takes one (R131). -/
theorem txStep_runs (hc : s.chains[c]? = some ch) (ha : ch.aborted = false) (hs : ch.txHalted w = false)
    (hh : ch.holds (.tx c w) = false) : exec (.txStep c w) s = txTake c w s := by
  show execTxStep c w s = _
  unfold execTxStep
  rw [onChain_some hc ha, if_neg (by simp [hs, hh])]

/-- A TX agent whose frame image is not there yet is held (R131). -/
theorem txTake_held {r : Ring} (hr : s.ring? (outRing w c) = some r) (hn : r.dataLen < frameLen s.params w)
    (hs : r.shut = false) : txTake c w s = .next (s.hold (outRing w c) r (.txGet c w)) := by
  unfold txTake; dsimp only
  rw [onRing_some hr, if_neg (Nat.not_le.2 hn), if_neg (by simp [hs])]

/-- Only an emitted record is routed (R128). -/
theorem route_quiet {ev : Event} (h : ∀ kind record, ev ≠ .frame kind record) (s : State) :
    route c ev s = .next s := by
  unfold route
  split
  · exact absurd rfl (h _ _)
  · exact absurd rfl (h _ _)
  · rfl

/-- An emitted record is put into the inbound ring of its kind (R128). -/
theorem route_record {kind : Kind} (h : kind = .nonce ∨ kind = .regack) (record : List Byte) :
    ∃ rb, (kind = .nonce ∧ rb = .nonce c ∨ kind = .regack ∧ rb = .reg c) ∧
      ∀ s, route c (.frame kind record) s = put (.rx c) rb record s := by
  rcases h with rfl | rfl
  · exact ⟨.nonce c, .inl ⟨rfl, rfl⟩, fun _ => rfl⟩
  · exact ⟨.reg c, .inr ⟨rfl, rfl⟩, fun _ => rfl⟩

end agents

/-- Settles O20: an agent of the block has a chain, and its run flag is one of that chain's. -/
theorem cancelledAgentsStop : Obligations.CancelledAgentsStop := fun _ _ _ _ hc =>
  ⟨rfl, stopAgent_of_chain rfl hc, stopAgent_of_chain rfl hc, stopAgent_of_chain rfl hc⟩

/-- Settles O53: each of the four is a reason for the RX agent to wait, two of them because it is halted. -/
theorem dspStepWaits : Obligations.DspStepWaits := by
  intro s c ch w hc ha hr hw h
  refine dsp_wait hc ha hr hw ?_
  rcases h with short | held | stopped | shut
  · exact .inl short
  · exact .inr (.inl held)
  · exact .inr (.inr (Bool.or_eq_true_iff.mpr (.inl stopped)))
  · exact .inr (.inr (Bool.or_eq_true_iff.mpr (.inr shut)))

/-- Settles O59: a TX agent that runs goes by the rule of its get. -/
theorem txStepWaits : Obligations.TxStepWaits := by
  intro s c w ch hc ha
  refine ⟨txStep_waits hc ha, fun r hs hh hr hn => ?_⟩
  rw [txStep_runs hc ha hs hh]
  exact ⟨txTake_held hr hn, txTake_cancelled hr hn⟩

/-- Settles O58: the image is taken, stamped and sent, and stamping keeps its length. -/
theorem txStepSendsOneFrame : Obligations.TxStepSendsOneFrame := by
  intro s c w ch r hc ha hs hh hr hw hlen hn
  obtain ⟨r', image, frame, t, taken, packed, sent, answer⟩ := txTake_sends hr hw hc ha hlen hn
  have ⟨_, _, _, _, himage, _⟩ := taken
  have hmin : 6 ≤ frameLen s.params w := hlen.1
  have sameLength : frame.length = frameLen s.params w := by
    rw [pack_length packed, List.length_drop, himage]; omega
  exact ⟨r', image, frame, t, taken, packed, sameLength, (txStep_runs hc ha hs hh).trans sent, answer⟩

/-- Settles O60: the turn packs, and sends what it packed; `FC.PACK` refuses a payload over 255 bytes. -/
theorem ioctlPacksAndSends : Obligations.IoctlPacksAndSends := by
  intro s who c ch op addr payload rest hturn hc ha
  let s' : State := { s with turns := rest, who := who }
  have turn : step s = _ := (step_ioctl hturn).trans (onChain_some (s := s') hc ha _)
  refine ⟨fun fits => ?_, fun tooLong => ?_⟩
  · have packed := pack_ok (ck := s.params.ck) (op := op) (addr := addr) fits
    obtain ⟨t, sent, answer⟩ := send_answer (s := s') who (cmdFrame s.params.ck op addr payload) .nothing hc ha
    exact ⟨_, t, packed, by rw [turn, packed]; exact sent, answer⟩
  · rw [turn, pack_err tooLong]

/-- Settles O52: `PS.RX` and the RX agent run the same transition, and the record of an emitted frame is put. -/
theorem dspStepTakesOneUnitAndRoutes : Obligations.DspStepTakesOneUnitAndRoutes := by
  intro s c ch w hc ha hr hp hs hh hw hl
  obtain ⟨⟨p, ev⟩, unit⟩ : ∃ out, parserStep s.params ch.parser (ch.rxs.take w) = out := ⟨_, rfl⟩
  have stepped := dsp_eq hc ha hr hs hh hw hl unit
  have received := psRx_ok hc ha hr (bytes := ch.rxs.take w) (rest := ch.rxs.drop w)
    (by rw [hw, List.length_take_of_le hl]) (List.take_append_drop w ch.rxs).symm unit
  refine ⟨p, ev, received, fun quiet => ?_, fun kind record hev => ?_⟩
  · exact stepped.trans (route_quiet quiet _)
  · subst hev
    obtain ⟨rb, hrb, routed⟩ := route_record (c := c) (parserStep_kind unit) record
    refine ⟨rb, hrb, fun r hring hwf => ?_⟩
    have same : (s.setChain c { ch with parser := p, rxs := ch.rxs.drop w }).ring? rb = s.ring? rb :=
      ring?_setChain_sameRings hc fun rb => by cases rb <;> rfl
    obtain ⟨t, hput, answer⟩ := put_answer (.rx c) record
      ((reply_ring? _ (.rx c) .none (.frame kind record) .nothing rb).trans (same.trans hring)) hwf
    exact ⟨t, stepped.trans ((routed _).trans hput), answer⟩

end Sys2Proof.Machine

namespace Sys2Proof.Machine

/-! ## The RX agent runs until it waits (43_pipeline.md R127 to R129, assumption log 11) -/

section waits
variable {s t : State} {c : Nat} {ch : Chain}

/-- A route completes where both inbound rings exist (R128). -/
theorem route_completes (hr : ∀ rb, rb = .nonce c ∨ rb = .reg c → ∃ r, s.ring? rb = some r ∧ r.Wf) (ev : Event) :
    ∃ t, route c ev s = .next t := by
  have completes : ∀ rb, rb = .nonce c ∨ rb = .reg c → ∀ d, ∃ t, put (.rx c) rb d s = .next t := fun rb hrb d => by
    obtain ⟨r, hring, hw⟩ := hr rb hrb
    obtain ⟨t, ht, -⟩ := put_answer (.rx c) d hring hw
    exact ⟨t, ht⟩
  unfold route
  split
  · exact completes _ (.inl rfl) _
  · exact completes _ (.inr rfl) _
  · exact ⟨s, rfl⟩

/-- A route leaves the parser and the inbound stream of every chain. -/
theorem route_chain_keeps {d : Nat} {ev : Event} (h : route d ev s = .next t) (hc : s.chains[c]? = some ch) :
    ∃ ch', t.chains[c]? = some ch' ∧ ch'.parser = ch.parser ∧ ch'.rxs = ch.rxs ∧ ch'.aborted = ch.aborted := by
  rcases route_next h with rfl | ⟨rb, data, -, hput⟩
  · exact ⟨ch, hc, rfl, rfl, rfl⟩
  · exact put_chain_keeps hput hc

/-- Chain `c`, which is `ch`, can take in whatever arrives: under the invariant its parser is usable and both its inbound
rings exist. -/
structure State.Receives (s : State) (c : Nat) (ch : Chain) : Prop where
  wf : s.Wf
  chain : s.chains[c]? = some ch
  started : ch.aborted = false
  ready : ch.parser.ready = true
  rings : ∀ rb, rb = .nonce c ∨ rb = .reg c → (s.ring? rb).isSome

/-- A step of the RX agent never gets stuck: it waits, or takes at least one byte and can take in the rest. -/
theorem dsp_progress (h : s.Receives c ch) : dsp c s = .next s ∨
    ∃ t ch', dsp c s = .next t ∧ t.Receives c ch' ∧ ch'.rxs.length < ch.rxs.length := by
  obtain ⟨hs, hc, ha, hr, rings⟩ := h
  by_cases waits : ch.rxs.length < ch.parser.want ∨ ch.holds (.rx c) = true ∨ ch.rxHalted = true
  · exact .inl (dsp_wait hc ha hr rfl waits)
  right
  simp only [not_or, Nat.not_lt, Bool.not_eq_true] at waits
  obtain ⟨enough, free, running⟩ := waits
  obtain ⟨⟨p, ev⟩, unit⟩ : ∃ out, parserStep s.params ch.parser (ch.rxs.take ch.parser.want) = out := ⟨_, rfl⟩
  have takes := dsp_eq hc ha hr running free rfl enough unit
  have hc' := setChain_chains_same (ch := { ch with parser := p, rxs := ch.rxs.drop ch.parser.want }) hc
  obtain ⟨t, routed⟩ := route_completes (c := c) (s := (s.setChain c
      { ch with parser := p, rxs := ch.rxs.drop ch.parser.want }).reply (.rx c) .none ev) (fun rb hrb => by
    obtain ⟨r, hring⟩ := Option.isSome_iff_exists.mp (rings rb hrb)
    exact ⟨r, (ring?_setChain_sameRings hc fun rb => by cases rb <;> rfl).trans hring, hs.ring hring⟩) ev
  obtain ⟨ch', ht, hparser, hrxs, haborted⟩ := route_chain_keeps routed hc'
  have next : dsp c s = .next t := takes.trans routed
  have moves : Moves (fun _ => True) s t := dsp_moves trivial next
  refine ⟨t, ch', next, ⟨moves_wf hs moves, ht, haborted.trans ha, ?_, fun rb hrb => ?_⟩, ?_⟩
  · rw [hparser]; exact (parserStep_ready unit).trans hr
  · obtain ⟨r, hring⟩ := Option.isSome_iff_exists.mp (rings rb hrb)
    obtain ⟨r', hring', -⟩ := (moves_onward moves).ring rb r hring
    exact Option.isSome_iff_exists.mpr ⟨r', hring'⟩
  · obtain ⟨parsers, -⟩ := State.wf_iff.1 hs
    obtain ⟨wants, -⟩ := (parsers c ch hc).want_range
    rw [hrxs, List.length_drop]; omega

/-- As many steps as there are bytes, or more, lead to an RX agent that waits. -/
theorem dspTimes_until_waits {k : Nat} (h : s.Receives c ch) (hk : ch.rxs.length ≤ k) :
    ∃ t, dspTimes c k s = .next t ∧ dsp c t = .next t := by
  induction k generalizing s ch with
  | zero =>
    rcases dsp_progress h with waits | ⟨t, ch', -, -, fewer⟩
    · exact ⟨s, rfl, waits⟩
    · omega
  | succ k ih =>
    rcases dsp_progress h with waits | ⟨u, ch', next, receives, fewer⟩
    · exact ⟨s, dspTimes_idle waits, waits⟩
    · obtain ⟨t, rest, waits⟩ := ih receives (by omega)
      exact ⟨t, by rw [dspTimes, next, next_andThen, rest], waits⟩

theorem dspTimes_eq_execAll (c k : Nat) (s : State) : dspTimes c k s = execAll (List.replicate k (.dspStep c)) s := by
  induction k generalizing s with
  | zero => rfl
  | succ k ih =>
    have tail : dspTimes c k = execAll (List.replicate k (.dspStep c)) := funext ih
    rw [dspTimes, List.replicate_succ, execAll, tail]
    rfl

/-- A parser in step skips bytes that begin no frame (30_encoding.md R70, 42_parser.md R110). -/
theorem quietRun_skip {params : Params} {p : Parser} (hp : p.ps = .p1) {bytes : List Byte}
    (skip : ∀ b ∈ bytes, b ≠ p.fmt.p1) : QuietRun params p bytes bytes.length p := by
  induction bytes with
  | nil => exact .nil p
  | cons b bytes ih =>
    obtain ⟨hb, rest⟩ := List.forall_mem_cons.mp skip
    have wants : p.want = [b].length := by unfold Parser.want; rw [hp]; rfl
    exact .cons wants (Nat.le_refl 1) (by rw [parserStep_p1 hp, if_neg hb]) (ih rest)

/-- Bytes that begin no frame leave a chain in step as it was, each with a reply that nothing is to report. -/
theorem receive_skip {fmt : Fmt} {bytes : List Byte} (hc : s.chains[c]? = some ch) (hin : ch.InStep c fmt)
    (skip : ∀ b ∈ bytes, b ≠ fmt.p1) : receive c bytes s = .next { s with
      replies := List.replicate bytes.length ⟨.rx c, .none, .none, .nothing⟩ ++ s.replies } := by
  obtain ⟨hr, rfl, hps, -, hx, ha, hs, hh⟩ := hin
  have run := quietRun_skip (params := s.params) hps skip
  have same : ({ ch with parser := ch.parser, rxs := [] } : Chain) = ch := by rw [← hx]
  calc receive c bytes s = dspTimes c (bytes.length + 1) (s.quietly c ch ch.parser (bytes ++ []) 0) := by
        rw [receive_started hc ha, hx, List.nil_append, List.append_nil]
        rfl
    _ = dspTimes c 1 (s.quietly c ch ch.parser [] bytes.length) := by
        rw [dspTimes_quietRun hc ha hs hh hr run, Nat.zero_add]
    _ = .next (s.quietly c ch ch.parser [] bytes.length) :=
        dspTimes_waits (s := s.quietly c ch ch.parser [] bytes.length) (ch := { ch with rxs := [] })
          (setChain_chains_same hc) ha hr hps rfl 1
    _ = _ := by rw [State.quietly, same, setChain_self hc]

/-- What comes of bytes that arrive at a chain whose parser is usable. -/
theorem receive_takesIn (hc : s.chains[c]? = some ch) (ha : ch.aborted = false) (hr : ch.parser.ready = true)
    (bytes : List Byte) : TakesIn c ch bytes s (receive c bytes s) := by
  have hc' := setChain_chains_same (ch := { ch with rxs := ch.rxs ++ bytes }) hc
  have taken := receive_started hc ha bytes
  refine ⟨?_, fun hs hnonce hreg => ?_, fun halted => ?_, fun fmt => receive_skip hc⟩
  · rw [taken, List.length_append, dspTimes_eq_execAll]
  · have receives : (s.setChain c { ch with rxs := ch.rxs ++ bytes }).Receives c { ch with rxs := ch.rxs ++ bytes } :=
      { wf := State.wf_setChain hs hc ((State.wf_iff.1 hs).1 c ch hc) fun rb => by cases rb <;> rfl
        chain := hc'
        started := ha
        ready := hr
        rings := fun rb hrb => by
          rcases hrb with rfl | rfl
          · rw [ring?_of_chain rfl hc']; exact hnonce
          · rw [ring?_of_chain rfl hc']; exact hreg }
    rw [taken]
    exact dspTimes_until_waits receives (Nat.le_succ _)
  · rw [taken]
    exact dspTimes_idle (dsp_wait hc' ha hr rfl (.inr halted.symm))

end waits

/-- Settles O57: a wire row, and a wire line that does not decode, is the arrival of its bytes. -/
theorem wireRowsRunUntilTheAgentWaits : Obligations.WireRowsRunUntilTheAgentWaits := by
  refine ⟨fun s fmt n op c ch addr ack cksum payload i hc ha hr hi => ?_,
    fun s who c ch bytes rest e hturn hd hc ha hr => ?_⟩
  · have arrives : exec i s = receive c (frameBytes fmt op addr ack cksum payload) s := by
      rcases hi with ⟨rfl, rfl⟩ | rfl
      · exact exec_wire ..
      · exact exec_unknown ..
    rw [arrives]
    exact receive_takesIn hc ha hr _
  · rw [step_request_undecoded hturn hd]
    exact receive_takesIn (s := { s with turns := rest, who := who }) hc ha hr bytes

end Sys2Proof.Machine

namespace Sys2Proof.Machine

/-! ## A valid frame of an unknown opcode (44_wire_opcodes.md R155, 60_exceptions.md R159) -/

/-- Settles O56: the frame passes the checksum and is judged by its opcode, and an unknown opcode has no ring to be put into. -/
theorem unknownOpcodesAreReportedOnly : Obligations.UnknownOpcodesAreReportedOnly := by
  intro s fmt op c ch addr ack cksum payload hc hp hin fits unknown f valid
  have cand : Candidate fmt f := candidate_frameBytes fmt op addr ack cksum fits
  have outside : f.getD fmt.opOff 0#8 ∉ s.params.opmap.recognized := by rwa [frameBytes_op]
  have hev : judge s.params fmt ch.parser.chainId f = .unknownOpcode f :=
    judge_unknown _ (frameValid_iff.mp valid).2.symm outside
  have payloadBehind : f.drop fmt.headerLen = payload := drop_frameBytes ..
  have arrives : exec (unknownInstr fmt c op addr ack cksum payload) s = receive c f s := exec_unknown ..
  have unrouted : ∀ t, route c (.unknownOpcode f) t = .next t := fun _ => rfl
  rw [arrives, ← payloadBehind]
  exact receive_candidate_next hc hp hin cand hev (unrouted _)

end Sys2Proof.Machine

namespace Sys2Proof.Machine

/-! ## What every step and every `RB.SHUTDOWN` keep (20_memory.md R52, 40_ringbuffer.md R97) -/

/-- A property of the block that every move keeps, and the setting of a `SHUT`. -/
structure State.Kept (P : State → Prop) : Prop where
  move : ∀ {s t : State}, Move (fun _ => True) s t → P s → P t
  setShut : ∀ {s : State} {rb : RingId} {r : Ring}, s.ring? rb = some r → P s →
    P (s.setRing rb { r with shut := true })

section kept
variable {P : State → Prop} {s t : State} {rb rb' : RingId} {c : Nat}

theorem State.Kept.moves (k : State.Kept P) (m : Moves (fun _ => True) s t) (hp : P s) : P t := by
  induction m with
  | refl => exact hp
  | tail _ m ih => exact k.move m ih

theorem State.Kept.runs (k : State.Kept P) (run : Runs s t) (hp : P s) : P t := by
  induction run with
  | here => exact hp
  | more _ h ih => exact step_keeps (fun _ _ => k.move) (fun _ _ _ => k.setShut) ih h

theorem State.Kept.shutdown (k : State.Kept P) (h : exec (.rbShutdown rb) s = .next t) (hp : P s) : P t := by
  obtain ⟨r, hr, released, -⟩ := shutdown_next (L := fun _ => True) trivial
    (fun _ _ x _ => Held.allowed_anywhere x) h
  exact k.moves released (k.move (.told _ s.who .none .none) (k.setShut hr hp))

theorem State.Kept.shutdowns {rbs : List RingId} (k : State.Kept P)
    (h : execAll (rbs.map Instr.rbShutdown) s = .next t) (hp : P s) : P t := by
  induction rbs generalizing s with
  | nil => cases h; exact hp
  | cons rb rbs ih =>
    obtain ⟨u, first, rest⟩ := andThen_next.1 h
    exact ih rest (k.shutdown first hp)

/-- The instance of name `rb` exists, is shut down and holds nothing. -/
def State.ClosedAt (rb : RingId) (s : State) : Prop :=
  ∃ r, s.ring? rb = some r ∧ r.shut = true ∧ r.pending = []

theorem State.ClosedAt.quietAt (h : s.ClosedAt rb) : s.QuietAt rb := fun q hq _ => by
  obtain ⟨r, hr, -, empty⟩ := h
  obtain rfl : r = q := Option.some.inj (hr.symm.trans hq)
  exact empty

theorem closedAt_kept (rb : RingId) : State.Kept (State.ClosedAt rb) where
  move m h := by
    have ⟨r, hr, hs, _⟩ := h
    obtain ⟨r', hr', -, -, stays⟩ := (move_onward m).ring rb r hr
    exact ⟨r', hr', stays hs, move_quietAt h.quietAt m r' hr' (stays hs)⟩
  setShut {s rb' q} hq h := by
    obtain ⟨r, hr, hs, empty⟩ := h
    by_cases e : rb = rb'
    · subst e
      obtain rfl : r = q := Option.some.inj (hr.symm.trans hq)
      exact ⟨_, ring?_setRing_same (named_of_ring? hr), rfl, empty⟩
    · exact ⟨r, (ring?_setRing_other e).trans hr, hs, empty⟩

/-- Chain `c` was started, and its parser has had its `PS.RESET`. -/
def State.UsableAt (c : Nat) (s : State) : Prop :=
  ∃ ch, s.chains[c]? = some ch ∧ ch.aborted = false ∧ ch.parser.ready = true

theorem State.UsableAt.of_chains_eq (h : t.chains = s.chains) (hu : s.UsableAt c) : t.UsableAt c := by
  unfold State.UsableAt; rwa [h]

theorem State.UsableAt.setRing (hu : s.UsableAt c) (rb : RingId) (r : Ring) : (s.setRing rb r).UsableAt c := by
  obtain ⟨ch, hc, ha, hr⟩ := hu
  obtain ⟨ch', hc', parser, -, -, -, -, -, -, aborted⟩ := setRing_chain_keeps (rb := rb) (r := r) hc
  exact ⟨ch', hc', aborted.trans ha, parser ▸ hr⟩

theorem State.UsableAt.stopAgent (hu : s.UsableAt c) (who : Agent) : (s.stopAgent who).UsableAt c := by
  obtain ⟨ch, hc, ha, hr⟩ := hu
  obtain ⟨ch', hc', parser, -, -, -, aborted⟩ := stopAgent_chain_keeps (who := who) hc
  exact ⟨ch', hc', aborted.trans ha, parser ▸ hr⟩

/-- A chain may give way to one that was started if it was, with a parser that is usable if its own was. -/
theorem State.UsableAt.setChain {d : Nat} {ch ch' : Chain} (hu : s.UsableAt c) (hd : s.chains[d]? = some ch)
    (aborted : ch'.aborted = ch.aborted) (ready : ch.parser.ready = true → ch'.parser.ready = true) :
    (s.setChain d ch').UsableAt c := by
  obtain ⟨x, hc, ha, hr⟩ := hu
  by_cases e : c = d
  · subst e
    obtain rfl : x = ch := Option.some.inj (hc.symm.trans hd)
    exact ⟨ch', setChain_chains_same hd, aborted.trans ha, ready hr⟩
  · exact ⟨x, (setChain_chains_other e).trans hc, ha, hr⟩

/-- No operation takes `PS.RESET` back (70_reset_and_hazards.md R180). -/
theorem usableAt_kept (c : Nat) : State.Kept (State.UsableAt c) where
  move m hu := by
    cases m with
    | idle _ hc _ _ => exact hu.of_chains_eq hc
    | told who res ev => exact hu
    | stop who => exact hu.stopAgent who
    | store _ _ _ _ _ _ => exact hu.setRing _ _
    | take _ _ _ _ _ _ _ => exact hu.setRing _ _
    | hold _ _ _ _ => exact hu.setRing _ _
    | release _ _ _ => exact hu.setRing _ _
    | force _ _ _ _ _ _ => exact hu.setRing _ _
    | make _ _ _ _ _ => exact hu.setRing _ _
    | parse _ hd _ _ _ unit => exact hu.setChain hd rfl (parserStep_ready unit).trans
    | reset _ hd _ => exact hu.setChain hd rfl fun _ => rfl
    | stream _ _ _ _ hd _ => exact hu.setChain hd rfl id
  setShut _ hu := hu.setRing _ _

/-! ## Shutting a chain down (70_reset_and_hazards.md R183; assumption logs 17 and 28) -/

/-- Each ring of chain `c` can be shut down: the block meets its invariant, the chain was started and has its rings, and the
frame lengths are ones the initialisation accepts. -/
structure State.Closable (c : Nat) (s : State) : Prop where
  wf : s.Wf
  usable : s.UsableAt c
  rings : ∀ rb, chainOf rb = some c → ∃ r, s.ring? rb = some r
  frames : ∀ w, FrameLengthOk (frameLen s.params w)

theorem State.Closable.onward (h : s.Closable c) (k : s.Onward t) (wf : t.Wf) (usable : t.UsableAt c) :
    t.Closable c where
  wf := wf
  usable := usable
  rings rb hrb := by
    obtain ⟨r, hr⟩ := h.rings rb hrb
    obtain ⟨r', hr', -⟩ := k.ring rb r hr
    exact ⟨r', hr'⟩
  frames := k.params ▸ h.frames

theorem closable_kept (c : Nat) : State.Kept (State.Closable c) where
  move m h := h.onward (move_onward m) (move_wf h.wf m) ((usableAt_kept c).move m h.usable)
  setShut hr h := h.onward (onward_setRing_of hr ⟨rfl, rfl, fun _ => rfl⟩) (h.wf.setShut hr)
    ((usableAt_kept c).setShut hr h.usable)

/-- `RB.SHUTDOWN` on a ring of the chain completes and closes it (40_ringbuffer.md R96). -/
theorem State.Closable.shutdown (h : s.Closable c) (hrb : chainOf rb = some c) :
    ∃ t, exec (.rbShutdown rb) s = .next t ∧ t.ClosedAt rb := by
  obtain ⟨r, hr⟩ := h.rings rb hrb
  obtain ⟨ch, hc, ha, -⟩ := h.usable
  obtain ⟨completes, -, -⟩ := shutdownReleasesEveryHold s rb r hr
  obtain ⟨t, r', answer, closed⟩ :=
    completes h.wf ((abortedAt_of_chain hrb hc).trans ha) (h.frames .work) (h.frames .dl)
  exact ⟨t, answer, r', closed⟩

/-- `RB.SHUTDOWN` on rings of the chain, one after another in any order, completes and leaves each of them closed: a later one
opens no earlier one again. -/
theorem State.Closable.shutdowns {rbs : List RingId} (h : s.Closable c) (hrbs : ∀ rb ∈ rbs, chainOf rb = some c) :
    ∃ t, execAll (rbs.map Instr.rbShutdown) s = .next t ∧ ∀ rb ∈ rbs, t.ClosedAt rb := by
  induction rbs generalizing s with
  | nil => exact ⟨s, rfl, by simp⟩
  | cons rb rbs ih =>
    obtain ⟨hrb, others⟩ := List.forall_mem_cons.mp hrbs
    obtain ⟨u, first, closed⟩ := h.shutdown hrb
    obtain ⟨t, rest, closedRest⟩ := ih ((closable_kept c).shutdown first h) others
    refine ⟨t, andThen_next.2 ⟨u, first, rest⟩, List.forall_mem_cons.mpr ⟨?_, closedRest⟩⟩
    exact (closedAt_kept rb).shutdowns rest closed

/-- Once the rings of a chain are closed, its agents take no step (43_pipeline.md R127, R131). -/
theorem State.UsableAt.agents_halted (hu : s.UsableAt c) (closed : ∀ rb, chainOf rb = some c → s.ClosedAt rb) :
    exec (.dspStep c) s = .next s ∧ ∀ w, exec (.txStep c w) s = .next s := by
  obtain ⟨ch, hc, ha, hr⟩ := hu
  have shut : ch.shutDown = true := (shutDown_iff c).2 fun rb hrb => by
    obtain ⟨r, hring, hs, -⟩ := closed rb hrb
    exact ⟨r, (ring?_of_chain hrb hc).symm.trans hring, hs⟩
  refine ⟨dsp_wait hc ha hr rfl (.inr (.inr ?rx)), fun w => txStep_waits hc ha (.inl ?tx)⟩
  case rx => rw [Chain.rxHalted, shut, Bool.or_true]
  case tx => cases w <;> rw [Chain.txHalted, shut, Bool.or_true]

/-- The names of the rings of a chain (00_scope.md R9). -/
theorem mem_ringNames : rb ∈ [.nonce c, .reg c, .work c, .dl c] ↔ chainOf rb = some c := by
  cases rb <;> simp [chainOf]

end kept

/-- Settles O34: each `RB.SHUTDOWN` closes its ring, and closed rings and a usable parser are kept by every later shutdown and
every step; with all four rings closed the agents wait. -/
theorem chainShutdownHaltsItsAgents : Obligations.ChainShutdownHaltsItsAgents := by
  intro s c ch rbs hwf hc ha hr hnonce hreg hwork hdl workLen dlLen perm
  have names : ∀ rb, rb ∈ rbs ↔ chainOf rb = some c := fun rb => perm.mem_iff.trans mem_ringNames
  have rings : ∀ rb, chainOf rb = some c → ∃ r, s.ring? rb = some r := fun rb hrb => by
    rw [ring?_of_chain hrb hc, ← Option.isSome_iff_exists]
    cases rb with
    | nonce => exact hnonce
    | reg => exact hreg
    | work => exact hwork
    | dl => exact hdl
    | pmon => cases hrb
  have closable : s.Closable c := ⟨hwf, ⟨ch, hc, ha, hr⟩, rings, fun w => by
    cases w with
    | work => exact workLen
    | dl => exact dlLen⟩
  obtain ⟨t, done, closed⟩ := closable.shutdowns fun rb => (names rb).1
  refine ⟨t, done, closed, fun u run => State.UsableAt.agents_halted ?usable fun rb hrb => ?closed⟩
  case usable => exact (usableAt_kept c).runs run ((usableAt_kept c).shutdowns done closable.usable)
  case closed => exact (closedAt_kept rb).runs run (closed rb ((names rb).2 hrb))

/-- Settles O36: under the invariant an instance never has more bytes, nor room for more, than its size, and before a shutdown
a request is enabled by its condition alone. -/
theorem oversizedRequestsAreNeverEnabled : Obligations.OversizedRequestsAreNeverEnabled := by
  intro fl r who data n hw hs
  have sum := hw.data_add_space
  refine ⟨fun large => ?put, fun large => ?get⟩
  case put =>
    have noRoom : ¬ data.length ≤ r.spaceLen := by omega
    rw [Held.enabled, hs, Bool.or_false]
    exact decide_eq_false noRoom
  case get =>
    have noBytes : ¬ n ≤ r.dataLen := by omega
    rw [Held.enabled, hs, Bool.or_false]
    exact decide_eq_false noBytes

end Sys2Proof.Machine
